-- ==== Sys2Proof/Word.lean ====
section
/-! DEFINITION. The two widths of CORE: bytes, and the 16-bit words that addresses, register values and the
CRC are (00_scope.md R7, R11). Every value of CORE is unsigned (R11). -/

namespace Sys2Proof

/-- 8 bits: a byte of `XB`, of a store, of a payload register; a function code; an exception value (R11, R31). -/
abbrev Byte := BitVec 8

/-- 16 bits: a register or coil address, a register value, the CRC (R7: `ADDR_BITS`, `REG_BITS`). -/
abbrev Word := BitVec 16

end Sys2Proof
end

