-- ==== Sys2Proof/Config.lean ====
section
/-! DEFINITION. What is fixed for one Instance (00_scope.md R7, R8, R9; 10_state.md R33 to R42): the constants the
source fixes, the configuration record, the one record the spec writes out, and the free values, which no proof can
evaluate. -/

namespace Sys2Proof

/-! ## Constants the source fixes (R7) and the CRC's output transformation (R133) -/

/-- `PAYLOAD_MAX` (R7): the payload registers of a bank. -/
abbrev Config.payloadMax : Nat := 253

/-- `CRC_POLY` (R7): the reflected polynomial. -/
abbrev Config.crcPoly : Word := 0xA001#16

/-- `CRC_INIT` (R7). -/
abbrev Config.crcInit : Word := 0xFFFF#16

/-- `CRC_XOROUT` (R8, R133): no final exclusive or. PRESUMED, unsafe: the spec takes it from general knowledge (log 28). -/
abbrev Config.crcXorOut : Word := 0x0000#16

/-- `RTU_OVERHEAD`, `RTU_DEC_MIN`, `RTU_FRAME_MAX` (R7). -/
abbrev Config.rtuOverhead : Nat := 4
abbrev Config.rtuDecMin : Nat := 5
abbrev Config.rtuFrameMax : Nat := 257

/-- `ASC_OVERHEAD`, `ASC_DEC_MIN`, `ASC_FRAME_MAX` (R7). -/
abbrev Config.ascOverhead : Nat := 9
abbrev Config.ascDecMin : Nat := 9
abbrev Config.ascFrameMax : Nat := 515

/-! ## The configuration record (R9) -/

/-- The function `bit_of_value` (R9, R108) as plain data. The spec fixes it at 0 and 1 only; `nonZero` is its
default `v != 0`, and `listed on` is the function that is 1 at 1 and on the words of `on` (other than 0), so that
every legal function is one of these. DESIGN CHOICE, safe (log 18). -/
inductive BitRule where
  | nonZero
  | listed (on : List Word)
deriving DecidableEq, Repr

/-- One entry `DP[k]` of the datapoint table (R35). `size` is in bytes; `store` names the byte memory. -/
structure Datapoint where
  start : Word
  mode : BitVec 2
  size : BitVec 32
  store : Nat
deriving DecidableEq, Repr

/-- The configuration record of one Instance (R8, R9, R34, R35, R38). `N_DP` is the length of `dps`. -/
structure ConfigRecord where
  /-- `BUSADDR` (R34); no operation reads it. -/
  busAddr : Byte
  /-- `DP[0]` to `DP[N_DP - 1]` (R35), in table order. -/
  dps : List Datapoint
  /-- `SLOT[0]` to `SLOT[8]` (R38), 2 bits each. -/
  slots : Vector (BitVec 2) 9
  bitReadMax : Nat
  regReadMax : Nat
  bitWriteMax : Nat
  regWriteMax : Nat
  coilOn : Word
  coilOff : Word
  bitRule : BitRule
  /-- `XB_SIZE` (R9), at least 515. -/
  xbSize : Nat
deriving DecidableEq, Repr

/-- The encodings of a slot's binding (R38); 3 is reserved. -/
abbrev Config.unbound : BitVec 2 := 0
abbrev Config.buffer : BitVec 2 := 1
abbrev Config.external : BitVec 2 := 2

/-- The encodings of a datapoint's mode (R36); 3 is the mode "invalid/out of range". -/
abbrev Config.readOnly : BitVec 2 := 0
abbrev Config.writeOnly : BitVec 2 := 1
abbrev Config.readWrite : BitVec 2 := 2
abbrev Config.badMode : BitVec 2 := 3

/-- The example record of 95_test_vectors.md section 3.1, with the default parameters of R8. It is the record
`State.reset` holds. DESIGN CHOICE, unsafe: the spec fixes no record (log 1); the defaults are PRESUMED (log 19). -/
def Config.sample : ConfigRecord where
  busAddr := 0x11
  dps := [⟨0x0000, Config.readWrite, 8, 0⟩, ⟨0x0100, Config.readOnly, 4, 1⟩,
          ⟨0x0200, Config.writeOnly, 2, 2⟩, ⟨0x0300, Config.badMode, 2, 3⟩]
  slots := #v[Config.external, Config.unbound, Config.buffer, Config.buffer, Config.external,
              Config.buffer, Config.unbound, Config.unbound, Config.external]
  bitReadMax := 2000
  regReadMax := 125
  bitWriteMax := 1968
  regWriteMax := 123
  coilOn := 0xFF00
  coilOff := 0x0000
  bitRule := .nonZero
  xbSize := 515

/-! ## Free values: no body, so no proof can see what they are (log 5, 6, 7, 8) -/

/-- `val` beside a failed `BUF_RD` (R159, U4): unspecified. DESIGN CHOICE, safe (log 7). -/
opaque Config.freeVal : Nat → Word

/-- The CRC of more bytes than `XB` has; R130 states no result there. DESIGN CHOICE, safe (log 8). -/
opaque Config.freeCrc : Nat → Word

/-- The LRC of more bytes than `XB` has; R138 states no result there. DESIGN CHOICE, safe (log 8). -/
opaque Config.freeLrc : Nat → Byte

/-- The application's answer to an external read once its tape is used up (R10, R15): value and exception.
DESIGN CHOICE, safe (log 5). -/
opaque Config.freeReadValue : Nat → Word
opaque Config.freeReadExc : Nat → Byte

/-- The application's answer to an external write once its tape is used up. DESIGN CHOICE, safe (log 5). -/
opaque Config.freeWriteExc : Nat → Byte

/-- The `RSP` bank the generic-function handler leaves once its tape is used up; its length keeps the bound the
handler's contract sets, 253 (R230). DESIGN CHOICE, safe (log 5, 21). -/
opaque Config.freeGenericAddr : Nat → Byte
opaque Config.freeGenericFc : Nat → Byte
opaque Config.freeGenericLen : Nat → Fin 254
opaque Config.freeGenericPl : Nat → Nat → Byte

end Sys2Proof
end

