-- ==== Sys2Proof/Syntax.lean ====
section
/-! DEFINITION. The instructions of CORE, one constructor per row of opcode_table.json: the host operations
(30_encoding.md R113) and the function codes that `PROCESS` decodes (R111). -/

namespace Sys2Proof

/-- The bank operand `b` of a codec operation (R91): 0 is `REQ`, 1 is `RSP`. -/
inductive Bank where
  | req
  | rsp
deriving DecidableEq, Repr

/-- The instructions. `n` is a byte count (`dataSize`, `cap` or an input length), `a` a register address, `v` a
register value (R91). The operands of a function code stand in `REQ.pl` and not in the code (R95 to R100), so those
constructors carry none; `illegal` carries the code it was decoded from. -/
inductive Instr where
  | crc16 (n : Nat)
  | lrc8 (n : Nat)
  | bufRd (a : Word)
  | bufWr (a v : Word)
  | rtuEnc (b : Bank) (n : Nat)
  | rtuDec (b : Bank) (n : Nat)
  | ascEnc (b : Bank) (n : Nat)
  | ascDec (b : Bank) (n : Nat)
  | process
  | hostopRsvd0
  | hostopRsvdA
  | hostopRsvdB
  | hostopRsvdC
  | hostopRsvdD
  | hostopRsvdE
  | hostopRsvdF
  | rdcoils
  | rddisc
  | rdhold
  | rdinput
  | wrcoil
  | wrreg
  | wrcoils
  | wrregs
  | rwregs
  | rsvd07
  | rsvd08
  | rsvd0B
  | rsvd0C
  | rsvd11
  | rsvd14
  | rsvd15
  | rsvd16
  | rsvd18
  | illegal (fc : Byte)
deriving DecidableEq, Repr

end Sys2Proof
end

