-- ==== Sys2Proof/WellFormed.lean ====
section
/-! DEFINITION. Which terms of `Instr` an encoding stands for: a count must fit its port (30_encoding.md R91), and
`illegal` stands for the 238 function codes that no other row of the opcode table takes (R115, R234). -/

namespace Sys2Proof

/-- The width of the port of operand `n`: "10 bits or as many as `XB_SIZE` needs" (R91). -/
def portBits (xbSize : Nat) : Nat := max 10 (xbSize.log2 + 1)

/-- The 18 function codes with a row of their own in the opcode table (R111, R114). -/
def assignedCodes : List Byte :=
  [0x01, 0x02, 0x03, 0x04, 0x05, 0x06, 0x07, 0x08, 0x0B, 0x0C, 0x0F, 0x10, 0x11, 0x14, 0x15, 0x16, 0x17, 0x18]

/-- The check of an instruction against its encoding, for an Instance whose transport buffer has `xbSize` bytes. -/
def Instr.wf (xbSize : Nat) : Instr → Bool
  | .crc16 n => decide (n < 2 ^ portBits xbSize)
  | .lrc8 n => decide (n < 2 ^ portBits xbSize)
  | .rtuEnc _ n => decide (n < 2 ^ portBits xbSize)
  | .rtuDec _ n => decide (n < 2 ^ portBits xbSize)
  | .ascEnc _ n => decide (n < 2 ^ portBits xbSize)
  | .ascDec _ n => decide (n < 2 ^ portBits xbSize)
  | .illegal fc => !assignedCodes.contains fc
  | .bufRd _ | .bufWr _ _ | .process => true
  | .hostopRsvd0 | .hostopRsvdA | .hostopRsvdB | .hostopRsvdC | .hostopRsvdD | .hostopRsvdE | .hostopRsvdF => true
  | .rdcoils | .rddisc | .rdhold | .rdinput | .wrcoil | .wrreg | .wrcoils | .wrregs | .rwregs => true
  | .rsvd07 | .rsvd08 | .rsvd0B | .rsvd0C | .rsvd11 | .rsvd14 | .rsvd15 | .rsvd16 | .rsvd18 => true

end Sys2Proof
end

