-- ==== Sys2Proof/Decode.lean ====
section
/-! DEFINITION. The decoder and the encoder of both opcode maps (30_encoding.md R111, R113). Both maps are total: every
4-bit host operation code and every 8-bit function code has an instruction (R118). -/

namespace Sys2Proof

/-- The operation port (R91): the 4-bit code and the operands, each on its own port. -/
structure OpWord where
  op : BitVec 4
  b : BitVec 1
  n : Nat
  a : Word
  v : Word
deriving DecidableEq, Repr

/-- The two encodings an instruction can have (R90): a host operation, or the function code in `REQ.fc`. -/
inductive Code where
  | hostOp (w : OpWord)
  | functionCode (fc : Byte)
deriving DecidableEq, Repr

/-- The bank select bit (R91). -/
def decodeBank (b : BitVec 1) : Bank := if b = 0 then .req else .rsp

def encodeBank : Bank → BitVec 1
  | .req => 0
  | .rsp => 1

/-- The host operation map (R113). Operands an operation does not name are ignored (R91). -/
def decodeHostOp (w : OpWord) : Instr :=
  match w.op.toNat with
  | 0x1 => .crc16 w.n
  | 0x2 => .lrc8 w.n
  | 0x3 => .bufRd w.a
  | 0x4 => .bufWr w.a w.v
  | 0x5 => .rtuEnc (decodeBank w.b) w.n
  | 0x6 => .rtuDec (decodeBank w.b) w.n
  | 0x7 => .ascEnc (decodeBank w.b) w.n
  | 0x8 => .ascDec (decodeBank w.b) w.n
  | 0x9 => .process
  | 0x0 => .hostopRsvd0
  | 0xA => .hostopRsvdA
  | 0xB => .hostopRsvdB
  | 0xC => .hostopRsvdC
  | 0xD => .hostopRsvdD
  | 0xE => .hostopRsvdE
  | _ => .hostopRsvdF

/-- The function-code map (R111, R114, R115); the switch is on all 8 bits (R223). -/
def decodeFunction (fc : Byte) : Instr :=
  match fc.toNat with
  | 0x01 => .rdcoils
  | 0x02 => .rddisc
  | 0x03 => .rdhold
  | 0x04 => .rdinput
  | 0x05 => .wrcoil
  | 0x06 => .wrreg
  | 0x0F => .wrcoils
  | 0x10 => .wrregs
  | 0x17 => .rwregs
  | 0x07 => .rsvd07
  | 0x08 => .rsvd08
  | 0x0B => .rsvd0B
  | 0x0C => .rsvd0C
  | 0x11 => .rsvd11
  | 0x14 => .rsvd14
  | 0x15 => .rsvd15
  | 0x16 => .rsvd16
  | 0x18 => .rsvd18
  | _ => .illegal fc

/-- The decoder. It refuses nothing: R118. -/
def decode : Code → Instr
  | .hostOp w => decodeHostOp w
  | .functionCode fc => decodeFunction fc

/-- The encoder (R111, R113); a port an operation does not name carries 0. -/
def encode : Instr → Code
  | .crc16 n => .hostOp ⟨0x1, 0, n, 0, 0⟩
  | .lrc8 n => .hostOp ⟨0x2, 0, n, 0, 0⟩
  | .bufRd a => .hostOp ⟨0x3, 0, 0, a, 0⟩
  | .bufWr a v => .hostOp ⟨0x4, 0, 0, a, v⟩
  | .rtuEnc b n => .hostOp ⟨0x5, encodeBank b, n, 0, 0⟩
  | .rtuDec b n => .hostOp ⟨0x6, encodeBank b, n, 0, 0⟩
  | .ascEnc b n => .hostOp ⟨0x7, encodeBank b, n, 0, 0⟩
  | .ascDec b n => .hostOp ⟨0x8, encodeBank b, n, 0, 0⟩
  | .process => .hostOp ⟨0x9, 0, 0, 0, 0⟩
  | .hostopRsvd0 => .hostOp ⟨0x0, 0, 0, 0, 0⟩
  | .hostopRsvdA => .hostOp ⟨0xA, 0, 0, 0, 0⟩
  | .hostopRsvdB => .hostOp ⟨0xB, 0, 0, 0, 0⟩
  | .hostopRsvdC => .hostOp ⟨0xC, 0, 0, 0, 0⟩
  | .hostopRsvdD => .hostOp ⟨0xD, 0, 0, 0, 0⟩
  | .hostopRsvdE => .hostOp ⟨0xE, 0, 0, 0, 0⟩
  | .hostopRsvdF => .hostOp ⟨0xF, 0, 0, 0, 0⟩
  | .rdcoils => .functionCode 0x01
  | .rddisc => .functionCode 0x02
  | .rdhold => .functionCode 0x03
  | .rdinput => .functionCode 0x04
  | .wrcoil => .functionCode 0x05
  | .wrreg => .functionCode 0x06
  | .wrcoils => .functionCode 0x0F
  | .wrregs => .functionCode 0x10
  | .rwregs => .functionCode 0x17
  | .rsvd07 => .functionCode 0x07
  | .rsvd08 => .functionCode 0x08
  | .rsvd0B => .functionCode 0x0B
  | .rsvd0C => .functionCode 0x0C
  | .rsvd11 => .functionCode 0x11
  | .rsvd14 => .functionCode 0x14
  | .rsvd15 => .functionCode 0x15
  | .rsvd16 => .functionCode 0x16
  | .rsvd18 => .functionCode 0x18
  | .illegal fc => .functionCode fc

/-- What a bare word of the opcode table says. The two maps overlap: a word below 16 is a host operation code and
also a function code. It is read at the outer layer (R90), as the operation code with zeros on the operand ports; a
word of 8 bits from 16 up can only be a function code. DESIGN CHOICE, safe: no run of the machine decodes a bare word
(log 13). -/
def tableCode (nbits w : Nat) : Option Code :=
  if nbits ≤ 8 ∧ w < 2 ^ nbits then
    if w < 16 then some (.hostOp ⟨BitVec.ofNat 4 w, 0, 0, 0, 0⟩) else some (.functionCode (BitVec.ofNat 8 w))
  else none

/-- The instruction the decoder reads from a word of the opcode table; none where the word is wider than the table's
encodings or has bits above `nbits`. -/
def decodeTableWord (nbits w : Nat) : Option Instr := (tableCode nbits w).map decode

end Sys2Proof
end

