-- ==== Sys2Proof/Machine/State.lean ====
section
/-! DEFINITION. The state of one Instance of CORE (10_state.md), as plain data, the state after reset (R49), and the
closed reasons a step can stop. The fields after `ds` are the model's own: they stand for CORE's environment and for
its outputs, and no rule makes them registers of CORE. -/

namespace Sys2Proof.Machine

/-- A byte memory: (offset, byte) pairs, offsets strictly rising, no entry equal to `Memory.fill`. -/
abbrev Memory := List Host.Cell

/-- What a byte that nothing has written reads as. The spec gives none (R49: reset does not touch `XB` or a store).
DESIGN CHOICE, unsafe (log 3, 4). -/
abbrev Memory.fill : Byte := 0x00

/-- The 253 payload registers of a bank (R20, R24): bytes, and the proof that there are `PAYLOAD_MAX` of them. -/
abbrev Payload := { l : List Byte // l.length = Config.payloadMax }

/-- One PDU register bank (R20): address, function code, length, and 253 payload registers. -/
structure Pdu where
  addr : Byte
  fc : Byte
  len : Byte
  pl : Payload
deriving DecidableEq, Repr

/-- The result record of an operation (R17); a field the operation does not drive is `none`. -/
structure Result where
  ok : Option Bool := none
  n : Option Nat := none
  val : Option Word := none
  exc : Option Byte := none
  crc : Option Word := none
  lrc : Option Byte := none
deriving DecidableEq, Repr

/-- How the last host operation ended (R14), the model's output port (log 9). -/
inductive OpEnd where
  /-- no operation since reset -/
  | idle
  /-- it completed with this result record -/
  | completed (r : Result)
  /-- it ended in the fatal fault with this cause (R326) -/
  | faulted (cause : BitVec 4)
  /-- it was refused: a reserved code (R118), or the block is halted (R331) -/
  | refused
  /-- a callback never returned and it does not end (R367) -/
  | unfinished
deriving DecidableEq, Repr

/-- What CORE presented on a port to the application (R15, R227, R230, R326), the model's output log (log 25). -/
inductive Call where
  | read (slot : Fin 9) (fc : Byte) (a : Word)
  | write (slot : Fin 9) (fc : Byte) (a v : Word)
  | generic (req rsp : Pdu)
  | faultHook (cause : BitVec 4)
deriving DecidableEq, Repr

/-- One answer of the application to an external read: a value and an exception value, or none ever (R367). -/
inductive ReadAnswer where
  | returns (v : Word) (e : Byte)
  | never
deriving DecidableEq, Repr

/-- One answer of the application to an external write. -/
inductive WriteAnswer where
  | returns (e : Byte)
  | never
deriving DecidableEq, Repr

/-- One answer of the generic-function handler: the `RSP` bank it leaves (R230), or none ever (R367). -/
inductive GenericAnswer where
  /-- it returns and leaves this bank -/
  | leaves (rsp : Pdu)
  /-- it never returns; this is what it had made of `RSP` when it stopped writing, which R367 leaves open ("may be
  partly written"): any bank. DESIGN CHOICE, safe (log 17). -/
  | never (rsp : Pdu)
deriving DecidableEq, Repr

/-- What the host or the application does between two operations of CORE (R43, R61, R350, R362). -/
inductive HostEvent where
  /-- the host issues an operation -/
  | issue (w : OpWord)
  /-- the host loads bytes into `XB` -/
  | loadXb (off : Nat) (bytes : List Byte)
  /-- the application writes a byte of its store `DS[k]`, one the Instance has or one built for a later record (R361) -/
  | appStore (k off : Nat) (v : Byte)
  /-- the host constructs the Instance anew with a configuration record -/
  | reset (c : ConfigRecord)
deriving DecidableEq, Repr

/-- The machine. -/
structure State where
  /-- the request bank -/
  req : Pdu
  /-- the response bank -/
  rsp : Pdu
  /-- `HALT` (R30) -/
  halt : Bool
  /-- `FCAUSE` (R30, R313) -/
  fcause : BitVec 4
  /-- the configuration registers (R33 to R42) -/
  cfg : ConfigRecord
  /-- the transport buffer (R61) -/
  xb : Memory
  /-- all byte stores `DS[k]` (R43), keyed by `storeKey k off` (log 23) -/
  ds : Memory
  /-- the model's: what the host and the application do next, in order (log 12) -/
  inbox : List HostEvent
  /-- the model's: how the last operation ended (log 9) -/
  out : OpEnd
  /-- the model's: what was presented to the application, oldest first (log 25) -/
  calls : List Call
  /-- the model's: the application's answers to come, in order (log 5) -/
  appReads : List ReadAnswer
  appWrites : List WriteAnswer
  appGenerics : List GenericAnswer
  /-- the model's: which free value comes next (log 6) -/
  free : Nat
  /-- the model's: a callback never returned (R367, log 17) -/
  stuck : Bool
deriving DecidableEq, Repr

/-- The faults of the model. No operation of CORE raises one: CORE's fatal fault is taken as a next state (R326). -/
inductive Fault where
  /-- The host's load reaches outside the `XB_SIZE` bytes of `XB` (R60). Raised by the script event `loadXb`. Safe. -/
  | xbRange
  /-- The application's write is at an offset that no store of any record has: beyond the largest even size of 32 bits
  (R35, R37). Raised by the script event `appStore`. Safe. -/
  | storeRange
deriving DecidableEq, Repr

/-- The refusals of the model. -/
inductive Refusal where
  /-- An instruction that has no meaning yet, by mnemonic. Raised by `exec`'s refused arms. Safe. -/
  | notModelled (mnemonic : String)
  /-- The configuration record breaks R358 (a), (b), (e) or (f), which a model refuses. Raised by a reset that presents
  such a record and by every operation of an Instance that holds one. Safe. -/
  | illFormedConfiguration
deriving DecidableEq, Repr

/-- A bank after reset (R49). The payload registers are unspecified there: zero is a DESIGN CHOICE, unsafe (log 2). -/
def Pdu.reset : Pdu where
  addr := 0x00
  fc := 0x00
  len := 0
  pl := ⟨List.replicate Config.payloadMax 0x00, List.length_replicate⟩

/-- The machine right after reset (R49, R351). The configuration is the record of 95_test_vectors.md section 3.1
(DESIGN CHOICE, unsafe, log 1); the environment's fields are empty. -/
def State.reset : State where
  req := Pdu.reset
  rsp := Pdu.reset
  halt := false
  fcause := 0
  cfg := Config.sample
  xb := []
  ds := []
  inbox := []
  out := .idle
  calls := []
  appReads := []
  appWrites := []
  appGenerics := []
  free := 0
  stuck := false

end Sys2Proof.Machine
end

