-- ==== Sys2Proof/Machine/Operands.lean ====
section
/-! DEFINITION. How operands, fields and characters are read and assembled (00_scope.md R12; 30_encoding.md R105 to
R110; 43_ascii_codec.md R190, R191), and how the configuration record is consulted and checked (70 R358). -/

namespace Sys2Proof.Machine

/-! ## Words and bytes -/

/-- `be16(hi, lo)` (R12, R105). -/
def be16 (hi lo : Byte) : Word := hi ++ lo

/-- `v[15:8]`. -/
def hiByte (v : Word) : Byte := v.extractLsb' 8 8

/-- `v[7:0]`. -/
def loByte (v : Word) : Byte := v.extractLsb' 0 8

/-- `ceil(q/8)` (R12). -/
def ceilDiv8 (q : Nat) : Nat := (q + 7) / 8

/-- The address of item `i` of a request (R229, R82): `add16(startAddress, i)`, which wraps. -/
def itemAddr (start : Word) (i : Nat) : Word := start + BitVec.ofNat 16 i

/-! ## Payload registers -/

/-- `B.pl[i]`. No rule reads an index above 252 (R24); such an index reads 0 here. -/
def Pdu.get (p : Pdu) (i : Nat) : Byte := p.pl.val.getD i 0

/-- `B.pl[i] <- v`. No rule writes an index above 252 (R24); such a write is dropped here. -/
def Pdu.set (p : Pdu) (i : Nat) (v : Byte) : Pdu := { p with pl := ⟨p.pl.val.set i v, by rw [List.length_set]; exact p.pl.property⟩ }

/-- `B.pl[j], B.pl[j+1], ... <- bytes`. -/
def Pdu.setBytes (p : Pdu) (j : Nat) : List Byte → Pdu
  | [] => p
  | v :: vs => Pdu.setBytes (p.set j v) (j + 1) vs

/-- `B.pl[j] <- v[15:8]; B.pl[j+1] <- v[7:0]` (R67, R109). -/
def Pdu.setWord (p : Pdu) (j : Nat) (v : Word) : Pdu := (p.set j (hiByte v)).set (j + 1) (loByte v)

/-- The big-endian field at index `j` (R67, R105). -/
def Pdu.word (p : Pdu) (j : Nat) : Word := be16 (p.get j) (p.get (j + 1))

/-- `B.pl[0..n)`. -/
def Pdu.payload (p : Pdu) (n : Nat) : List Byte := p.pl.val.take n

/-- `bytes(B)` (R16): address, function code, payload. -/
def Pdu.bytes (p : Pdu) : List Byte := p.addr :: p.fc :: p.payload p.len.toNat

/-- Bit `i` of the packed states that start at payload index `j`, least significant first (R70, R107). -/
def Pdu.coil (p : Pdu) (j i : Nat) : Bool := (p.get (j + i / 8)).getLsbD (i % 8)

/-! ## Characters (R110, R190) -/

abbrev colon : Byte := 0x3A
abbrev carriageReturn : Byte := 0x0D
abbrev lineFeed : Byte := 0x0A

/-- `hexdigit(x)` (R110). -/
def hexDigit (x : BitVec 4) : Byte :=
  if x.toNat ≤ 9 then BitVec.ofNat 8 (0x30 + x.toNat) else BitVec.ofNat 8 (0x41 + (x.toNat - 10))

/-- `hexval(c)` (R110): defined on the sixteen upper-case digits only. -/
def hexVal (c : Byte) : Option (BitVec 4) :=
  if 0x30 ≤ c.toNat ∧ c.toNat ≤ 0x39 then some (BitVec.ofNat 4 (c.toNat - 0x30))
  else if 0x41 ≤ c.toNat ∧ c.toNat ≤ 0x46 then some (BitVec.ofNat 4 (c.toNat - 0x41 + 10))
  else none

/-- `hex(x)`: the digit of the high nibble first (R191). -/
def hexByte (x : Byte) : List Byte := [hexDigit (x.extractLsb' 4 4), hexDigit (x.extractLsb' 0 4)]

/-- `hex` of each byte in order (R93). -/
def hexBytes : List Byte → List Byte
  | [] => []
  | x :: xs => hexByte x ++ hexBytes xs

/-- The bytes a row of digit pairs stands for, `16*hexval(c0) + hexval(c1)` each (R110, R195); none when a character is
not a digit (R198) or is left without a partner. -/
def unhexBytes : List Byte → Option (List Byte)
  | [] => some []
  | [_] => none
  | c0 :: c1 :: rest =>
    match hexVal c0, hexVal c1, unhexBytes rest with
    | some h, some l, some bs => some ((h ++ l) :: bs)
    | _, _, _ => none

/-! ## The configuration record -/

/-- What slot `s` is bound to (R38). -/
def binding (c : ConfigRecord) (s : Fin 9) : BitVec 2 := c.slots[s]

/-- `bit_of_value` (R9, R108): 0 at 0 and 1 at 1; elsewhere what the configured function says. -/
def bitOfValue (r : BitRule) (v : Word) : Bool :=
  match r with
  | .nonZero => v != 0
  | .listed on => v != 0 && (v == 1 || on.contains v)

/-- `COIL_ON` or `COIL_OFF` (R107). -/
def coilWord (c : ConfigRecord) (on : Bool) : Word := if on then c.coilOn else c.coilOff

/-- R358 (a): every size is even; (b): entry `k` names the memory `DS[k]` (R35). `k` counts the entries. -/
def dpsWf : Nat → List Datapoint → Bool
  | _, [] => true
  | k, d :: ds => d.size.toNat % 2 == 0 && d.store == k && dpsWf (k + 1) ds

/-- R358 (e): every slot is 0, 1 or 2, and slot 8 is not bound to the Register Buffer (R38, R40). -/
def slotsWf (c : ConfigRecord) : Bool :=
  c.slots.toList.all (fun b => b != 3) && binding c 8 != Config.buffer

/-- R358 (f): the constraints of R8, so that no response outgrows the payload array. -/
def paramsWf (c : ConfigRecord) : Bool :=
  decide (1 + ceilDiv8 c.bitReadMax ≤ Config.payloadMax) && decide (1 + 2 * c.regReadMax ≤ Config.payloadMax) &&
  decide (5 + ceilDiv8 c.bitWriteMax ≤ Config.payloadMax) && decide (5 + 2 * c.regWriteMax ≤ Config.payloadMax) &&
  c.coilOn != c.coilOff

/-- A configuration a model does not refuse (R358): (a), (b), (e), (f), and `XB_SIZE >= 515` (R9). Overlapping ranges
(c) and mode 3 (d) are admitted: their behaviour is defined (R160, R153). -/
def cfgWf (c : ConfigRecord) : Bool :=
  dpsWf 0 c.dps && slotsWf c && paramsWf c && decide (Config.ascFrameMax ≤ c.xbSize)

/-! ## The slots (R39) and the function codes' rows (R112) -/

abbrev sRdCoil : Fin 9 := 0
abbrev sRdDiscrete : Fin 9 := 1
abbrev sRdHolding : Fin 9 := 2
abbrev sRdInput : Fin 9 := 3
abbrev sWrCoil : Fin 9 := 4
abbrev sWrRegister : Fin 9 := 5
abbrev sGenRead : Fin 9 := 6
abbrev sGenWrite : Fin 9 := 7
abbrev sGenFunction : Fin 9 := 8

/-- Whether a function code moves bits or registers (R19, R111). -/
inductive Kind where
  | bit
  | register
deriving DecidableEq, Repr

/-- The families of R224. -/
inductive Family where
  | read
  | writeSingle
  | writeMultiple
  | none
deriving DecidableEq, Repr

/-- R224, over all 256 values. -/
def familyOf (fc : Byte) : Family :=
  match fc.toNat with
  | 0x01 | 0x02 | 0x03 | 0x04 | 0x17 => .read
  | 0x05 | 0x06 => .writeSingle
  | 0x0F | 0x10 => .writeMultiple
  | _ => .none

/-- `spec(fc)`: the specific slot of a code, none for 0x17 (R112, R250, R270, R285). -/
def specificSlot (fc : Byte) : Option (Fin 9) :=
  match fc.toNat with
  | 0x01 => some sRdCoil
  | 0x02 => some sRdDiscrete
  | 0x03 => some sRdHolding
  | 0x04 => some sRdInput
  | 0x05 | 0x0F => some sWrCoil
  | 0x06 | 0x10 => some sWrRegister
  | _ => none

/-- The kind of a code (R111). -/
def kindOf (fc : Byte) : Kind :=
  match fc.toNat with
  | 0x01 | 0x02 | 0x05 | 0x0F => .bit
  | _ => .register

/-- `choose(spec, g)` (R225): the slot whose handler serves the request; `none` is `Delegate`. -/
def choose (c : ConfigRecord) (spec : Option (Fin 9)) (g : Fin 9) : Option (Fin 9) :=
  match spec with
  | some s => if binding c s ≠ Config.unbound then some s else if binding c g ≠ Config.unbound then some g else none
  | none => if binding c g ≠ Config.unbound then some g else none

end Sys2Proof.Machine
end

