-- ==== Sys2Proof/Machine/Flags.lean ====
section
/-! DEFINITION. How an operation ends (00_scope.md R14, R17; 10_state.md R29, R30). CORE has no condition codes; its one
status flag is `HALT`, with the cause register `FCAUSE`. -/

namespace Sys2Proof.Machine

/-- A host operation's outcome. -/
abbrev StepOut := Host.Outcome State Fault Refusal

/-- The operation completes and drives the fields of `r` (R14, R17). -/
def State.complete (s : State) (r : Result) : State := { s with out := .completed r }

/-- The operation is refused: nothing changes and no result is driven (R118, R331). -/
def State.refuse (s : State) : State := { s with out := .refused }

/-- Every host operation begins here: the model refuses an ill-formed configuration (R352, R358; log 20), and while
`HALT = 1` CORE refuses every operation (R331, R320 line 1). -/
def issue (s : State) (body : State → StepOut) : StepOut :=
  if cfgWf s.cfg then (if s.halt then .next s.refuse else body s) else .refused .illFormedConfiguration

end Sys2Proof.Machine
end

