-- ==== Sys2Proof/Machine/Ops.lean ====
section
/-! DEFINITION. The shared operations: byte memories, the banks, the Register Buffer's resolver and access check, the
callback ports, the exception response, the fatal fault and the reset that ends it. -/

namespace Sys2Proof.Machine

/-! ## Byte memories -/

/-- The byte at an offset. -/
def Memory.read : Memory → Nat → Byte
  | [], _ => Memory.fill
  | (x, b) :: r, a => if x = a then b else Memory.read r a

/-- Write one byte, keeping the canonical form. -/
def Memory.write : Memory → Nat → Byte → Memory
  | [], a, v => if v = Memory.fill then [] else [(a, v)]
  | (x, b) :: r, a, v =>
    if x < a then (x, b) :: Memory.write r a v
    else if x = a then (if v = Memory.fill then r else (a, v) :: r)
    else (if v = Memory.fill then (x, b) :: r else (a, v) :: (x, b) :: r)

/-- The canonical form: offsets strictly rising, no entry that an unlisted offset would read as. -/
def Memory.wf : Memory → Bool
  | [] => true
  | [(_, b)] => b != Memory.fill
  | (x, b) :: (y, c) :: r => b != Memory.fill && decide (x < y) && Memory.wf ((y, c) :: r)

/-- `MemRead(S, a, n)` (R13): the lowest offset first. -/
def Memory.readBytes (m : Memory) (a : Nat) : Nat → List Byte
  | 0 => []
  | n + 1 => Memory.read m a :: Memory.readBytes m (a + 1) n

/-- `MemWrite(S, a, n, v)` (R13). -/
def Memory.writeBytes (m : Memory) (a : Nat) : List Byte → Memory
  | [] => m
  | v :: vs => Memory.writeBytes (Memory.write m a v) (a + 1) vs

/-- The key of offset `off` of `DS[k]` (R43): offsets of 32-bit sizes (R35) lie below 2^32, so different stores are
disjoint. DESIGN CHOICE, safe (log 23). -/
def storeKey (k off : Nat) : Nat := k * 2 ^ 32 + off

/-! ## The banks -/

/-- Bank `b` (R91). -/
def State.bank (s : State) : Bank → Pdu
  | .req => s.req
  | .rsp => s.rsp

/-- Write bank `b`. -/
def State.setBank (s : State) (b : Bank) (p : Pdu) : State :=
  match b with
  | .req => { s with req := p }
  | .rsp => { s with rsp := p }

/-- A decode writes a bank: length, address, function code, and as many payload registers as the frame has bytes;
the others keep what they hold (R174, R195, R46). -/
def Pdu.load (p : Pdu) (addr fc : Byte) (payload : List Byte) : Pdu :=
  Pdu.setBytes { p with addr := addr, fc := fc, len := BitVec.ofNat 8 payload.length } 0 payload

/-! ## Exception values (R31) -/

abbrev exOk : Byte := 0x00
abbrev exIllegalFunction : Byte := 0x01
abbrev exIllegalDataAddress : Byte := 0x02
abbrev exIllegalDataValue : Byte := 0x03
abbrev exSlaveDeviceFailure : Byte := 0x04
abbrev exAcknowledge : Byte := 0x05
abbrev exSlaveBusy : Byte := 0x06
abbrev exMemoryParityError : Byte := 0x08
abbrev exGatewayPathUnavailable : Byte := 0x0A
abbrev exGatewayTargetFailed : Byte := 0x0B

/-! ## The Register Buffer (41_register_buffer.md) -/

/-- The direction of an access (R153). -/
inductive Dir where
  | read
  | write
deriving DecidableEq, Repr

/-- `contains(k, a)` (R151): `start <= a <= start + size/2 - 1` in the integers, without wrap. -/
def dpContains (d : Datapoint) (a : Word) : Bool :=
  decide (d.start.toNat ≤ a.toNat) && decide (a.toNat < d.start.toNat + d.size.toNat / 2)

/-- `resolve(a)` (R150): a linear scan, the first match wins; `k` counts the entries. -/
def resolveFrom : Nat → List Datapoint → Word → Option (Nat × Datapoint)
  | _, [], _ => none
  | k, d :: ds, a => if dpContains d a then some (k, d) else resolveFrom (k + 1) ds a

/-- `resolve(a)` over the whole table. -/
def resolve (c : ConfigRecord) (a : Word) : Option (Nat × Datapoint) := resolveFrom 0 c.dps a

/-- The byte offset of the register's slot (R154): `(size - 2) - 2*(a - start)`. -/
def dpOffset (d : Datapoint) (a : Word) : Nat :=
  (d.size.toNat - 2) - 2 * (a.toNat - d.start.toNat)

/-- Whether a mode lets an access pass, and the exception when it does not (R153): the mode's validity first, then the
direction. -/
def modeCheck (dir : Dir) (mode : BitVec 2) : Byte :=
  if mode = Config.badMode then exSlaveDeviceFailure
  else match dir with
    | .read => if mode = Config.writeOnly then exIllegalDataAddress else exOk
    | .write => if mode = Config.readOnly then exIllegalDataAddress else exOk

/-- Where an access goes, or the exception it fails with. -/
inductive Located where
  | hit (k off : Nat)
  | fails (e : Byte)
deriving DecidableEq, Repr

/-- The protection rules of R162, in priority order. -/
def locate (c : ConfigRecord) (dir : Dir) (a : Word) : Located :=
  match resolve c a with
  | none => .fails exIllegalDataAddress
  | some (k, d) => if modeCheck dir d.mode = exOk then .hit k (dpOffset d a) else .fails (modeCheck dir d.mode)

/-- The register at `DS[k][off..off+2)`: the low byte first (R154). -/
def readSlot (ds : Memory) (k off : Nat) : Word :=
  be16 (Memory.read ds (storeKey k (off + 1))) (Memory.read ds (storeKey k off))

/-- `MemWrite(DS[k], off, 2, [v[7:0], v[15:8]])` (R156). -/
def writeSlot (ds : Memory) (k off : Nat) (v : Word) : Memory :=
  Memory.write (Memory.write ds (storeKey k off) (loByte v)) (storeKey k (off + 1)) (hiByte v)

/-! ## Callbacks (R15, R227) -/

/-- What an invocation, or a loop of them, comes to: a value and the state after it; a non-success exception (R232); or
nothing ever (R367). -/
inductive Reply (α : Type) where
  | ok (x : α) (s : State)
  | exc (e : Byte) (s : State)
  | never (s : State)

/-- A read of the Register Buffer from inside `PROCESS` (R227); a failing one yields only its exception, since the
dispatcher ignores the value beside it (R232). -/
def bufferRead (a : Word) (s : State) : Reply Word :=
  match locate s.cfg .read a with
  | .hit k off => .ok (readSlot s.ds k off) s
  | .fails e => .exc e s

/-- A write of the Register Buffer (R156, R227); a failing one changes nothing (R158). -/
def bufferWrite (a v : Word) (s : State) : Reply Unit :=
  match locate s.cfg .write a with
  | .hit k off => .ok () { s with ds := writeSlot s.ds k off v }
  | .fails e => .exc e s

/-- An answer with an exception value: 0 is success, any other byte aborts (R233, R236). -/
def replyOf {α : Type} (x : α) (e : Byte) (s : State) : Reply α := if e = exOk then .ok x s else .exc e s

/-- The external read port (R227): CORE presents slot, function code and address and takes the application's answer,
from its tape, or a free value when the tape is used up (log 5). -/
def externalRead (slot : Fin 9) (fc : Byte) (a : Word) (s : State) : Reply Word :=
  let s := { s with calls := s.calls ++ [Call.read slot fc a] }
  match s.appReads with
  | .returns v e :: r => replyOf v e { s with appReads := r }
  | .never :: r => .never { s with appReads := r }
  | [] => replyOf (Config.freeReadValue s.free) (Config.freeReadExc s.free) { s with free := s.free + 1 }

/-- The external write port (R227). -/
def externalWrite (slot : Fin 9) (fc : Byte) (a v : Word) (s : State) : Reply Unit :=
  let s := { s with calls := s.calls ++ [Call.write slot fc a v] }
  match s.appWrites with
  | .returns e :: r => replyOf () e { s with appWrites := r }
  | .never :: r => .never { s with appWrites := r }
  | [] => replyOf () (Config.freeWriteExc s.free) { s with free := s.free + 1 }

/-- `CallRead(s, fc, a)` (R227). The slot is bound: `choose` returned it. -/
def callRead (slot : Fin 9) (fc : Byte) (a : Word) (s : State) : Reply Word :=
  if binding s.cfg slot = Config.buffer then bufferRead a s else externalRead slot fc a s

/-- `CallWrite(s, fc, a, v)` (R227). -/
def callWrite (slot : Fin 9) (fc : Byte) (a v : Word) (s : State) : Reply Unit :=
  if binding s.cfg slot = Config.buffer then bufferWrite a v s else externalWrite slot fc a v s

/-- Items `i`, `i + 1`, ... in ascending order, `count` of them; the first that does not succeed ends the loop (R28,
R84, R232). -/
def forItems (item : Nat → State → Reply Unit) : Nat → Nat → State → Reply Unit
  | 0, _, s => .ok () s
  | count + 1, i, s =>
    match item i s with
    | .ok _ s' => forItems item count (i + 1) s'
    | .exc e s' => .exc e s'
    | .never s' => .never s'

/-! ## Ends of PROCESS -/

/-- `exception_response(e)` (R231, R102). -/
def State.exceptionResponse (s : State) (e : Byte) : State :=
  { s with rsp := { s.rsp with fc := s.req.fc ||| 0x80, len := 1 }.set 0 e }

/-- `PROCESS` completes with an exception response. -/
def exceptionEnd (e : Byte) (s : State) : StepOut := .next ((s.exceptionResponse e).complete {})

/-- A callback that never returns leaves `PROCESS` unfinished for ever (R367, U11); `RSP` holds what was written by
then (log 17). -/
def stuckEnd (s : State) : StepOut := .next { s with stuck := true, out := .unfinished }

/-- What follows the invocations: the success response, the exception response of an aborted loop (R232), or nothing. -/
def finish (r : Reply Unit) (success : State → State) : StepOut :=
  match r with
  | .ok _ s => .next ((success s).complete {})
  | .exc e s => exceptionEnd e s
  | .never s => stuckEnd s

/-- The bank the generic-function handler leaves once its tape is used up (log 5, 21). -/
def freeBank (k : Nat) : Pdu where
  addr := Config.freeGenericAddr k
  fc := Config.freeGenericFc k
  len := BitVec.ofNat 8 (Config.freeGenericLen k).val
  pl := ⟨(List.range Config.payloadMax).map (Config.freeGenericPl k), by rw [List.length_map, List.length_range]⟩

/-- `CallGeneric()` and the end of a delegated request (R226, R230): the handler sees both banks and leaves `RSP`. What
`RSP` holds when the handler itself never returns is open in R367; the model takes any bank, the one the answer carries.
DESIGN CHOICE, safe (log 17). -/
def delegate (s : State) : StepOut :=
  let s := { s with calls := s.calls ++ [Call.generic s.req s.rsp] }
  match s.appGenerics with
  | .leaves p :: r => .next ({ s with rsp := p, appGenerics := r }.complete {})
  | .never p :: r => stuckEnd { s with rsp := p, appGenerics := r }
  | [] => .next ({ s with rsp := freeBank s.free, free := s.free + 1 }.complete {})

/-! ## The fatal fault and the reset that ends it -/

/-- `F_NO_GENERIC_HANDLER` (R313). -/
abbrev fNoGenericHandler : BitVec 4 := 0x1

/-- Fatal entry (R326): the cause, `HALT`, the hook, and the operation ends as a fault; nothing else changes. -/
def State.raiseFatal (s : State) (cause : BitVec 4) : State :=
  { s with fcause := cause, halt := true, calls := s.calls ++ [Call.faultHook cause], out := .faulted cause }

/-- Reset, the only way out of `HALT` (R333, R350 to R353): the configuration record is loaded and the state of R49 put
in place; `XB`, the stores and the environment are not touched (log 30). -/
def State.construct (s : State) (c : ConfigRecord) : State :=
  { s with req := Pdu.reset, rsp := Pdu.reset, halt := false, fcause := 0, cfg := c, out := .idle }

/-- Entry of `PROCESS` (R220): the mandatory handler (R221), then address and function code are copied (R222). -/
def processEntry (s : State) (body : State → StepOut) : StepOut :=
  issue s fun s =>
    if binding s.cfg sGenFunction = Config.unbound then .next (s.raiseFatal fNoGenericHandler)
    else body { s with rsp := { s.rsp with addr := s.req.addr, fc := s.req.fc } }

end Sys2Proof.Machine
end

