-- ==== Sys2Proof/Machine/Checksum.lean ====
section
/-! DEFINITION. The Checksum Engine: `CRC16` and `LRC8` (40_checksum.md). `CRCACC` and `LRCACC` are local values
(10_state.md R47, log 22). -/

namespace Sys2Proof.Machine

/-- One bit (R132): shift right; when the bit shifted out was 1, exclusive or with the polynomial. -/
def crcBit (c : Word) : Word := if c.getLsbD 0 then (c >>> 1) ^^^ Config.crcPoly else c >>> 1

/-- Eight bits. -/
def crcBits8 (c : Word) : Word := crcBit (crcBit (crcBit (crcBit (crcBit (crcBit (crcBit (crcBit c)))))))

/-- One byte (R131): it enters the low 8 bits. PRESUMED by the spec itself (log 28). -/
def crcByte (c : Word) (x : Byte) : Word := crcBits8 (c ^^^ x.zeroExtend 16)

/-- The accumulator over a list of bytes, from `c`, in index order (R130). -/
def crcAcc : Word → List Byte → Word
  | c, [] => c
  | c, x :: xs => crcAcc (crcByte c x) xs

/-- `crc16(d)` (R130, R133). -/
def crc16 (d : List Byte) : Word := crcAcc Config.crcInit d ^^^ Config.crcXorOut

/-- The 8-bit sum of a list of bytes, carries out of bit 7 dropped (R138). -/
def lrcAcc : Byte → List Byte → Byte
  | c, [] => c
  | c, x :: xs => lrcAcc (c + x) xs

/-- `lrc8(d)`: the two's complement of the sum (R138). -/
def lrc8 (d : List Byte) : Byte := -(lrcAcc 0x00 d)

/-- `CRC16 n` (R130). No state of CORE changes (R141). With `n` above `XB_SIZE` the spec states no result: a free value
(log 8). -/
def execCrc16 (n : Nat) (s : State) : StepOut :=
  issue s fun s =>
    if n ≤ s.cfg.xbSize then .next (s.complete { crc := some (crc16 (Memory.readBytes s.xb 0 n)) })
    else .next ({ s with free := s.free + 1 }.complete { crc := some (Config.freeCrc s.free) })

/-- `LRC8 n` (R138), likewise. -/
def execLrc8 (n : Nat) (s : State) : StepOut :=
  issue s fun s =>
    if n ≤ s.cfg.xbSize then .next (s.complete { lrc := some (lrc8 (Memory.readBytes s.xb 0 n)) })
    else .next ({ s with free := s.free + 1 }.complete { lrc := some (Config.freeLrc s.free) })

end Sys2Proof.Machine
end

