-- ==== Sys2Proof/Machine/AsciiCodec.lean ====
section
/-! DEFINITION. The ASCII frame codec: `ASC_ENC` and `ASC_DEC` (43_ascii_codec.md). -/

namespace Sys2Proof.Machine

/-- The ASCII frame of a bank (R93, R192): colon, the bytes and their LRC in hexadecimal, CR, LF. -/
def ascFrame (p : Pdu) : List Byte :=
  colon :: (hexBytes (p.bytes ++ [lrc8 p.bytes]) ++ [carriageReturn, lineFeed])

/-- `ASC_ENC b, cap` (R192, R193). -/
def execAscEnc (b : Bank) (cap : Nat) (s : State) : StepOut :=
  issue s fun s =>
    let p := s.bank b
    let l := p.len.toNat
    if Config.payloadMax < l ∨ cap < 2 * l + Config.ascOverhead then .next (s.complete { n := some 0 })
    else .next ({ s with xb := Memory.writeBytes s.xb 0 (ascFrame p) }.complete { n := some (2 * l + Config.ascOverhead) })

/-- The length and marker checks of a decode (R196, R197). -/
def ascShapeOk (xb : Memory) (dataSize : Nat) : Bool :=
  decide (Config.ascDecMin ≤ dataSize) && decide (dataSize ≤ Config.ascFrameMax) && decide (dataSize % 2 = 1) &&
  Memory.read xb 0 == colon && Memory.read xb (dataSize - 2) == carriageReturn &&
  Memory.read xb (dataSize - 1) == lineFeed

/-- `ASC_DEC b, dataSize` (R195): a failure of length, markers or digits leaves the bank unchanged (R196 to R198);
otherwise the fields are written before the LRC is compared (R200, R201; log 16). -/
def execAscDec (b : Bank) (dataSize : Nat) (s : State) : StepOut :=
  issue s fun s =>
    if ascShapeOk s.xb dataSize then
      match unhexBytes (Memory.readBytes s.xb 1 (dataSize - 3)) with
      | none => .next (s.complete { ok := some false })
      | some bs =>
        let d := bs.dropLast
        let p := (s.bank b).load (d.getD 0 0) (d.getD 1 0) (d.drop 2)
        .next ((s.setBank b p).complete { ok := some (lrc8 d == bs.getLastD 0) })
    else .next (s.complete { ok := some false })

end Sys2Proof.Machine
end

