-- ==== Sys2Proof/Machine/IllegalCodes.lean ====
section
/-! DEFINITION. The function codes outside the three families (44_dispatch_common.md R234, R235): an exception response
with `EX_ILLEGAL_FUNCTION`; nothing is invoked, and the payload and its length are ignored. The reserved codes behave as
every other illegal code (90_conflicts.md C3). -/

namespace Sys2Proof.Machine

/-- `RSVD_07` (R235). -/
def execRsvd07 (s : State) : StepOut := processEntry s (exceptionEnd exIllegalFunction)

/-- `RSVD_08` (R235). -/
def execRsvd08 (s : State) : StepOut := processEntry s (exceptionEnd exIllegalFunction)

/-- `RSVD_0B` (R235). -/
def execRsvd0B (s : State) : StepOut := processEntry s (exceptionEnd exIllegalFunction)

/-- `RSVD_0C` (R235). -/
def execRsvd0C (s : State) : StepOut := processEntry s (exceptionEnd exIllegalFunction)

/-- `RSVD_11` (R235). -/
def execRsvd11 (s : State) : StepOut := processEntry s (exceptionEnd exIllegalFunction)

/-- `RSVD_14` (R235). -/
def execRsvd14 (s : State) : StepOut := processEntry s (exceptionEnd exIllegalFunction)

/-- `RSVD_15` (R235). -/
def execRsvd15 (s : State) : StepOut := processEntry s (exceptionEnd exIllegalFunction)

/-- `RSVD_16` (R235). -/
def execRsvd16 (s : State) : StepOut := processEntry s (exceptionEnd exIllegalFunction)

/-- `RSVD_18` (R235). -/
def execRsvd18 (s : State) : StepOut := processEntry s (exceptionEnd exIllegalFunction)

/-- `ILLEGAL` (R234). The code stands in `REQ.fc` when the instruction runs, and the response echoes that register
(R231), so the decoded copy is not read again. -/
def execIllegal (_fc : Byte) (s : State) : StepOut := processEntry s (exceptionEnd exIllegalFunction)

end Sys2Proof.Machine
end

