-- ==== Sys2Proof/Machine/ReadFamily.lean ====
section
/-! DEFINITION. The Read family: function codes 0x01, 0x02, 0x03, 0x04 and 0x17 (45_read_family.md). -/

namespace Sys2Proof.Machine

/-- Item `i` of `bit_read` (R255): bit `i mod 8` of `RSP.pl[1 + i div 8]` is set when the state is 1 (R108). -/
def bitReadItem (slot : Fin 9) (start : Word) (i : Nat) (s : State) : Reply Unit :=
  match callRead slot s.req.fc (itemAddr start i) s with
  | .ok v s =>
    if bitOfValue s.cfg.bitRule v then
      .ok () { s with rsp := s.rsp.set (1 + i / 8) (s.rsp.get (1 + i / 8) ||| ((1 : Byte) <<< (i % 8))) }
    else .ok () s
  | .exc e s => .exc e s
  | .never s => .never s

/-- `bit_read(s)` (R255): the byte count, the cleared bytes, the items, the length. -/
def bitRead (slot : Fin 9) (start : Word) (quantity : Nat) (s : State) : StepOut :=
  let n := ceilDiv8 quantity
  let s := { s with rsp := s.rsp.setBytes 0 (BitVec.ofNat 8 n :: List.replicate n 0x00) }
  finish (forItems (bitReadItem slot start) quantity 0 s) fun s =>
    { s with rsp := { s.rsp with len := BitVec.ofNat 8 (1 + n) } }

/-- Item `i` of `register_read` (R257). -/
def registerReadItem (slot : Fin 9) (start : Word) (i : Nat) (s : State) : Reply Unit :=
  match callRead slot s.req.fc (itemAddr start i) s with
  | .ok v s => .ok () { s with rsp := s.rsp.setWord (1 + 2 * i) v }
  | .exc e s => .exc e s
  | .never s => .never s

/-- `register_read(s)` (R257). -/
def registerRead (slot : Fin 9) (start : Word) (quantity : Nat) (s : State) : StepOut :=
  let s := { s with rsp := s.rsp.set 0 (BitVec.ofNat 8 (2 * quantity)) }
  finish (forItems (registerReadItem slot start) quantity 0 s) fun s =>
    { s with rsp := { s.rsp with len := BitVec.ofNat 8 (1 + 2 * quantity) } }

/-- The greatest quantity of a read (R254). -/
def readMax (c : ConfigRecord) : Kind → Nat
  | .bit => c.bitReadMax
  | .register => c.regReadMax

/-- `read_family()` (R250): size, handler, quantity, items, in this order (R228). -/
def readFamily (spec : Option (Fin 9)) (kind : Kind) (s : State) : StepOut :=
  if s.req.len.toNat ≠ 4 then exceptionEnd exIllegalDataValue s
  else
    let start := s.req.word 0
    let quantity := (s.req.word 2).toNat
    match choose s.cfg spec sGenRead with
    | none => delegate s
    | some slot =>
      if quantity < 1 ∨ readMax s.cfg kind < quantity then exceptionEnd exIllegalDataValue s
      else match kind with
        | .bit => bitRead slot start quantity s
        | .register => registerRead slot start quantity s

/-- `RDCOILS` (R259). -/
def execRdcoils (s : State) : StepOut := processEntry s (readFamily (some sRdCoil) .bit)

/-- `RDDISC` (R260). -/
def execRddisc (s : State) : StepOut := processEntry s (readFamily (some sRdDiscrete) .bit)

/-- `RDHOLD` (R261). -/
def execRdhold (s : State) : StepOut := processEntry s (readFamily (some sRdHolding) .register)

/-- `RDINPUT` (R262). -/
def execRdinput (s : State) : StepOut := processEntry s (readFamily (some sRdInput) .register)

/-- `RWREGS` (R263): the read path only, no specific slot. -/
def execRwregs (s : State) : StepOut := processEntry s (readFamily none .register)

end Sys2Proof.Machine
end

