-- ==== Sys2Proof/Machine/WriteSingle.lean ====
section
/-! DEFINITION. The Write-Single family: function codes 0x05 and 0x06 (46_write_single.md). -/

namespace Sys2Proof.Machine

/-- The success response of both write families: the request's first four payload bytes (R275, R291). -/
def State.echoResponse (s : State) : State :=
  { s with rsp := { s.rsp with len := 4 }.setBytes 0 [s.req.get 0, s.req.get 1, s.req.get 2, s.req.get 3] }

/-- Whether a single write's value is refused: a coil takes the two sentinels only, a register takes all (R274). -/
def singleValueBad (c : ConfigRecord) (kind : Kind) (value : Word) : Bool :=
  match kind with
  | .bit => value != c.coilOn && value != c.coilOff
  | .register => false

/-- `write_single()` (R270). -/
def writeSingle (spec : Option (Fin 9)) (kind : Kind) (s : State) : StepOut :=
  if s.req.len.toNat ≠ 4 then exceptionEnd exIllegalDataValue s
  else
    let address := s.req.word 0
    let value := s.req.word 2
    match choose s.cfg spec sGenWrite with
    | none => delegate s
    | some slot =>
      if singleValueBad s.cfg kind value then exceptionEnd exIllegalDataValue s
      else finish (callWrite slot s.req.fc address value s) State.echoResponse

/-- `WRCOIL` (R276). -/
def execWrcoil (s : State) : StepOut := processEntry s (writeSingle (some sWrCoil) .bit)

/-- `WRREG` (R277). -/
def execWrreg (s : State) : StepOut := processEntry s (writeSingle (some sWrRegister) .register)

end Sys2Proof.Machine
end

