-- ==== Sys2Proof/Machine/WriteMultiple.lean ====
section
/-! DEFINITION. The Write-Multiple family: function codes 0x0F and 0x10 (47_write_multiple.md). -/

namespace Sys2Proof.Machine

/-- The coil validation (R289), in the integers: `byteCount*8 - 1 <= quantity <= byteCount*8` and
`1 <= quantity <= BIT_WRITE_MAX`. The inequality is the source's and is not the common one (C6). -/
def coilCountOk (c : ConfigRecord) (byteCount quantity : Nat) : Bool :=
  decide ((byteCount : Int) * 8 - 1 ≤ quantity) && decide ((quantity : Int) ≤ byteCount * 8) &&
  decide (1 ≤ quantity) && decide (quantity ≤ c.bitWriteMax)

/-- The register validation (R293): `byteCount = 2*quantity` and `1 <= quantity <= REG_WRITE_MAX`. -/
def registerCountOk (c : ConfigRecord) (byteCount quantity : Nat) : Bool :=
  decide (byteCount = 2 * quantity) && decide (1 ≤ quantity) && decide (quantity ≤ c.regWriteMax)

/-- Item `i` of `coil_write_loop` (R290). A payload register at or beyond `REQ.len` is read as it stands (R296; log 15). -/
def coilWriteItem (slot : Fin 9) (start : Word) (i : Nat) (s : State) : Reply Unit :=
  callWrite slot s.req.fc (itemAddr start i) (coilWord s.cfg (s.req.coil 5 i)) s

/-- Item `i` of `register_write_loop` (R294). -/
def registerWriteItem (slot : Fin 9) (start : Word) (i : Nat) (s : State) : Reply Unit :=
  callWrite slot s.req.fc (itemAddr start i) (s.req.word (5 + 2 * i)) s

/-- `write_multiple()` (R285). -/
def writeMultiple (spec : Option (Fin 9)) (kind : Kind) (s : State) : StepOut :=
  if s.req.len.toNat < 5 then exceptionEnd exIllegalDataValue s
  else
    let start := s.req.word 0
    let quantity := (s.req.word 2).toNat
    let byteCount := (s.req.get 4).toNat
    match choose s.cfg spec sGenWrite with
    | none => delegate s
    | some slot =>
      match kind with
      | .bit =>
        if coilCountOk s.cfg byteCount quantity then
          finish (forItems (coilWriteItem slot start) quantity 0 s) State.echoResponse
        else exceptionEnd exIllegalDataValue s
      | .register =>
        if registerCountOk s.cfg byteCount quantity then
          finish (forItems (registerWriteItem slot start) quantity 0 s) State.echoResponse
        else exceptionEnd exIllegalDataValue s

/-- `WRCOILS` (R292). -/
def execWrcoils (s : State) : StepOut := processEntry s (writeMultiple (some sWrCoil) .bit)

/-- `WRREGS` (R295). -/
def execWrregs (s : State) : StepOut := processEntry s (writeMultiple (some sWrRegister) .register)

end Sys2Proof.Machine
end

