-- ==== Sys2Proof/Machine/Dispatcher.lean ====
section
/-! DEFINITION. The host operations `PROCESS` (44_dispatch_common.md R220) and the reserved host codes (30_encoding.md
R118). -/

namespace Sys2Proof.Machine

/-- The switch of R220 on all 8 bits of `REQ.fc` (R223, R224). -/
def dispatchFunction (s : State) : StepOut :=
  match familyOf s.req.fc with
  | .read => readFamily (specificSlot s.req.fc) (kindOf s.req.fc) s
  | .writeSingle => writeSingle (specificSlot s.req.fc) (kindOf s.req.fc) s
  | .writeMultiple => writeMultiple (specificSlot s.req.fc) (kindOf s.req.fc) s
  | .none => exceptionEnd exIllegalFunction s

/-- `PROCESS` (R220). -/
def execProcess (s : State) : StepOut := processEntry s dispatchFunction

/-- Reserved host operation code 0x0: refused, nothing changes (R113, R118; log 10). -/
def execHostopRsvd0 (s : State) : StepOut := .next s.refuse

/-- Reserved host operation code 0xA. -/
def execHostopRsvdA (s : State) : StepOut := .next s.refuse

/-- Reserved host operation code 0xB. -/
def execHostopRsvdB (s : State) : StepOut := .next s.refuse

/-- Reserved host operation code 0xC. -/
def execHostopRsvdC (s : State) : StepOut := .next s.refuse

/-- Reserved host operation code 0xD. -/
def execHostopRsvdD (s : State) : StepOut := .next s.refuse

/-- Reserved host operation code 0xE. -/
def execHostopRsvdE (s : State) : StepOut := .next s.refuse

/-- Reserved host operation code 0xF. -/
def execHostopRsvdF (s : State) : StepOut := .next s.refuse

end Sys2Proof.Machine
end

