-- ==== Sys2Proof/Machine/RegisterBuffer.lean ====
section
/-! DEFINITION. The host operations of the Register Buffer: `BUF_RD` and `BUF_WR` (41_register_buffer.md). -/

namespace Sys2Proof.Machine

/-- `BUF_RD a` (R155). Beside a failure `val` is unspecified (R159, U4): a free value (log 7). -/
def execBufRd (a : Word) (s : State) : StepOut :=
  issue s fun s =>
    match locate s.cfg .read a with
    | .hit k off => .next (s.complete { val := some (readSlot s.ds k off), exc := some exOk })
    | .fails e => .next ({ s with free := s.free + 1 }.complete { val := some (Config.freeVal s.free), exc := some e })

/-- `BUF_WR a, v` (R156). A failing write changes nothing (R158). -/
def execBufWr (a v : Word) (s : State) : StepOut :=
  issue s fun s =>
    match locate s.cfg .write a with
    | .hit k off => .next ({ s with ds := writeSlot s.ds k off v }.complete { exc := some exOk })
    | .fails e => .next (s.complete { exc := some e })

end Sys2Proof.Machine
end

