-- ==== Sys2Proof/Machine/RtuCodec.lean ====
section
/-! DEFINITION. The RTU frame codec: `RTU_ENC` and `RTU_DEC` (42_rtu_codec.md). -/

namespace Sys2Proof.Machine

/-- The RTU frame of a bank (R92, R172): address, function code, payload, CRC low byte, CRC high byte. -/
def rtuFrame (p : Pdu) : List Byte := p.bytes ++ [loByte (crc16 p.bytes), hiByte (crc16 p.bytes)]

/-- `RTU_ENC b, cap` (R170, R171): a bank with `len > 253` or a capacity below `len + 4` gives `n = 0` and writes
nothing. -/
def execRtuEnc (b : Bank) (cap : Nat) (s : State) : StepOut :=
  issue s fun s =>
    let p := s.bank b
    let l := p.len.toNat
    if Config.payloadMax < l ∨ cap < l + Config.rtuOverhead then .next (s.complete { n := some 0 })
    else .next ({ s with xb := Memory.writeBytes s.xb 0 (rtuFrame p) }.complete { n := some (l + Config.rtuOverhead) })

/-- `RTU_DEC b, dataSize` (R174): a length outside 5 to 257 leaves the bank unchanged (R175); otherwise the fields are
written before the CRC is compared (R177, R178; log 16). -/
def execRtuDec (b : Bank) (dataSize : Nat) (s : State) : StepOut :=
  issue s fun s =>
    if dataSize < Config.rtuDecMin ∨ Config.rtuFrameMax < dataSize then .next (s.complete { ok := some false })
    else
      let d := Memory.readBytes s.xb 0 (dataSize - 2)
      let rx := be16 (Memory.read s.xb (dataSize - 1)) (Memory.read s.xb (dataSize - 2))
      let p := (s.bank b).load (Memory.read s.xb 0) (Memory.read s.xb 1) (d.drop 2)
      .next ((s.setBank b p).complete { ok := some (rx == crc16 d) })

end Sys2Proof.Machine
end

