-- ==== Sys2Proof/Machine/Dispatch.lean ====
section
/-! DEFINITION. exec: one arm per instruction, each one call of its meaning. A host operation's arm is the operation; a
function code's arm is `PROCESS` with that code in `REQ.fc` (30_encoding.md R90, log 14). -/

namespace Sys2Proof.Machine

def exec (i : Instr) (s : State) : Host.Outcome State Fault Refusal :=
  match i with
  | .crc16 n => Sys2Proof.Machine.execCrc16 n s
  | .lrc8 n => Sys2Proof.Machine.execLrc8 n s
  | .bufRd a => Sys2Proof.Machine.execBufRd a s
  | .bufWr a v => Sys2Proof.Machine.execBufWr a v s
  | .rtuEnc b n => Sys2Proof.Machine.execRtuEnc b n s
  | .rtuDec b n => Sys2Proof.Machine.execRtuDec b n s
  | .ascEnc b n => Sys2Proof.Machine.execAscEnc b n s
  | .ascDec b n => Sys2Proof.Machine.execAscDec b n s
  | .process => Sys2Proof.Machine.execProcess s
  | .hostopRsvd0 => Sys2Proof.Machine.execHostopRsvd0 s
  | .hostopRsvdA => Sys2Proof.Machine.execHostopRsvdA s
  | .hostopRsvdB => Sys2Proof.Machine.execHostopRsvdB s
  | .hostopRsvdC => Sys2Proof.Machine.execHostopRsvdC s
  | .hostopRsvdD => Sys2Proof.Machine.execHostopRsvdD s
  | .hostopRsvdE => Sys2Proof.Machine.execHostopRsvdE s
  | .hostopRsvdF => Sys2Proof.Machine.execHostopRsvdF s
  | .rdcoils => Sys2Proof.Machine.execRdcoils s
  | .rddisc => Sys2Proof.Machine.execRddisc s
  | .rdhold => Sys2Proof.Machine.execRdhold s
  | .rdinput => Sys2Proof.Machine.execRdinput s
  | .wrcoil => Sys2Proof.Machine.execWrcoil s
  | .wrreg => Sys2Proof.Machine.execWrreg s
  | .wrcoils => Sys2Proof.Machine.execWrcoils s
  | .wrregs => Sys2Proof.Machine.execWrregs s
  | .rwregs => Sys2Proof.Machine.execRwregs s
  | .rsvd07 => Sys2Proof.Machine.execRsvd07 s
  | .rsvd08 => Sys2Proof.Machine.execRsvd08 s
  | .rsvd0B => Sys2Proof.Machine.execRsvd0B s
  | .rsvd0C => Sys2Proof.Machine.execRsvd0C s
  | .rsvd11 => Sys2Proof.Machine.execRsvd11 s
  | .rsvd14 => Sys2Proof.Machine.execRsvd14 s
  | .rsvd15 => Sys2Proof.Machine.execRsvd15 s
  | .rsvd16 => Sys2Proof.Machine.execRsvd16 s
  | .rsvd18 => Sys2Proof.Machine.execRsvd18 s
  | .illegal fc => Sys2Proof.Machine.execIllegal fc s

end Sys2Proof.Machine
end

