-- ==== Sys2Proof/Machine/Events.lean ====
section
/-! DEFINITION. What the host and the application do between two operations: load `XB` (20_memory.md R61, R365), build and
change the stores (10_state.md R43, 70 R361, R366), reset the Instance (70 R350 to R353). -/

namespace Sys2Proof.Machine

/-- The host loads bytes into `XB`, all of them inside it; outside there is no byte to load (R60; log 26). -/
def loadXbEvent (off : Nat) (bytes : List Byte) (s : State) : StepOut :=
  if off + bytes.length ≤ s.cfg.xbSize then .next { s with xb := Memory.writeBytes s.xb off bytes }
  else .fault .xbRange

/-- The largest size a store can have: the even sizes of 32 bits end there (R35, R37). -/
abbrev storeSizeMax : Nat := 2 ^ 32 - 2

/-- The application writes one byte of store `k`. The stores are its own and are built before the reset whose record
presents them (R361), so the record in force does not bound the write; at an offset that no store of any record has
there is no byte to write (log 26). -/
def appStoreEvent (k off : Nat) (v : Byte) (s : State) : StepOut :=
  if off < storeSizeMax then .next { s with ds := Memory.write s.ds (storeKey k off) v }
  else .fault .storeRange

/-- Reset with a configuration record (R350, R352); a model refuses an ill-formed one (R358; log 20). -/
def resetEvent (c : ConfigRecord) (s : State) : StepOut :=
  if cfgWf c then .next (s.construct c) else .refused .illFormedConfiguration

end Sys2Proof.Machine
end

