-- ==== Sys2Proof/Machine/Step.lean ====
section
/-! DEFINITION. One step of the machine: the host's next event (R28: "the order in which the host issues them"). CORE has
no program counter and fetches nothing; what step reads is the operation port (R91), which the script `inbox` drives
(log 12). -/

namespace Sys2Proof.Machine

/-- One step. A machine whose callback never returned stays as it is (R367). With no event CORE is idle and waits
(R354). An issued operation is decoded and run; the other events are the host's and the application's own acts. -/
def step (s : State) : Host.Outcome State Fault Refusal :=
  if s.stuck then .next s
  else match s.inbox with
    | [] => .next s
    | .issue w :: rest => exec (decodeHostOp w) { s with inbox := rest }
    | .loadXb off bytes :: rest => loadXbEvent off bytes { s with inbox := rest }
    | .appStore k off v :: rest => appStoreEvent k off v { s with inbox := rest }
    | .reset c :: rest => resetEvent c { s with inbox := rest }

/-- The state whose next step runs the instruction a bare table word stands for: a host operation is put on the
operation port; for a function code the code is put into `REQ.fc` and `PROCESS` on the port (log 12, 13). -/
def State.withFetchWord (s : State) (nbits w : Nat) : State :=
  { s with
    req := match tableCode nbits w with
      | some (.functionCode fc) => { s.req with fc := fc }
      | some (.hostOp _) => s.req
      | none => s.req
    inbox := match tableCode nbits w with
      | some (.hostOp o) => .issue o :: s.inbox
      | some (.functionCode _) => .issue ⟨0x9, 0, 0, 0, 0⟩ :: s.inbox
      | none => s.inbox }

end Sys2Proof.Machine
end

