-- ==== Sys2Proof/Safety.lean ====
section
/-! DEFINITION. What the claims about runs say of a state: the invariant every step keeps, and the conditions under which
an operation or a `PROCESS` runs. -/

namespace Sys2Proof.Machine

/-- The generic-function handler's contract on one scripted answer (R230): `RSP.len <= 253`, and so too in what a handler
that never returns has made of `RSP` (R23; log 17). -/
def GenericAnswer.honours : GenericAnswer → Bool
  | .leaves p => decide (p.len.toNat ≤ Config.payloadMax)
  | .never p => decide (p.len.toNat ≤ Config.payloadMax)

/-- The invariant: the configuration is one a model does not refuse (R358), both memories keep their canonical form, both
banks keep `len <= 253` (R23), the scripted handler honours its contract (R230), `FCAUSE` holds no reserved cause and
`HALT` comes with its one cause (R313). -/
structure State.Inv (s : State) : Prop where
  cfg : cfgWf s.cfg = true
  xb : Memory.wf s.xb = true
  ds : Memory.wf s.ds = true
  reqLen : s.req.len.toNat ≤ Config.payloadMax
  rspLen : s.rsp.len.toNat ≤ Config.payloadMax
  handler : s.appGenerics.all GenericAnswer.honours = true
  cause : s.fcause = 0 ∨ s.fcause = fNoGenericHandler
  halted : s.halt = true → s.fcause = fNoGenericHandler

/-- An operation runs: the configuration is well formed and the block is not halted (R331, R352). -/
structure State.Ready (s : State) : Prop where
  cfg : cfgWf s.cfg = true
  running : s.halt = false

/-- `PROCESS` runs: it is ready and the mandatory handler is bound (R221, R359). -/
structure State.ReadyProcess (s : State) : Prop extends State.Ready s where
  handler : binding s.cfg sGenFunction ≠ Config.unbound

/-! ## The vocabulary of the statements -/

/-- `PROCESS` and the function codes it decodes. -/
def isProcess : Instr → Bool
  | .process | .rdcoils | .rddisc | .rdhold | .rdinput | .wrcoil | .wrreg | .wrcoils | .wrregs | .rwregs => true
  | .rsvd07 | .rsvd08 | .rsvd0B | .rsvd0C | .rsvd11 | .rsvd14 | .rsvd15 | .rsvd16 | .rsvd18 | .illegal _ => true
  | .crc16 _ | .lrc8 _ | .bufRd _ | .bufWr _ _ | .rtuEnc _ _ | .rtuDec _ _ | .ascEnc _ _ | .ascDec _ _ => false
  | .hostopRsvd0 | .hostopRsvdA | .hostopRsvdB | .hostopRsvdC | .hostopRsvdD | .hostopRsvdE | .hostopRsvdF => false

/-- The function codes outside the three families (R234, R235). -/
def isIllegal : Instr → Bool
  | .rsvd07 | .rsvd08 | .rsvd0B | .rsvd0C | .rsvd11 | .rsvd14 | .rsvd15 | .rsvd16 | .rsvd18 | .illegal _ => true
  | .process | .rdcoils | .rddisc | .rdhold | .rdinput | .wrcoil | .wrreg | .wrcoils | .wrregs | .rwregs => false
  | .crc16 _ | .lrc8 _ | .bufRd _ | .bufWr _ _ | .rtuEnc _ _ | .rtuDec _ _ | .ascEnc _ _ | .ascDec _ _ => false
  | .hostopRsvd0 | .hostopRsvdA | .hostopRsvdB | .hostopRsvdC | .hostopRsvdD | .hostopRsvdE | .hostopRsvdF => false

/-- The reserved host operation codes (R118). -/
def reservedHostOps : List Instr :=
  [.hostopRsvd0, .hostopRsvdA, .hostopRsvdB, .hostopRsvdC, .hostopRsvdD, .hostopRsvdE, .hostopRsvdF]

/-- A row of R112: the instruction, its specific and its generic slot, its kind. -/
structure FunctionRow where
  instr : Instr
  spec : Option (Fin 9)
  gen : Fin 9
  kind : Kind
deriving DecidableEq, Repr

def bitReadRows : List FunctionRow :=
  [⟨.rdcoils, some 0, 6, .bit⟩, ⟨.rddisc, some 1, 6, .bit⟩]

def registerReadRows : List FunctionRow :=
  [⟨.rdhold, some 2, 6, .register⟩, ⟨.rdinput, some 3, 6, .register⟩, ⟨.rwregs, none, 6, .register⟩]

def readRows : List FunctionRow := bitReadRows ++ registerReadRows

def writeSingleRows : List FunctionRow :=
  [⟨.wrcoil, some 4, 7, .bit⟩, ⟨.wrreg, some 5, 7, .register⟩]

def writeMultipleRows : List FunctionRow :=
  [⟨.wrcoils, some 4, 7, .bit⟩, ⟨.wrregs, some 5, 7, .register⟩]

/-- Nothing but the response bank changed, and the operation completed with no result field (R220). -/
def OnlyResponse (s t : State) : Prop := t = { s with rsp := t.rsp, out := .completed {} }

/-- The response is the exception response with code `e` (R102, R231). -/
def ExceptionResponse (s t : State) (e : Byte) : Prop :=
  t.rsp.addr = s.req.addr ∧ t.rsp.fc = s.req.fc ||| 0x80 ∧ t.rsp.len = 1 ∧ t.rsp.get 0 = e

/-- The success response of the write families (R275, R291): the request's first four payload bytes. -/
def EchoResponse (s t : State) : Prop :=
  t.rsp.addr = s.req.addr ∧ t.rsp.fc = s.req.fc ∧ t.rsp.len = 4 ∧ ∀ i, i < 4 → t.rsp.get i = s.req.get i

/-- The response of a register read of the values `vs` (R258). -/
def RegisterResponse (s t : State) (vs : List Word) : Prop :=
  t.rsp.addr = s.req.addr ∧ t.rsp.fc = s.req.fc ∧ t.rsp.len.toNat = 1 + 2 * vs.length ∧
  (t.rsp.get 0).toNat = 2 * vs.length ∧
  ∀ i (h : i < vs.length), t.rsp.get (1 + 2 * i) = hiByte vs[i] ∧ t.rsp.get (2 + 2 * i) = loByte vs[i]

/-- The response of a bit read of the values `vs` (R256): `N` data bytes, item `i` at bit `i mod 8` of byte
`1 + i div 8`, padding bits 0. -/
def BitResponse (s t : State) (vs : List Word) : Prop :=
  t.rsp.addr = s.req.addr ∧ t.rsp.fc = s.req.fc ∧ t.rsp.len.toNat = 1 + (vs.length + 7) / 8 ∧
  (t.rsp.get 0).toNat = (vs.length + 7) / 8 ∧
  ∀ i, i < 8 * ((vs.length + 7) / 8) →
    (t.rsp.get (1 + i / 8)).getLsbD (i % 8) = ((vs[i]?).map (bitOfValue s.cfg.bitRule)).getD false

/-- The handler of a row is the slot `slot`, with this binding (R225, R227). -/
def Serves (s : State) (r : FunctionRow) (slot : Fin 9) (b : BitVec 2) : Prop :=
  choose s.cfg r.spec r.gen = some slot ∧ binding s.cfg slot = b

/-- Address `i` of the request (R229). -/
def State.item (s : State) (i : Nat) : Word := be16 (s.req.get 0) (s.req.get 1) + BitVec.ofNat 16 i

/-- The request's `quantity`, or the `value` of a single write (R95, R98). -/
def State.quantity (s : State) : Word := be16 (s.req.get 2) (s.req.get 3)

/-- The value item `i` of a write-multiple request carries (R107, R100). -/
def State.itemValue (s : State) (k : Kind) (i : Nat) : Word :=
  match k with
  | .bit => if (s.req.get (5 + i / 8)).getLsbD (i % 8) then s.cfg.coilOn else s.cfg.coilOff
  | .register => be16 (s.req.get (5 + 2 * i)) (s.req.get (6 + 2 * i))

/-- The validation of a write-multiple request (R289, R293), in the integers. -/
def State.CountOk (s : State) (k : Kind) : Prop :=
  match k with
  | .bit => ((s.req.get 4).toNat : Int) * 8 - 1 ≤ (s.quantity.toNat : Int) ∧
      (s.quantity.toNat : Int) ≤ ((s.req.get 4).toNat : Int) * 8 ∧
      1 ≤ s.quantity.toNat ∧ s.quantity.toNat ≤ s.cfg.bitWriteMax
  | .register => (s.req.get 4).toNat = 2 * s.quantity.toNat ∧
      1 ≤ s.quantity.toNat ∧ s.quantity.toNat ≤ s.cfg.regWriteMax

/-- The Register Buffer holds `v` at a readable address `a` (R154, R162). -/
def State.Holds (s : State) (a v : Word) : Prop :=
  ∃ k off, locate s.cfg .read a = .hit k off ∧ readSlot s.ds k off = v

/-- A datapoint's range contains an address, in the integers (R151). -/
def InRange (d : Datapoint) (a : Word) : Prop :=
  (d.start.toNat : Int) ≤ (a.toNat : Int) ∧ (a.toNat : Int) ≤ (d.start.toNat : Int) + ((d.size.toNat / 2 : Nat) : Int) - 1

/-- `t` is `s` after the first `m` items of a write-multiple through the Register Buffer: each wrote its register, and
every byte of a store outside those registers is as before (R156, R290, R294). -/
def Wrote (s t : State) (k : Kind) (m : Nat) : Prop :=
  (∀ i, i < m → ∀ j off, locate s.cfg .write (s.item i) = .hit j off → readSlot t.ds j off = s.itemValue k i) ∧
  ∀ key, (∀ i, i < m → ∀ j off, locate s.cfg .write (s.item i) = .hit j off →
      key ≠ storeKey j off ∧ key ≠ storeKey j (off + 1)) → Memory.read t.ds key = Memory.read s.ds key

end Sys2Proof.Machine
end

