-- ==== Sys2Proof/Laws/Banks.lean ====
section
/-! SUPPORT. The payload registers: a read after a write, block writes, and the fields a write leaves alone. -/

namespace Sys2Proof.Machine

@[simp] theorem Pdu.set_addr (p : Pdu) (i : Nat) (v : Byte) : (p.set i v).addr = p.addr := rfl
@[simp] theorem Pdu.set_fc (p : Pdu) (i : Nat) (v : Byte) : (p.set i v).fc = p.fc := rfl
@[simp] theorem Pdu.set_len (p : Pdu) (i : Nat) (v : Byte) : (p.set i v).len = p.len := rfl

@[simp] theorem Pdu.get_with_addr (p : Pdu) (x : Byte) (i : Nat) : ({ p with addr := x } : Pdu).get i = p.get i := rfl
@[simp] theorem Pdu.get_with_fc (p : Pdu) (x : Byte) (i : Nat) : ({ p with fc := x } : Pdu).get i = p.get i := rfl
@[simp] theorem Pdu.get_with_len (p : Pdu) (x : Byte) (i : Nat) : ({ p with len := x } : Pdu).get i = p.get i := rfl

/-- A payload register after a write to one. -/
theorem Pdu.get_set (p : Pdu) (i j : Nat) (v : Byte) :
    (p.set i v).get j = if i = j ∧ i < Config.payloadMax then v else p.get j := by
  have hl := p.pl.property
  simp only [Pdu.get, Pdu.set, List.getD_eq_getElem?_getD, List.getElem?_set, hl]
  by_cases h : i = j
  · subst h
    by_cases hi : i < Config.payloadMax
    · simp [hi]
    · rw [List.getElem?_eq_none (by omega)]
      simp [hi]
  · simp [h]

theorem Pdu.get_set_same (p : Pdu) {i : Nat} (v : Byte) (h : i < Config.payloadMax) : (p.set i v).get i = v := by
  rw [Pdu.get_set, if_pos ⟨rfl, h⟩]

theorem Pdu.get_set_other (p : Pdu) {i j : Nat} (v : Byte) (h : j ≠ i) : (p.set i v).get j = p.get j := by
  rw [Pdu.get_set, if_neg fun hc => h hc.1.symm]

@[simp] theorem Pdu.setBytes_addr (p : Pdu) (j : Nat) (vs : List Byte) : (p.setBytes j vs).addr = p.addr := by
  induction vs generalizing p j with
  | nil => rfl
  | cons v vs ih => rw [Pdu.setBytes, ih, Pdu.set_addr]

@[simp] theorem Pdu.setBytes_fc (p : Pdu) (j : Nat) (vs : List Byte) : (p.setBytes j vs).fc = p.fc := by
  induction vs generalizing p j with
  | nil => rfl
  | cons v vs ih => rw [Pdu.setBytes, ih, Pdu.set_fc]

@[simp] theorem Pdu.setBytes_len (p : Pdu) (j : Nat) (vs : List Byte) : (p.setBytes j vs).len = p.len := by
  induction vs generalizing p j with
  | nil => rfl
  | cons v vs ih => rw [Pdu.setBytes, ih, Pdu.set_len]

/-- A block write leaves every payload register outside the block alone. -/
theorem Pdu.get_setBytes_other (p : Pdu) {j i : Nat} (vs : List Byte) (h : i < j ∨ j + vs.length ≤ i) :
    (p.setBytes j vs).get i = p.get i := by
  induction vs generalizing p j with
  | nil => rfl
  | cons v vs ih =>
    simp only [List.length_cons] at h
    rw [Pdu.setBytes, ih _ (by omega), Pdu.get_set_other _ _ (by omega)]

/-- A payload register inside the block just written. -/
theorem Pdu.get_setBytes (p : Pdu) (j : Nat) (vs : List Byte) {i : Nat} (hi : i < vs.length)
    (hj : j + vs.length ≤ Config.payloadMax) : (p.setBytes j vs).get (j + i) = vs[i] := by
  induction vs generalizing p j i with
  | nil => exact absurd hi (by simp)
  | cons v vs ih =>
    simp only [List.length_cons] at hi hj
    cases i with
    | zero =>
      rw [Pdu.setBytes, Pdu.get_setBytes_other _ _ (by omega)]
      simpa using Pdu.get_set_same p (i := j) v (by omega)
    | succ i =>
      have := ih (p.set j v) (j + 1) (i := i) (by omega) (by omega)
      simpa [Pdu.setBytes, Nat.add_assoc, Nat.add_comm 1 i] using this

@[simp] theorem Pdu.setWord_addr (p : Pdu) (j : Nat) (v : Word) : (p.setWord j v).addr = p.addr := rfl
@[simp] theorem Pdu.setWord_fc (p : Pdu) (j : Nat) (v : Word) : (p.setWord j v).fc = p.fc := rfl
@[simp] theorem Pdu.setWord_len (p : Pdu) (j : Nat) (v : Word) : (p.setWord j v).len = p.len := rfl

/-- A payload register after a big-endian word write (R67). -/
theorem Pdu.get_setWord (p : Pdu) {j : Nat} (v : Word) (i : Nat) (h : j + 1 < Config.payloadMax) :
    (p.setWord j v).get i = if i = j then hiByte v else if i = j + 1 then loByte v else p.get i := by
  rw [Pdu.setWord]
  by_cases h1 : i = j + 1
  · subst h1
    rw [Pdu.get_set_same _ _ h, if_neg (by omega), if_pos rfl]
  · rw [Pdu.get_set_other _ _ h1, if_neg h1]
    by_cases h0 : i = j
    · subst h0
      rw [Pdu.get_set_same _ _ (by omega), if_pos rfl]
    · rw [Pdu.get_set_other _ _ h0, if_neg h0]

/-- The payload of a bank, byte by byte. -/
theorem Pdu.payload_length (p : Pdu) {n : Nat} (h : n ≤ Config.payloadMax) : (p.payload n).length = n := by
  have hl := p.pl.property
  simp only [Pdu.payload, List.length_take, hl]
  omega

theorem Pdu.payload_getElem (p : Pdu) {n i : Nat} (h : i < (p.payload n).length) : (p.payload n)[i] = p.get i := by
  have hi : i < p.pl.val.length := by
    simp only [Pdu.payload, List.length_take] at h
    omega
  simp [Pdu.payload, Pdu.get, List.getD_eq_getElem?_getD, hi]

@[simp] theorem Pdu.load_addr (p : Pdu) (a f : Byte) (vs : List Byte) : (p.load a f vs).addr = a := by simp [Pdu.load]
@[simp] theorem Pdu.load_fc (p : Pdu) (a f : Byte) (vs : List Byte) : (p.load a f vs).fc = f := by simp [Pdu.load]
@[simp] theorem Pdu.load_len (p : Pdu) (a f : Byte) (vs : List Byte) :
    (p.load a f vs).len = BitVec.ofNat 8 vs.length := by simp [Pdu.load]

/-- What a decode leaves in the payload: the frame's bytes, and above them what was there (R46, R176). -/
theorem Pdu.get_load (p : Pdu) (a f : Byte) (vs : List Byte) {i : Nat} (hi : i < vs.length)
    (h : vs.length ≤ Config.payloadMax) : (p.load a f vs).get i = vs[i] := by
  simpa [Pdu.load] using Pdu.get_setBytes { p with addr := a, fc := f, len := BitVec.ofNat 8 vs.length } 0 vs hi (by omega)

theorem Pdu.get_load_stale (p : Pdu) (a f : Byte) (vs : List Byte) {i : Nat} (hi : vs.length ≤ i) :
    (p.load a f vs).get i = p.get i := by
  simpa [Pdu.load, Pdu.get] using Pdu.get_setBytes_other { p with addr := a, fc := f, len := BitVec.ofNat 8 vs.length } (j := 0) (i := i) vs
    (by omega)

/-- A bit of the big-endian word of two bytes (R12). -/
theorem getLsbD_be16 (h l : Byte) (i : Nat) :
    (be16 h l).getLsbD i = if i < 8 then l.getLsbD i else h.getLsbD (i - 8) :=
  BitVec.getLsbD_append

theorem getLsbD_hiByte (v : Word) (i : Nat) : (hiByte v).getLsbD i = (decide (i < 8) && v.getLsbD (8 + i)) :=
  BitVec.getLsbD_extractLsb' ..

theorem getLsbD_loByte (v : Word) (i : Nat) : (loByte v).getLsbD i = (decide (i < 8) && v.getLsbD i) := by
  rw [loByte, BitVec.getLsbD_extractLsb', Nat.zero_add]

/-- The word of a word's two bytes. -/
@[simp] theorem be16_hi_lo (v : Word) : be16 (hiByte v) (loByte v) = v := by
  apply BitVec.eq_of_getLsbD_eq
  intro i hi
  rw [getLsbD_be16, getLsbD_hiByte, getLsbD_loByte]
  split
  · next h => simp [h]
  · next h => simp [show i - 8 < 8 by omega, show 8 + (i - 8) = i by omega]

/-- The two bytes of the word of two bytes. -/
@[simp] theorem hiByte_be16 (h l : Byte) : hiByte (be16 h l) = h := by
  apply BitVec.eq_of_getLsbD_eq
  intro i hi
  rw [getLsbD_hiByte, getLsbD_be16]
  simp [hi]

@[simp] theorem loByte_be16 (h l : Byte) : loByte (be16 h l) = l := by
  apply BitVec.eq_of_getLsbD_eq
  intro i hi
  rw [getLsbD_loByte, getLsbD_be16]
  simp [hi]

/-- A word is its two bytes. -/
theorem word_eq_of_bytes {v w : Word} (hh : hiByte v = hiByte w) (hl : loByte v = loByte w) : v = w := by
  rw [← be16_hi_lo v, ← be16_hi_lo w, hh, hl]

end Sys2Proof.Machine
end

