-- ==== Sys2Proof/Laws/Checksum.lean ====
section
/-! SUPPORT. The CRC's step is linear over exclusive or and loses no information; the accumulators over appended lists. -/

namespace Sys2Proof.Machine

/-- One bit step without its case split (R132). -/
theorem crcBit_eq (c : Word) : crcBit c = (c >>> 1) ^^^ (if c.getLsbD 0 then Config.crcPoly else 0) := by
  unfold crcBit
  split <;> simp

/-- One bit step is linear (R132). -/
theorem crcBit_xor (a b : Word) : crcBit (a ^^^ b) = crcBit a ^^^ crcBit b := by
  rw [crcBit_eq, crcBit_eq, crcBit_eq, BitVec.ushiftRight_xor_distrib, BitVec.getLsbD_xor]
  generalize a >>> 1 = x, b >>> 1 = y, Config.crcPoly = z
  cases a.getLsbD 0 <;> cases b.getLsbD 0
  · simp
  · simp [BitVec.xor_assoc]
  · simpa using (BitVec.xor_assoc x y z).trans ((congrArg (x ^^^ ·) (BitVec.xor_comm y z)).trans (BitVec.xor_assoc x z y).symm)
  · have hz : x ^^^ z ^^^ (y ^^^ z) = x ^^^ y := by
      rw [BitVec.xor_comm y z, BitVec.xor_assoc, ← BitVec.xor_assoc z z y, BitVec.xor_self, BitVec.zero_xor]
    simp [hz]

/-- One bit step sends only 0 to 0: bit 15 tells whether the polynomial was applied (R132). -/
theorem eq_zero_of_crcBit {c : Word} (h : crcBit c = 0) : c = 0 := by
  have hbit : ∀ i, (crcBit c).getLsbD i = false := fun i => by rw [h]; simp
  have h15 := hbit 15
  rw [crcBit_eq, BitVec.getLsbD_xor, BitVec.getLsbD_ushiftRight, BitVec.getLsbD_of_ge c (1 + 15) (by omega)] at h15
  have h0 : c.getLsbD 0 = false := by
    cases hc : c.getLsbD 0 with
    | false => rfl
    | true =>
      rw [hc] at h15
      exact absurd h15 (by decide)
  apply BitVec.eq_of_getLsbD_eq
  intro i hi
  cases i with
  | zero => simpa using h0
  | succ i =>
    have hs := hbit i
    rw [crcBit_eq, h0, BitVec.getLsbD_xor, BitVec.getLsbD_ushiftRight] at hs
    simpa [Nat.add_comm] using hs

theorem crcBit_inj {a b : Word} (h : crcBit a = crcBit b) : a = b := by
  have : crcBit (a ^^^ b) = 0 := by rw [crcBit_xor, h, BitVec.xor_self]; rfl
  have hab := eq_zero_of_crcBit this
  have := congrArg (· ^^^ b) hab
  simpa [BitVec.xor_assoc] using this

theorem crcBits8_xor (a b : Word) : crcBits8 (a ^^^ b) = crcBits8 a ^^^ crcBits8 b := by
  simp only [crcBits8, crcBit_xor]

theorem crcBits8_inj {a b : Word} (h : crcBits8 a = crcBits8 b) : a = b :=
  crcBit_inj (crcBit_inj (crcBit_inj (crcBit_inj (crcBit_inj (crcBit_inj (crcBit_inj (crcBit_inj h)))))))

/-- A step on an even word is a shift. -/
theorem crcBit_even {c : Word} (h : c.getLsbD 0 = false) : crcBit c = c >>> 1 := by
  rw [crcBit_eq, h]
  simp

/-- Eight steps on a word whose low byte is 0 move its high byte down unchanged (R134, R136). -/
theorem crcBits8_high {c : Word} (h : ∀ i, i < 8 → c.getLsbD i = false) : crcBits8 c = c >>> 8 := by
  have step : ∀ k, k < 8 → crcBit (c >>> k) = c >>> (k + 1) := fun k hk => by
    rw [crcBit_even (by rw [BitVec.getLsbD_ushiftRight]; exact h _ (by omega)), ← BitVec.shiftRight_add]
  unfold crcBits8
  have h0 : crcBit c = c >>> 1 := crcBit_even (h 0 (by omega))
  rw [h0, step 1 (by omega), step 2 (by omega), step 3 (by omega), step 4 (by omega), step 5 (by omega),
    step 6 (by omega), step 7 (by omega)]

/-- Different accumulators stay different over the same byte. -/
theorem crcByte_inj_left {c c' : Word} {x : Byte} (h : crcByte c x = crcByte c' x) : c = c' := by
  have := congrArg (· ^^^ x.zeroExtend 16) (crcBits8_inj h)
  simpa [BitVec.xor_assoc] using this

/-- Different bytes give different accumulators. -/
theorem crcByte_inj_right {c : Word} {x x' : Byte} (h : crcByte c x = crcByte c x') : x = x' := by
  have h1 := congrArg (c ^^^ ·) (crcBits8_inj h)
  have h2 : x.zeroExtend 16 = x'.zeroExtend 16 := by simpa [← BitVec.xor_assoc] using h1
  apply BitVec.eq_of_getLsbD_eq
  intro i hi
  have := congrArg (BitVec.getLsbD · i) h2
  simp only [BitVec.truncate_eq_setWidth, BitVec.getLsbD_setWidth] at this
  simpa [show i < 16 by omega] using this

theorem crcAcc_append (c : Word) (d e : List Byte) : crcAcc c (d ++ e) = crcAcc (crcAcc c d) e := by
  induction d generalizing c with
  | nil => rfl
  | cons x d ih => exact ih (crcByte c x)

/-- Different accumulators stay different over the same bytes. -/
theorem crcAcc_inj {c c' : Word} (d : List Byte) (h : crcAcc c d = crcAcc c' d) : c = c' := by
  induction d generalizing c c' with
  | nil => exact h
  | cons x d ih => exact crcByte_inj_left (ih h)

/-- The result is the accumulator as it stands (R133). -/
theorem crc16_eq (d : List Byte) : crc16 d = crcAcc Config.crcInit d := by simp [crc16]

theorem lrcAcc_append (c : Byte) (d e : List Byte) : lrcAcc c (d ++ e) = lrcAcc (lrcAcc c d) e := by
  induction d generalizing c with
  | nil => rfl
  | cons x d ih => exact ih (c + x)

/-- The start of the sum can be taken out of it. -/
theorem lrcAcc_start (c : Byte) (d : List Byte) : lrcAcc c d = c + lrcAcc 0 d := by
  induction d generalizing c with
  | nil => simp [lrcAcc]
  | cons x d ih => rw [lrcAcc, lrcAcc, ih (c + x), ih (0 + x), ← BitVec.add_assoc, ← BitVec.add_assoc]; simp

end Sys2Proof.Machine
end

