-- ==== Sys2Proof/Laws/Memory.lean ====
section
/-! SUPPORT. The byte memories: a read after a write, and the canonical form that every memory operation keeps. -/

namespace Sys2Proof.Machine

/-- The canonical form, as a statement about head and tail. -/
theorem Memory.wf_cons (x : Nat) (b : Byte) (r : Memory) :
    Memory.wf ((x, b) :: r) = true ↔ b ≠ Memory.fill ∧ (∀ c ∈ r, x < c.1) ∧ Memory.wf r = true := by
  induction r generalizing x b with
  | nil => simp [Memory.wf]
  | cons c r ih =>
    obtain ⟨y, d⟩ := c
    have hy := ih y d
    simp only [Memory.wf, Bool.and_eq_true, bne_iff_ne, decide_eq_true_eq, List.mem_cons, forall_eq_or_imp]
    constructor
    · rintro ⟨⟨hb, hxy⟩, hr⟩
      exact ⟨hb, ⟨hxy, fun e he => Nat.lt_trans hxy ((hy.mp hr).2.1 e he)⟩, hr⟩
    · rintro ⟨hb, ⟨hxy, -⟩, hr⟩
      exact ⟨⟨hb, hxy⟩, hr⟩

/-- Below the first listed offset every offset reads as `fill`. -/
theorem Memory.read_eq_fill {m : Memory} {a : Nat} (h : ∀ c ∈ m, a < c.1) : Memory.read m a = Memory.fill := by
  induction m with
  | nil => rfl
  | cons c r ih =>
    obtain ⟨x, b⟩ := c
    have hx : a < x := h (x, b) (by simp)
    simp only [Memory.read, if_neg (Nat.ne_of_gt hx)]
    exact ih fun e he => h e (by simp [he])

/-- Reading the offset just written. -/
theorem Memory.read_write_same {m : Memory} (hm : Memory.wf m = true) (a : Nat) (v : Byte) :
    Memory.read (Memory.write m a v) a = v := by
  induction m with
  | nil =>
    unfold Memory.write
    split
    · next hv => rw [hv]; rfl
    · simp [Memory.read]
  | cons c r ih =>
    obtain ⟨x, b⟩ := c
    obtain ⟨-, hlt, hr⟩ := (Memory.wf_cons x b r).mp hm
    unfold Memory.write
    split
    · next h => simp [Memory.read, Nat.ne_of_lt h, ih hr]
    · split
      · next h =>
        subst h
        split
        · next hv => rw [Memory.read_eq_fill hlt, hv]
        · simp [Memory.read]
      · next h1 h2 =>
        have hax : a < x := by omega
        split
        · next hv =>
          rw [Memory.read_eq_fill, hv]
          intro e he
          rcases List.mem_cons.mp he with rfl | he
          · exact hax
          · exact Nat.lt_trans hax (hlt e he)
        · simp [Memory.read]

/-- Reading any other offset. -/
theorem Memory.read_write_other (m : Memory) {a a' : Nat} (v : Byte) (h : a' ≠ a) :
    Memory.read (Memory.write m a v) a' = Memory.read m a' := by
  induction m with
  | nil =>
    unfold Memory.write
    split
    · rfl
    · simp [Memory.read, Ne.symm h]
  | cons c r ih =>
    obtain ⟨x, b⟩ := c
    unfold Memory.write
    split
    · simp only [Memory.read, ih]
    · split
      · next hx =>
        subst hx
        split <;> simp [Memory.read, Ne.symm h]
      · split <;> simp [Memory.read, Ne.symm h]

/-- The offsets a write lists are those listed before and the one written. -/
theorem Memory.mem_write {m : Memory} {a : Nat} {v : Byte} {c : Host.Cell} (hc : c ∈ Memory.write m a v) :
    c ∈ m ∨ c.1 = a := by
  induction m with
  | nil =>
    unfold Memory.write at hc
    split at hc <;> simp_all
  | cons d r ih =>
    obtain ⟨x, b⟩ := d
    unfold Memory.write at hc
    split at hc
    · rcases List.mem_cons.mp hc with rfl | hc
      · exact .inl (by simp)
      · exact (ih hc).imp (by simp_all) id
    · split at hc
      · split at hc
        · exact .inl (by simp [hc])
        · rcases List.mem_cons.mp hc with rfl | hc
          · exact .inr rfl
          · exact .inl (by simp [hc])
      · split at hc
        · exact .inl hc
        · rcases List.mem_cons.mp hc with rfl | hc
          · exact .inr rfl
          · exact .inl hc

/-- A write keeps the canonical form. -/
theorem Memory.write_wf {m : Memory} (hm : Memory.wf m = true) (a : Nat) (v : Byte) :
    Memory.wf (Memory.write m a v) = true := by
  induction m with
  | nil =>
    unfold Memory.write
    split
    · rfl
    · next hv => simpa [Memory.wf] using hv
  | cons c r ih =>
    obtain ⟨x, b⟩ := c
    obtain ⟨hb, hlt, hr⟩ := (Memory.wf_cons x b r).mp hm
    unfold Memory.write
    split
    · next h =>
      refine (Memory.wf_cons _ _ _).mpr ⟨hb, fun e he => ?_, ih hr⟩
      rcases Memory.mem_write he with he | he
      · exact hlt e he
      · omega
    · split
      · next h =>
        subst h
        split
        · exact hr
        · next hv => exact (Memory.wf_cons _ _ _).mpr ⟨hv, hlt, hr⟩
      · next h1 h2 =>
        split
        · exact hm
        · next hv =>
          refine (Memory.wf_cons _ _ _).mpr ⟨hv, fun e he => ?_, hm⟩
          rcases List.mem_cons.mp he with rfl | he
          · simp only; omega
          · have := hlt e he; omega

/-- A block write keeps the canonical form. -/
theorem Memory.writeBytes_wf {m : Memory} (hm : Memory.wf m = true) (a : Nat) (vs : List Byte) :
    Memory.wf (Memory.writeBytes m a vs) = true := by
  induction vs generalizing m a with
  | nil => exact hm
  | cons v vs ih => exact ih (Memory.write_wf hm a v) (a + 1)

/-- A block write leaves every offset outside the block alone. -/
theorem Memory.read_writeBytes_other (m : Memory) {a a' : Nat} (vs : List Byte) (h : a' < a ∨ a + vs.length ≤ a') :
    Memory.read (Memory.writeBytes m a vs) a' = Memory.read m a' := by
  induction vs generalizing m a with
  | nil => rfl
  | cons v vs ih =>
    simp only [List.length_cons] at h
    rw [Memory.writeBytes, ih _ (by omega), Memory.read_write_other _ _ (by omega)]

/-- Offset `a + i` reads the `i`-th byte of the block just written. -/
theorem Memory.read_writeBytes {m : Memory} (hm : Memory.wf m = true) (a : Nat) (vs : List Byte) {i : Nat}
    (hi : i < vs.length) : Memory.read (Memory.writeBytes m a vs) (a + i) = vs[i] := by
  induction vs generalizing m a i with
  | nil => exact absurd hi (by simp)
  | cons v vs ih =>
    cases i with
    | zero =>
      rw [Memory.writeBytes, Memory.read_writeBytes_other _ _ (by omega)]
      simpa using Memory.read_write_same hm a v
    | succ i =>
      have := ih (Memory.write_wf hm a v) (a + 1) (i := i) (by simpa using hi)
      simpa [Memory.writeBytes, Nat.add_assoc, Nat.add_comm 1 i] using this

@[simp] theorem Memory.readBytes_length (m : Memory) (a n : Nat) : (Memory.readBytes m a n).length = n := by
  induction n generalizing a with
  | zero => rfl
  | succ n ih => simp [Memory.readBytes, ih]

/-- The `i`-th byte of a block read. -/
theorem Memory.readBytes_getElem (m : Memory) (a n : Nat) {i : Nat} (hi : i < (Memory.readBytes m a n).length) :
    (Memory.readBytes m a n)[i] = Memory.read m (a + i) := by
  induction n generalizing a i with
  | zero => exact absurd hi (by simp [Memory.readBytes])
  | succ n ih =>
    cases i with
    | zero => rfl
    | succ i =>
      have := ih (a + 1) (i := i) (by simpa using hi)
      simpa [Memory.readBytes, Nat.add_assoc, Nat.add_comm 1 i] using this

/-- A block read of what a block write put there. -/
theorem Memory.readBytes_writeBytes {m : Memory} (hm : Memory.wf m = true) (a : Nat) (vs : List Byte) {j n : Nat}
    (h : j + n ≤ vs.length) :
    Memory.readBytes (Memory.writeBytes m a vs) (a + j) n = (vs.drop j).take n := by
  apply List.ext_getElem
  · simp; omega
  · intro i h1 h2
    rw [Memory.readBytes_getElem, Nat.add_assoc, Memory.read_writeBytes hm a vs (by simp at h1; omega)]
    simp

end Sys2Proof.Machine
end

