-- ==== Sys2Proof/Laws/Codecs.lean ====
section
/-! SUPPORT. Hexadecimal rendering and its inverse, and the shapes of the two frames. -/

namespace Sys2Proof.Machine

/-- `hexval` undoes `hexdigit` (R110). -/
theorem hexVal_hexDigit (x : BitVec 4) : hexVal (hexDigit x) = some x := by
  revert x; decide

/-- A character that is a digit is the digit of its value (R110). -/
theorem hexDigit_hexVal {c : Byte} {x : BitVec 4} (h : hexVal c = some x) : hexDigit x = c := by
  revert c x; decide +kernel

/-- The two nibbles of a byte make the byte (R110). -/
theorem nibbles_append (x : Byte) : x.extractLsb' 4 4 ++ x.extractLsb' 0 4 = x := by
  revert x; decide +kernel

@[simp] theorem hexBytes_length (d : List Byte) : (hexBytes d).length = 2 * d.length := by
  induction d with
  | nil => rfl
  | cons x d ih => rw [hexBytes, List.length_append, ih, List.length_cons]; simp [hexByte]; omega

/-- The digit pairs of a row of bytes parse back to the bytes (R202). -/
theorem unhexBytes_hexBytes (d : List Byte) : unhexBytes (hexBytes d) = some d := by
  induction d with
  | nil => rfl
  | cons x d ih =>
    simp only [hexBytes, hexByte, List.cons_append, List.nil_append, unhexBytes, hexVal_hexDigit, ih]
    exact congrArg (fun y => some (y :: d)) (nibbles_append x)

/-- The high nibble of two nibbles side by side, and the low one. -/
theorem highNibble_append (h l : BitVec 4) : (h ++ l : Byte).extractLsb' 4 4 = h := by
  revert h l; decide +kernel

theorem lowNibble_append (h l : BitVec 4) : (h ++ l : Byte).extractLsb' 0 4 = l := by
  revert h l; decide +kernel

/-- A row that parses is the rendering of what it parses to (R198). -/
theorem hexBytes_unhexBytes : ∀ {l d : List Byte}, unhexBytes l = some d → hexBytes d = l
  | [], d, h => by
    simp only [unhexBytes, Option.some.injEq] at h
    rw [← h]
    rfl
  | [_], d, h => absurd h (by simp [unhexBytes])
  | c0 :: c1 :: rest, d, h => by
    simp only [unhexBytes] at h
    split at h
    · next hi lo bs h0 h1 hr =>
      simp only [Option.some.injEq] at h
      subst h
      rw [hexBytes, hexByte, highNibble_append, lowNibble_append, hexDigit_hexVal h0, hexDigit_hexVal h1,
        hexBytes_unhexBytes hr]
      rfl
    · exact absurd h (by simp)

/-- A row that parses has two characters for each byte. -/
theorem unhexBytes_length {l d : List Byte} (h : unhexBytes l = some d) : l.length = 2 * d.length := by
  rw [← hexBytes_unhexBytes h, hexBytes_length]

/-- `bytes(B)` has two bytes more than the payload (R16). -/
theorem Pdu.bytes_length (p : Pdu) (h : p.len.toNat ≤ Config.payloadMax) : p.bytes.length = p.len.toNat + 2 := by
  simp [Pdu.bytes, Pdu.payload_length p h]

/-- The length of an RTU frame (R92). -/
theorem rtuFrame_length (p : Pdu) (h : p.len.toNat ≤ Config.payloadMax) :
    (rtuFrame p).length = p.len.toNat + Config.rtuOverhead := by
  simp only [rtuFrame, List.length_append, Pdu.bytes_length p h, List.length_cons, List.length_nil, Config.rtuOverhead]

/-- The length of an ASCII frame (R93). -/
theorem ascFrame_length (p : Pdu) (h : p.len.toNat ≤ Config.payloadMax) :
    (ascFrame p).length = 2 * p.len.toNat + Config.ascOverhead := by
  simp only [ascFrame, List.length_append, Pdu.bytes_length p h, List.length_cons, List.length_nil, hexBytes_length,
    Config.ascOverhead]
  omega

end Sys2Proof.Machine
end

