-- ==== Sys2Proof/Laws/RegisterBuffer.lean ====
section
/-! SUPPORT. The Register Buffer: the resolver finds the first datapoint that contains the address, the offset lies in its
store, and a slot reads back what was written to it. -/

namespace Sys2Proof.Machine

/-- The resolver finds nothing exactly when no datapoint contains the address (R150, R152). -/
theorem resolveFrom_eq_none (k : Nat) (ds : List Datapoint) (a : Word) :
    resolveFrom k ds a = none ↔ ∀ d ∈ ds, dpContains d a = false := by
  induction ds generalizing k with
  | nil => simp [resolveFrom]
  | cons d ds ih =>
    cases hd : dpContains d a <;> simp [resolveFrom, hd, ih]

/-- What the resolver finds is the first datapoint that contains the address, with its index (R150). -/
theorem resolveFrom_eq_some {k : Nat} {ds : List Datapoint} {a : Word} {j : Nat} {d : Datapoint} :
    resolveFrom k ds a = some (j, d) ↔
      ∃ pre post, ds = pre ++ d :: post ∧ j = k + pre.length ∧ dpContains d a = true ∧
        ∀ d' ∈ pre, dpContains d' a = false := by
  induction ds generalizing k with
  | nil => simp [resolveFrom]
  | cons e ds ih =>
    cases he : dpContains e a with
    | true =>
      simp only [resolveFrom, he, if_true, Option.some.injEq, Prod.mk.injEq]
      constructor
      · rintro ⟨rfl, rfl⟩
        exact ⟨[], ds, by simp [he]⟩
      · rintro ⟨pre, post, hds, hj, hd, hpre⟩
        cases pre with
        | nil =>
          simp only [List.nil_append, List.cons.injEq] at hds
          simp [hj, hds.1]
        | cons p pre =>
          simp only [List.cons_append, List.cons.injEq] at hds
          have := hpre p (by simp)
          rw [← hds.1, he] at this
          exact absurd this (by simp)
    | false =>
      simp only [resolveFrom, he, Bool.false_eq_true, if_false, ih]
      constructor
      · rintro ⟨pre, post, rfl, rfl, hd, hpre⟩
        refine ⟨e :: pre, post, rfl, by rw [List.length_cons]; omega, hd, ?_⟩
        simp only [List.mem_cons, forall_eq_or_imp]
        exact ⟨he, hpre⟩
      · rintro ⟨pre, post, hds, hj, hd, hpre⟩
        cases pre with
        | nil =>
          simp only [List.nil_append, List.cons.injEq] at hds
          rw [← hds.1, he] at hd
          exact absurd hd (by simp)
        | cons p pre =>
          simp only [List.cons_append, List.cons.injEq] at hds
          exact ⟨pre, post, hds.2, by simp [hj]; omega, hd, fun d' h => hpre d' (by simp [h])⟩

/-- An entry of a well-formed table has an even size and names its own memory (R358). -/
theorem dpsWf_get {k : Nat} {ds : List Datapoint} (h : dpsWf k ds = true) {j : Nat} {d : Datapoint}
    (hd : ds[j]? = some d) : d.size.toNat % 2 = 0 ∧ d.store = k + j := by
  induction ds generalizing k j with
  | nil => simp at hd
  | cons e ds ih =>
    simp only [dpsWf, Bool.and_eq_true, beq_iff_eq] at h
    cases j with
    | zero =>
      simp only [List.getElem?_cons_zero, Option.some.injEq] at hd
      exact hd ▸ ⟨h.1.1, by simpa using h.1.2⟩
    | succ j =>
      have := ih h.2 (by simpa using hd)
      exact ⟨this.1, by omega⟩

/-- What the checks of R162 can answer. -/
theorem locate_cases (c : ConfigRecord) (dir : Dir) (a : Word) :
    (resolve c a = none ∧ locate c dir a = .fails exIllegalDataAddress) ∨
    (∃ k d, resolve c a = some (k, d) ∧ modeCheck dir d.mode = exOk ∧ locate c dir a = .hit k (dpOffset d a)) ∨
    (∃ k d, resolve c a = some (k, d) ∧ modeCheck dir d.mode ≠ exOk ∧
      locate c dir a = .fails (modeCheck dir d.mode)) := by
  unfold locate
  cases h : resolve c a with
  | none => exact .inl ⟨rfl, rfl⟩
  | some kd =>
    obtain ⟨k, d⟩ := kd
    by_cases hm : modeCheck dir d.mode = exOk
    · exact .inr (.inl ⟨k, d, rfl, hm, if_pos hm⟩)
    · exact .inr (.inr ⟨k, d, rfl, hm, if_neg hm⟩)

/-- A mode lets an access pass or fails it with 0x02 or 0x04 (R153). -/
theorem modeCheck_cases (dir : Dir) (mode : BitVec 2) :
    modeCheck dir mode = exOk ∨ modeCheck dir mode = exIllegalDataAddress ∨
      modeCheck dir mode = exSlaveDeviceFailure := by
  unfold modeCheck
  split
  · exact .inr (.inr rfl)
  · cases dir <;> (dsimp only; split <;> simp)

/-- A failing access fails with 0x02 or 0x04, never with success (R162). -/
theorem locate_fails {c : ConfigRecord} {dir : Dir} {a : Word} {e : Byte} (h : locate c dir a = .fails e) :
    e = exIllegalDataAddress ∨ e = exSlaveDeviceFailure := by
  rcases locate_cases c dir a with ⟨-, h'⟩ | ⟨k, d, -, -, h'⟩ | ⟨k, d, -, hm, h'⟩
  · rw [h'] at h; injection h with h; exact .inl h.symm
  · rw [h'] at h; exact nomatch h
  · rw [h'] at h
    injection h with h
    rcases modeCheck_cases dir d.mode with hc | hc | hc
    · exact absurd hc hm
    · exact .inl (h ▸ hc)
    · exact .inr (h ▸ hc)

/-- A passing access goes to a slot of the datapoint found: the datapoint of index `k` contains the address, and the
offset is that of R154. -/
theorem locate_hit {c : ConfigRecord} {dir : Dir} {a : Word} {k off : Nat} (h : locate c dir a = .hit k off) :
    ∃ d, c.dps[k]? = some d ∧ dpContains d a = true ∧ off = dpOffset d a ∧ resolve c a = some (k, d) := by
  rcases locate_cases c dir a with ⟨-, h'⟩ | ⟨k', d, hr, -, h'⟩ | ⟨k', d, -, -, h'⟩
  · rw [h'] at h; exact nomatch h
  · rw [h'] at h
    injection h with h1 h2
    subst h1
    obtain ⟨pre, post, hds, hj, hd, -⟩ := resolveFrom_eq_some.mp hr
    refine ⟨d, ?_, hd, h2.symm, hr⟩
    rw [hds, hj]
    simp
  · rw [h'] at h; exact nomatch h

/-- The offset of a slot is even and the slot lies inside the store (R65, R154). -/
theorem dpOffset_bounds {d : Datapoint} {a : Word} (hd : dpContains d a = true) (he : d.size.toNat % 2 = 0) :
    dpOffset d a % 2 = 0 ∧ dpOffset d a + 2 ≤ d.size.toNat := by
  simp only [dpContains, Bool.and_eq_true, decide_eq_true_eq] at hd
  unfold dpOffset
  omega

/-- Different keys: another store, or another offset. -/
theorem storeKey_inj {k k' off off' : Nat} (ho : off < 2 ^ 32) (ho' : off' < 2 ^ 32)
    (h : storeKey k off = storeKey k' off') : k = k' ∧ off = off' := by
  unfold storeKey at h
  omega

theorem storeKey_succ_ne (k off : Nat) : storeKey k (off + 1) ≠ storeKey k off := by
  unfold storeKey
  omega

/-- Writing a slot keeps the canonical form. -/
theorem writeSlot_wf {ds : Memory} (h : Memory.wf ds = true) (k off : Nat) (v : Word) :
    Memory.wf (writeSlot ds k off v) = true :=
  Memory.write_wf (Memory.write_wf h _ _) _ _

/-- A slot reads back what was written to it (R157). -/
theorem readSlot_writeSlot {ds : Memory} (h : Memory.wf ds = true) (k off : Nat) (v : Word) :
    readSlot (writeSlot ds k off v) k off = v := by
  rw [readSlot, writeSlot, Memory.read_write_same (Memory.write_wf h _ _),
    Memory.read_write_other _ _ (storeKey_succ_ne k off).symm, Memory.read_write_same h, be16_hi_lo]

/-- Writing a slot leaves every byte outside it alone (R156). -/
theorem read_writeSlot_other (ds : Memory) {k off key : Nat} (v : Word) (h0 : key ≠ storeKey k off)
    (h1 : key ≠ storeKey k (off + 1)) : Memory.read (writeSlot ds k off v) key = Memory.read ds key := by
  rw [writeSlot, Memory.read_write_other _ _ h1, Memory.read_write_other _ _ h0]

end Sys2Proof.Machine
end

