-- ==== Sys2Proof/Laws/State.lean ====
section
/-! SUPPORT. One lemma per field per update of the state, so that no later proof unfolds a record update. -/

namespace Sys2Proof.Machine

/-! `complete` -/

@[simp] theorem State.complete_req (s : State) (r : Result) : (s.complete r).req = s.req := rfl
@[simp] theorem State.complete_rsp (s : State) (r : Result) : (s.complete r).rsp = s.rsp := rfl
@[simp] theorem State.complete_halt (s : State) (r : Result) : (s.complete r).halt = s.halt := rfl
@[simp] theorem State.complete_fcause (s : State) (r : Result) : (s.complete r).fcause = s.fcause := rfl
@[simp] theorem State.complete_cfg (s : State) (r : Result) : (s.complete r).cfg = s.cfg := rfl
@[simp] theorem State.complete_xb (s : State) (r : Result) : (s.complete r).xb = s.xb := rfl
@[simp] theorem State.complete_ds (s : State) (r : Result) : (s.complete r).ds = s.ds := rfl
@[simp] theorem State.complete_inbox (s : State) (r : Result) : (s.complete r).inbox = s.inbox := rfl
@[simp] theorem State.complete_out (s : State) (r : Result) : (s.complete r).out = .completed r := rfl
@[simp] theorem State.complete_calls (s : State) (r : Result) : (s.complete r).calls = s.calls := rfl
@[simp] theorem State.complete_appReads (s : State) (r : Result) : (s.complete r).appReads = s.appReads := rfl
@[simp] theorem State.complete_appWrites (s : State) (r : Result) : (s.complete r).appWrites = s.appWrites := rfl
@[simp] theorem State.complete_appGenerics (s : State) (r : Result) : (s.complete r).appGenerics = s.appGenerics := rfl
@[simp] theorem State.complete_free (s : State) (r : Result) : (s.complete r).free = s.free := rfl
@[simp] theorem State.complete_stuck (s : State) (r : Result) : (s.complete r).stuck = s.stuck := rfl

/-! `refuse` -/

@[simp] theorem State.refuse_req (s : State) : (s.refuse).req = s.req := rfl
@[simp] theorem State.refuse_rsp (s : State) : (s.refuse).rsp = s.rsp := rfl
@[simp] theorem State.refuse_halt (s : State) : (s.refuse).halt = s.halt := rfl
@[simp] theorem State.refuse_fcause (s : State) : (s.refuse).fcause = s.fcause := rfl
@[simp] theorem State.refuse_cfg (s : State) : (s.refuse).cfg = s.cfg := rfl
@[simp] theorem State.refuse_xb (s : State) : (s.refuse).xb = s.xb := rfl
@[simp] theorem State.refuse_ds (s : State) : (s.refuse).ds = s.ds := rfl
@[simp] theorem State.refuse_inbox (s : State) : (s.refuse).inbox = s.inbox := rfl
@[simp] theorem State.refuse_out (s : State) : (s.refuse).out = .refused := rfl
@[simp] theorem State.refuse_calls (s : State) : (s.refuse).calls = s.calls := rfl
@[simp] theorem State.refuse_appReads (s : State) : (s.refuse).appReads = s.appReads := rfl
@[simp] theorem State.refuse_appWrites (s : State) : (s.refuse).appWrites = s.appWrites := rfl
@[simp] theorem State.refuse_appGenerics (s : State) : (s.refuse).appGenerics = s.appGenerics := rfl
@[simp] theorem State.refuse_free (s : State) : (s.refuse).free = s.free := rfl
@[simp] theorem State.refuse_stuck (s : State) : (s.refuse).stuck = s.stuck := rfl

/-! `raiseFatal` -/

@[simp] theorem State.raiseFatal_req (s : State) (c : BitVec 4) : (s.raiseFatal c).req = s.req := rfl
@[simp] theorem State.raiseFatal_rsp (s : State) (c : BitVec 4) : (s.raiseFatal c).rsp = s.rsp := rfl
@[simp] theorem State.raiseFatal_halt (s : State) (c : BitVec 4) : (s.raiseFatal c).halt = true := rfl
@[simp] theorem State.raiseFatal_fcause (s : State) (c : BitVec 4) : (s.raiseFatal c).fcause = c := rfl
@[simp] theorem State.raiseFatal_cfg (s : State) (c : BitVec 4) : (s.raiseFatal c).cfg = s.cfg := rfl
@[simp] theorem State.raiseFatal_xb (s : State) (c : BitVec 4) : (s.raiseFatal c).xb = s.xb := rfl
@[simp] theorem State.raiseFatal_ds (s : State) (c : BitVec 4) : (s.raiseFatal c).ds = s.ds := rfl
@[simp] theorem State.raiseFatal_inbox (s : State) (c : BitVec 4) : (s.raiseFatal c).inbox = s.inbox := rfl
@[simp] theorem State.raiseFatal_out (s : State) (c : BitVec 4) : (s.raiseFatal c).out = .faulted c := rfl
@[simp] theorem State.raiseFatal_calls (s : State) (c : BitVec 4) : (s.raiseFatal c).calls = s.calls ++ [Call.faultHook c] := rfl
@[simp] theorem State.raiseFatal_appReads (s : State) (c : BitVec 4) : (s.raiseFatal c).appReads = s.appReads := rfl
@[simp] theorem State.raiseFatal_appWrites (s : State) (c : BitVec 4) : (s.raiseFatal c).appWrites = s.appWrites := rfl
@[simp] theorem State.raiseFatal_appGenerics (s : State) (c : BitVec 4) : (s.raiseFatal c).appGenerics = s.appGenerics := rfl
@[simp] theorem State.raiseFatal_free (s : State) (c : BitVec 4) : (s.raiseFatal c).free = s.free := rfl
@[simp] theorem State.raiseFatal_stuck (s : State) (c : BitVec 4) : (s.raiseFatal c).stuck = s.stuck := rfl

/-! `construct` -/

@[simp] theorem State.construct_req (s : State) (c : ConfigRecord) : (s.construct c).req = Pdu.reset := rfl
@[simp] theorem State.construct_rsp (s : State) (c : ConfigRecord) : (s.construct c).rsp = Pdu.reset := rfl
@[simp] theorem State.construct_halt (s : State) (c : ConfigRecord) : (s.construct c).halt = false := rfl
@[simp] theorem State.construct_fcause (s : State) (c : ConfigRecord) : (s.construct c).fcause = 0 := rfl
@[simp] theorem State.construct_cfg (s : State) (c : ConfigRecord) : (s.construct c).cfg = c := rfl
@[simp] theorem State.construct_xb (s : State) (c : ConfigRecord) : (s.construct c).xb = s.xb := rfl
@[simp] theorem State.construct_ds (s : State) (c : ConfigRecord) : (s.construct c).ds = s.ds := rfl
@[simp] theorem State.construct_inbox (s : State) (c : ConfigRecord) : (s.construct c).inbox = s.inbox := rfl
@[simp] theorem State.construct_out (s : State) (c : ConfigRecord) : (s.construct c).out = .idle := rfl
@[simp] theorem State.construct_calls (s : State) (c : ConfigRecord) : (s.construct c).calls = s.calls := rfl
@[simp] theorem State.construct_appReads (s : State) (c : ConfigRecord) : (s.construct c).appReads = s.appReads := rfl
@[simp] theorem State.construct_appWrites (s : State) (c : ConfigRecord) : (s.construct c).appWrites = s.appWrites := rfl
@[simp] theorem State.construct_appGenerics (s : State) (c : ConfigRecord) : (s.construct c).appGenerics = s.appGenerics := rfl
@[simp] theorem State.construct_free (s : State) (c : ConfigRecord) : (s.construct c).free = s.free := rfl
@[simp] theorem State.construct_stuck (s : State) (c : ConfigRecord) : (s.construct c).stuck = s.stuck := rfl

/-! `exceptionResponse` -/

@[simp] theorem State.exceptionResponse_req (s : State) (e : Byte) : (s.exceptionResponse e).req = s.req := rfl
@[simp] theorem State.exceptionResponse_rsp (s : State) (e : Byte) : (s.exceptionResponse e).rsp = ({ s.rsp with fc := s.req.fc ||| 0x80, len := 1 } : Pdu).set 0 e := rfl
@[simp] theorem State.exceptionResponse_halt (s : State) (e : Byte) : (s.exceptionResponse e).halt = s.halt := rfl
@[simp] theorem State.exceptionResponse_fcause (s : State) (e : Byte) : (s.exceptionResponse e).fcause = s.fcause := rfl
@[simp] theorem State.exceptionResponse_cfg (s : State) (e : Byte) : (s.exceptionResponse e).cfg = s.cfg := rfl
@[simp] theorem State.exceptionResponse_xb (s : State) (e : Byte) : (s.exceptionResponse e).xb = s.xb := rfl
@[simp] theorem State.exceptionResponse_ds (s : State) (e : Byte) : (s.exceptionResponse e).ds = s.ds := rfl
@[simp] theorem State.exceptionResponse_inbox (s : State) (e : Byte) : (s.exceptionResponse e).inbox = s.inbox := rfl
@[simp] theorem State.exceptionResponse_out (s : State) (e : Byte) : (s.exceptionResponse e).out = s.out := rfl
@[simp] theorem State.exceptionResponse_calls (s : State) (e : Byte) : (s.exceptionResponse e).calls = s.calls := rfl
@[simp] theorem State.exceptionResponse_appReads (s : State) (e : Byte) : (s.exceptionResponse e).appReads = s.appReads := rfl
@[simp] theorem State.exceptionResponse_appWrites (s : State) (e : Byte) : (s.exceptionResponse e).appWrites = s.appWrites := rfl
@[simp] theorem State.exceptionResponse_appGenerics (s : State) (e : Byte) : (s.exceptionResponse e).appGenerics = s.appGenerics := rfl
@[simp] theorem State.exceptionResponse_free (s : State) (e : Byte) : (s.exceptionResponse e).free = s.free := rfl
@[simp] theorem State.exceptionResponse_stuck (s : State) (e : Byte) : (s.exceptionResponse e).stuck = s.stuck := rfl

/-! `echoResponse` -/

@[simp] theorem State.echoResponse_req (s : State) : (s.echoResponse).req = s.req := rfl
@[simp] theorem State.echoResponse_rsp (s : State) : (s.echoResponse).rsp = ({ s.rsp with len := 4 } : Pdu).setBytes 0 [s.req.get 0, s.req.get 1, s.req.get 2, s.req.get 3] := rfl
@[simp] theorem State.echoResponse_halt (s : State) : (s.echoResponse).halt = s.halt := rfl
@[simp] theorem State.echoResponse_fcause (s : State) : (s.echoResponse).fcause = s.fcause := rfl
@[simp] theorem State.echoResponse_cfg (s : State) : (s.echoResponse).cfg = s.cfg := rfl
@[simp] theorem State.echoResponse_xb (s : State) : (s.echoResponse).xb = s.xb := rfl
@[simp] theorem State.echoResponse_ds (s : State) : (s.echoResponse).ds = s.ds := rfl
@[simp] theorem State.echoResponse_inbox (s : State) : (s.echoResponse).inbox = s.inbox := rfl
@[simp] theorem State.echoResponse_out (s : State) : (s.echoResponse).out = s.out := rfl
@[simp] theorem State.echoResponse_calls (s : State) : (s.echoResponse).calls = s.calls := rfl
@[simp] theorem State.echoResponse_appReads (s : State) : (s.echoResponse).appReads = s.appReads := rfl
@[simp] theorem State.echoResponse_appWrites (s : State) : (s.echoResponse).appWrites = s.appWrites := rfl
@[simp] theorem State.echoResponse_appGenerics (s : State) : (s.echoResponse).appGenerics = s.appGenerics := rfl
@[simp] theorem State.echoResponse_free (s : State) : (s.echoResponse).free = s.free := rfl
@[simp] theorem State.echoResponse_stuck (s : State) : (s.echoResponse).stuck = s.stuck := rfl

/-! `setBank` -/

@[simp] theorem State.setBank_halt (s : State) (b : Bank) (p : Pdu) : (s.setBank b p).halt = s.halt := by cases b <;> rfl
@[simp] theorem State.setBank_fcause (s : State) (b : Bank) (p : Pdu) : (s.setBank b p).fcause = s.fcause := by cases b <;> rfl
@[simp] theorem State.setBank_cfg (s : State) (b : Bank) (p : Pdu) : (s.setBank b p).cfg = s.cfg := by cases b <;> rfl
@[simp] theorem State.setBank_xb (s : State) (b : Bank) (p : Pdu) : (s.setBank b p).xb = s.xb := by cases b <;> rfl
@[simp] theorem State.setBank_ds (s : State) (b : Bank) (p : Pdu) : (s.setBank b p).ds = s.ds := by cases b <;> rfl
@[simp] theorem State.setBank_inbox (s : State) (b : Bank) (p : Pdu) : (s.setBank b p).inbox = s.inbox := by cases b <;> rfl
@[simp] theorem State.setBank_out (s : State) (b : Bank) (p : Pdu) : (s.setBank b p).out = s.out := by cases b <;> rfl
@[simp] theorem State.setBank_calls (s : State) (b : Bank) (p : Pdu) : (s.setBank b p).calls = s.calls := by cases b <;> rfl
@[simp] theorem State.setBank_appReads (s : State) (b : Bank) (p : Pdu) : (s.setBank b p).appReads = s.appReads := by cases b <;> rfl
@[simp] theorem State.setBank_appWrites (s : State) (b : Bank) (p : Pdu) : (s.setBank b p).appWrites = s.appWrites := by cases b <;> rfl
@[simp] theorem State.setBank_appGenerics (s : State) (b : Bank) (p : Pdu) : (s.setBank b p).appGenerics = s.appGenerics := by cases b <;> rfl
@[simp] theorem State.setBank_free (s : State) (b : Bank) (p : Pdu) : (s.setBank b p).free = s.free := by cases b <;> rfl
@[simp] theorem State.setBank_stuck (s : State) (b : Bank) (p : Pdu) : (s.setBank b p).stuck = s.stuck := by cases b <;> rfl

@[simp] theorem State.bank_setBank (s : State) (b : Bank) (p : Pdu) : (s.setBank b p).bank b = p := by cases b <;> rfl
@[simp] theorem State.bank_complete (s : State) (b : Bank) (r : Result) : (s.complete r).bank b = s.bank b := by
  cases b <;> rfl
theorem State.bank_setBank_other (s : State) {b b' : Bank} (p : Pdu) (h : b' ≠ b) :
    (s.setBank b p).bank b' = s.bank b' := by
  cases b <;> cases b' <;> first | rfl | exact absurd rfl h

/-! The exception response, register by register (R231) -/

@[simp] theorem State.exceptionResponse_addr (s : State) (e : Byte) : (s.exceptionResponse e).rsp.addr = s.rsp.addr := rfl
@[simp] theorem State.exceptionResponse_fc (s : State) (e : Byte) :
    (s.exceptionResponse e).rsp.fc = s.req.fc ||| 0x80 := rfl
@[simp] theorem State.exceptionResponse_len (s : State) (e : Byte) : (s.exceptionResponse e).rsp.len = 1 := rfl

/-! How an operation begins -/

/-- An operation that runs is its body (R331, R352). -/
theorem issue_ready {s : State} (h : s.Ready) (body : State → StepOut) : issue s body = body s := by
  simp [issue, h.cfg, h.running]

/-- Everything `issue` can answer. -/
theorem issue_cases (s : State) (body : State → StepOut) :
    (cfgWf s.cfg = false ∧ issue s body = .refused .illFormedConfiguration) ∨
    (cfgWf s.cfg = true ∧ s.halt = true ∧ issue s body = .next s.refuse) ∨
    (s.Ready ∧ issue s body = body s) := by
  unfold issue
  cases hc : cfgWf s.cfg with
  | false => exact .inl ⟨rfl, rfl⟩
  | true =>
    cases hh : s.halt with
    | true => exact .inr (.inl ⟨rfl, rfl, rfl⟩)
    | false => exact .inr (.inr ⟨⟨hc, hh⟩, rfl⟩)

/-- The state `PROCESS` hands to the family: address and function code are copied (R222). -/
def State.copied (s : State) : State := { s with rsp := { s.rsp with addr := s.req.addr, fc := s.req.fc } }

@[simp] theorem State.copied_req (s : State) : s.copied.req = s.req := rfl
@[simp] theorem State.copied_cfg (s : State) : s.copied.cfg = s.cfg := rfl
@[simp] theorem State.copied_rsp (s : State) : s.copied.rsp = { s.rsp with addr := s.req.addr, fc := s.req.fc } := rfl
@[simp] theorem State.copied_ds (s : State) : s.copied.ds = s.ds := rfl
@[simp] theorem State.copied_xb (s : State) : s.copied.xb = s.xb := rfl
@[simp] theorem State.copied_halt (s : State) : s.copied.halt = s.halt := rfl
@[simp] theorem State.copied_fcause (s : State) : s.copied.fcause = s.fcause := rfl
@[simp] theorem State.copied_inbox (s : State) : s.copied.inbox = s.inbox := rfl
@[simp] theorem State.copied_out (s : State) : s.copied.out = s.out := rfl
@[simp] theorem State.copied_calls (s : State) : s.copied.calls = s.calls := rfl
@[simp] theorem State.copied_appReads (s : State) : s.copied.appReads = s.appReads := rfl
@[simp] theorem State.copied_appWrites (s : State) : s.copied.appWrites = s.appWrites := rfl
@[simp] theorem State.copied_appGenerics (s : State) : s.copied.appGenerics = s.appGenerics := rfl
@[simp] theorem State.copied_free (s : State) : s.copied.free = s.free := rfl
@[simp] theorem State.copied_stuck (s : State) : s.copied.stuck = s.stuck := rfl

/-- A `PROCESS` that runs is its family's procedure on the copied header (R220). -/
theorem processEntry_ready {s : State} (h : s.ReadyProcess) (body : State → StepOut) :
    processEntry s body = body s.copied := by
  rw [processEntry, issue_ready h.toReady, if_neg h.handler]
  rfl

/-- Everything the entry of `PROCESS` can answer. -/
theorem processEntry_cases (s : State) (body : State → StepOut) :
    (cfgWf s.cfg = false ∧ processEntry s body = .refused .illFormedConfiguration) ∨
    (cfgWf s.cfg = true ∧ s.halt = true ∧ processEntry s body = .next s.refuse) ∨
    (s.Ready ∧ binding s.cfg sGenFunction = Config.unbound ∧
      processEntry s body = .next (s.raiseFatal fNoGenericHandler)) ∨
    (s.ReadyProcess ∧ processEntry s body = body s.copied) := by
  rcases issue_cases s _ with h | h | ⟨hr, h⟩
  · exact .inl h
  · exact .inr (.inl h)
  · by_cases hb : binding s.cfg sGenFunction = Config.unbound
    · exact .inr (.inr (.inl ⟨hr, hb, by rw [processEntry, h, if_pos hb]⟩))
    · exact .inr (.inr (.inr ⟨⟨hr, hb⟩, processEntry_ready ⟨hr, hb⟩ body⟩))

end Sys2Proof.Machine
end

