-- ==== Sys2Proof/Laws/Callbacks.lean ====
section
/-! SUPPORT. Callbacks and loops of them: everything one invocation can do, and the three ways a loop can end. -/

namespace Sys2Proof.Machine

/-- The state an invocation leaves, however it ends. -/
def Reply.state {α : Type} : Reply α → State
  | .ok _ s => s
  | .exc _ s => s
  | .never s => s

@[simp] theorem Reply.state_ok {α : Type} (x : α) (s : State) : (Reply.ok x s).state = s := rfl
@[simp] theorem Reply.state_exc {α : Type} (e : Byte) (s : State) : (Reply.exc e s : Reply α).state = s := rfl
@[simp] theorem Reply.state_never {α : Type} (s : State) : (Reply.never s : Reply α).state = s := rfl

@[simp] theorem replyOf_state {α : Type} (x : α) (e : Byte) (s : State) : (replyOf x e s).state = s := by
  unfold replyOf
  split <;> rfl

@[simp] theorem replyOf_ok {α : Type} (x : α) (s : State) : replyOf x exOk s = .ok x s := if_pos rfl

theorem replyOf_exc {α : Type} (x : α) {e : Byte} (s : State) (h : e ≠ exOk) : replyOf x e s = .exc e s := if_neg h

/-- What no invocation changes: the request bank, `HALT`, `FCAUSE`, the configuration, `XB`, and the script. -/
structure State.Kept (s t : State) : Prop where
  req : t.req = s.req
  halt : t.halt = s.halt
  fcause : t.fcause = s.fcause
  cfg : t.cfg = s.cfg
  xb : t.xb = s.xb
  inbox : t.inbox = s.inbox
  appGenerics : t.appGenerics = s.appGenerics
  stuck : t.stuck = s.stuck

theorem State.Kept.refl (s : State) : s.Kept s := ⟨rfl, rfl, rfl, rfl, rfl, rfl, rfl, rfl⟩

theorem State.Kept.trans {s t u : State} (h : s.Kept t) (g : t.Kept u) : s.Kept u :=
  ⟨g.req.trans h.req, g.halt.trans h.halt, g.fcause.trans h.fcause, g.cfg.trans h.cfg, g.xb.trans h.xb,
    g.inbox.trans h.inbox, g.appGenerics.trans h.appGenerics, g.stuck.trans h.stuck⟩

/-- A read of the Register Buffer changes nothing (R78). -/
@[simp] theorem bufferRead_state (a : Word) (s : State) : (bufferRead a s).state = s := by
  unfold bufferRead
  split <;> rfl

/-- The external read port: everything it can change (R227). -/
theorem externalRead_state (slot : Fin 9) (fc : Byte) (a : Word) (s : State) :
    ∃ tape free, (externalRead slot fc a s).state =
      { s with calls := s.calls ++ [Call.read slot fc a], appReads := tape, free := free } := by
  unfold externalRead
  cases s.appReads with
  | nil => exact ⟨[], s.free + 1, by simp⟩
  | cons r rs => cases r <;> exact ⟨rs, s.free, by simp⟩

/-- The external write port: everything it can change (R227). -/
theorem externalWrite_state (slot : Fin 9) (fc : Byte) (a v : Word) (s : State) :
    ∃ tape free, (externalWrite slot fc a v s).state =
      { s with calls := s.calls ++ [Call.write slot fc a v], appWrites := tape, free := free } := by
  unfold externalWrite
  cases s.appWrites with
  | nil => exact ⟨[], s.free + 1, by simp⟩
  | cons r rs => cases r <;> exact ⟨rs, s.free, by simp⟩

/-- `CallRead`: the response bank, the stores and everything of `Kept` stay (R78, R227). -/
theorem callRead_state (slot : Fin 9) (fc : Byte) (a : Word) (s : State) :
    s.Kept (callRead slot fc a s).state ∧ (callRead slot fc a s).state.rsp = s.rsp ∧
      (callRead slot fc a s).state.ds = s.ds := by
  unfold callRead
  split
  · rw [bufferRead_state]
    exact ⟨.refl s, rfl, rfl⟩
  · obtain ⟨tape, free, h⟩ := externalRead_state slot fc a s
    rw [h]
    exact ⟨⟨rfl, rfl, rfl, rfl, rfl, rfl, rfl, rfl⟩, rfl, rfl⟩

/-- A write of the Register Buffer: one slot, or nothing (R156, R158). -/
theorem bufferWrite_state (a v : Word) (s : State) :
    (∃ k off, locate s.cfg .write a = .hit k off ∧
      bufferWrite a v s = .ok () { s with ds := writeSlot s.ds k off v }) ∨
    (∃ e, locate s.cfg .write a = .fails e ∧ bufferWrite a v s = .exc e s) := by
  unfold bufferWrite
  cases h : locate s.cfg .write a with
  | hit k off => exact .inl ⟨k, off, rfl, rfl⟩
  | fails e => exact .inr ⟨e, rfl, rfl⟩

/-- `CallWrite`: the response bank and everything of `Kept` stay, and the stores keep their canonical form. -/
theorem callWrite_state (slot : Fin 9) (fc : Byte) (a v : Word) (s : State) :
    s.Kept (callWrite slot fc a v s).state ∧ (callWrite slot fc a v s).state.rsp = s.rsp ∧
      (Memory.wf s.ds = true → Memory.wf (callWrite slot fc a v s).state.ds = true) := by
  unfold callWrite
  split
  · rcases bufferWrite_state a v s with ⟨k, off, -, h⟩ | ⟨e, -, h⟩
    · rw [h]
      exact ⟨⟨rfl, rfl, rfl, rfl, rfl, rfl, rfl, rfl⟩, rfl, fun hw => writeSlot_wf hw k off v⟩
    · rw [h]
      exact ⟨.refl s, rfl, id⟩
  · obtain ⟨tape, free, h⟩ := externalWrite_state slot fc a v s
    rw [h]
    exact ⟨⟨rfl, rfl, rfl, rfl, rfl, rfl, rfl, rfl⟩, rfl, id⟩

/-- A property every item keeps is kept by the loop, however it ends. -/
theorem forItems_keeps {item : Nat → State → Reply Unit} (P : State → Prop)
    (h : ∀ i s, P s → P (item i s).state) (count i : Nat) (s : State) (hs : P s) :
    P (forItems item count i s).state := by
  induction count generalizing i s with
  | zero => exact hs
  | succ n ih =>
    have hi := h i s hs
    unfold forItems
    cases hr : item i s with
    | ok u s' => rw [hr] at hi; exact ih (i + 1) s' hi
    | exc e s' => rw [hr] at hi; exact hi
    | never s' => rw [hr] at hi; exact hi

/-- A loop whose items all succeed, along the states `f 0`, `f 1`, ... (R28). -/
theorem forItems_run {item : Nat → State → Reply Unit} (f : Nat → State) (count i : Nat)
    (h : ∀ j, j < count → item (i + j) (f j) = .ok () (f (j + 1))) :
    forItems item count i (f 0) = .ok () (f count) := by
  induction count generalizing i f with
  | zero => rfl
  | succ n ih =>
    have h0 := h 0 (by omega)
    rw [Nat.add_zero] at h0
    rw [forItems, h0]
    exact ih (fun j => f (j + 1)) (i + 1) fun j hj => by
      have := h (j + 1) (by omega)
      rwa [show i + (j + 1) = i + 1 + j by omega] at this

/-- A loop aborted by item `m`: nothing after it is done (R232, R324). -/
theorem forItems_abort {item : Nat → State → Reply Unit} (f : Nat → State) {count i m : Nat} {r : Reply Unit}
    (hm : m < count) (h : ∀ j, j < m → item (i + j) (f j) = .ok () (f (j + 1)))
    (he : item (i + m) (f m) = r) (hr : ∀ u s, r ≠ .ok u s) : forItems item count i (f 0) = r := by
  induction m generalizing i f count with
  | zero =>
    obtain ⟨n, rfl⟩ : ∃ n, count = n + 1 := ⟨count - 1, by omega⟩
    rw [Nat.add_zero] at he
    rw [forItems, he]
    cases r with
    | ok u s => exact absurd rfl (hr u s)
    | exc e s => rfl
    | never s => rfl
  | succ m ih =>
    obtain ⟨n, rfl⟩ : ∃ n, count = n + 1 := ⟨count - 1, by omega⟩
    have h0 := h 0 (by omega)
    rw [Nat.add_zero] at h0
    rw [forItems, h0]
    exact ih (fun j => f (j + 1)) (by omega)
      (fun j hj => by
        have := h (j + 1) (by omega)
        rwa [show i + (j + 1) = i + 1 + j by omega] at this)
      (by rwa [show i + 1 + m = i + (m + 1) by omega])

/-- `PROCESS` always ends in a next state (R314, R316, R367): how each loop end is answered. -/
theorem finish_next (r : Reply Unit) (success : State → State) :
    ∃ t, finish r success = .next t ∧
      (t = (success r.state).complete {} ∨ (∃ e, t = (r.state.exceptionResponse e).complete {}) ∨
        t = { r.state with stuck := true, out := .unfinished }) := by
  cases r with
  | ok u s => exact ⟨_, rfl, .inl rfl⟩
  | exc e s => exact ⟨_, rfl, .inr (.inl ⟨e, rfl⟩)⟩
  | never s => exact ⟨_, rfl, .inr (.inr rfl)⟩

/-- How a delegated request ends (R226, R230): the handler is presented both banks once, and
writes nothing but `RSP`, whether it returns or not (R367). -/
theorem delegate_next (s : State) :
    ∃ t, delegate s = .next t ∧ t.calls = s.calls ++ [Call.generic s.req s.rsp] ∧ t.req = s.req ∧ t.halt = s.halt ∧
      t.fcause = s.fcause ∧ t.cfg = s.cfg ∧ t.xb = s.xb ∧ t.ds = s.ds ∧ t.inbox = s.inbox := by
  unfold delegate
  cases s.appGenerics with
  | nil => exact ⟨_, rfl, rfl, rfl, rfl, rfl, rfl, rfl, rfl, rfl⟩
  | cons g gs =>
    cases g with
    | leaves p => exact ⟨_, rfl, rfl, rfl, rfl, rfl, rfl, rfl, rfl, rfl⟩
    | never p => exact ⟨_, rfl, rfl, rfl, rfl, rfl, rfl, rfl, rfl, rfl⟩

/-- The bank a free answer leaves keeps the handler's contract (R230). -/
theorem freeBank_len (k : Nat) : (freeBank k).len.toNat ≤ Config.payloadMax := by
  have := (Config.freeGenericLen k).isLt
  show (BitVec.ofNat 8 (Config.freeGenericLen k).val).toNat ≤ Config.payloadMax
  simp only [BitVec.toNat_ofNat, Config.payloadMax]
  omega

end Sys2Proof.Machine
end

