-- ==== Sys2Proof/Laws/Families.lean ====
section
/-! SUPPORT. What `PROCESS` runs: each function code's instruction is its family's procedure on the copied header, and a
served request of the right shape is its loop. -/

namespace Sys2Proof.Machine

/-- R224: an instruction decoded from a function code runs the branch of the switch that `PROCESS` takes on that code. -/
theorem exec_decodeFunction (fc : Byte) :
    ∃ body, (∀ s, exec (decodeFunction fc) s = processEntry s body) ∧
      ∀ t : State, t.req.fc = fc → dispatchFunction t = body t := by
  unfold decodeFunction
  split <;>
    (refine ⟨_, fun s => rfl, fun t ht => ?_⟩; unfold dispatchFunction; simp [familyOf, specificSlot, kindOf, *])

/-- What an exception response leaves (R231): nothing but the response bank. -/
theorem exceptionEnd_copied (s : State) (e : Byte) :
    ∃ t, exceptionEnd e s.copied = .next t ∧ ExceptionResponse s t e ∧ OnlyResponse s t :=
  ⟨_, rfl, ⟨rfl, rfl, rfl, Pdu.get_set_same _ _ (by decide)⟩, rfl⟩

/-- A read function runs the Read family with the slots of its row (R250). -/
theorem exec_read {r : FunctionRow} (hr : r ∈ readRows) {s : State} (h : s.ReadyProcess) :
    exec r.instr s = readFamily r.spec r.kind s.copied ∧ r.gen = sGenRead := by
  simp only [readRows, bitReadRows, registerReadRows, List.cons_append, List.nil_append, List.mem_cons,
    List.not_mem_nil, or_false] at hr
  rcases hr with rfl | rfl | rfl | rfl | rfl <;> exact ⟨processEntry_ready h _, rfl⟩

/-- A single-write function runs the Write-Single family with the slots of its row (R270). -/
theorem exec_writeSingle {r : FunctionRow} (hr : r ∈ writeSingleRows) {s : State} (h : s.ReadyProcess) :
    exec r.instr s = writeSingle r.spec r.kind s.copied ∧ r.gen = sGenWrite := by
  simp only [writeSingleRows, List.mem_cons, List.not_mem_nil, or_false] at hr
  rcases hr with rfl | rfl <;> exact ⟨processEntry_ready h _, rfl⟩

/-- A multiple-write function runs the Write-Multiple family with the slots of its row (R285). -/
theorem exec_writeMultiple {r : FunctionRow} (hr : r ∈ writeMultipleRows) {s : State} (h : s.ReadyProcess) :
    exec r.instr s = writeMultiple r.spec r.kind s.copied ∧ r.gen = sGenWrite := by
  simp only [writeMultipleRows, List.mem_cons, List.not_mem_nil, or_false] at hr
  rcases hr with rfl | rfl <;> exact ⟨processEntry_ready h _, rfl⟩

/-- A request of the right size that no slot serves goes to the generic-function handler (R226). -/
theorem exec_delegated {r : FunctionRow} {s : State} (h : s.ReadyProcess)
    (hr : r ∈ readRows ++ writeSingleRows ∧ s.req.len = 4 ∨ r ∈ writeMultipleRows ∧ 5 ≤ s.req.len.toNat)
    (hc : choose s.cfg r.spec r.gen = none) : exec r.instr s = delegate s.copied := by
  rcases hr with ⟨hr, hl⟩ | ⟨hr, hl⟩
  · have h4 : ¬ s.copied.req.len.toNat ≠ 4 := by simp [hl]
    rcases List.mem_append.mp hr with hr | hr
    · rw [(exec_read hr h).2] at hc
      rw [(exec_read hr h).1, readFamily, if_neg h4, State.copied_cfg]
      simp only [hc]
    · rw [(exec_writeSingle hr h).2] at hc
      rw [(exec_writeSingle hr h).1, writeSingle, if_neg h4, State.copied_cfg]
      simp only [hc]
  · rw [(exec_writeMultiple hr h).2] at hc
    rw [(exec_writeMultiple hr h).1, writeMultiple,
      if_neg (show ¬ s.copied.req.len.toNat < 5 by rw [State.copied_req]; omega), State.copied_cfg]
    simp only [hc]

/-- The start address of a request. -/
abbrev State.start (s : State) : Word := s.req.word 0

/-- A served read of the right size: the quantity check, then the items (R254, R255, R257). -/
theorem exec_read_served {r : FunctionRow} (hr : r ∈ readRows) {s : State} (h : s.ReadyProcess) {slot : Fin 9}
    {b : BitVec 2} (hl : s.req.len = 4) (hs : Serves s r slot b) :
    exec r.instr s =
      if s.quantity.toNat < 1 ∨ readMax s.cfg r.kind < s.quantity.toNat then exceptionEnd exIllegalDataValue s.copied
      else match r.kind with
        | .bit => bitRead slot s.start s.quantity.toNat s.copied
        | .register => registerRead slot s.start s.quantity.toNat s.copied := by
  obtain ⟨he, hg⟩ := exec_read hr h
  have hc := hs.1
  rw [hg] at hc
  rw [he, readFamily, if_neg (show ¬ s.copied.req.len.toNat ≠ 4 by simp [hl]), State.copied_cfg]
  simp only [hc]
  rfl

/-- A served single write of the right size: the value check, then one invocation (R274). -/
theorem exec_writeSingle_served {r : FunctionRow} (hr : r ∈ writeSingleRows) {s : State} (h : s.ReadyProcess)
    {slot : Fin 9} {b : BitVec 2} (hl : s.req.len = 4) (hs : Serves s r slot b) :
    exec r.instr s =
      if singleValueBad s.cfg r.kind s.quantity then exceptionEnd exIllegalDataValue s.copied
      else finish (callWrite slot s.req.fc s.start s.quantity s.copied) State.echoResponse := by
  obtain ⟨he, hg⟩ := exec_writeSingle hr h
  have hc := hs.1
  rw [hg] at hc
  rw [he, writeSingle, if_neg (show ¬ s.copied.req.len.toNat ≠ 4 by simp [hl]), State.copied_cfg]
  simp only [hc]
  rfl

/-- Item `i` of a multiple write of either kind (R290, R294). -/
def writeItem (slot : Fin 9) (start : Word) (k : Kind) (i : Nat) (t : State) : Reply Unit :=
  callWrite slot t.req.fc (itemAddr start i) (t.itemValue k i) t

/-- The items of the two loops. -/
theorem coilWriteItem_eq (slot : Fin 9) (start : Word) : coilWriteItem slot start = writeItem slot start .bit := rfl

theorem registerWriteItem_eq (slot : Fin 9) (start : Word) :
    registerWriteItem slot start = writeItem slot start .register := by
  funext i t
  simp only [registerWriteItem, writeItem, State.itemValue, Pdu.word, show 5 + 2 * i + 1 = 6 + 2 * i by omega]

/-- The two count checks of a multiple write are the one condition on the integers (R289, R293). -/
theorem coilCountOk_iff (s : State) :
    coilCountOk s.cfg (s.req.get 4).toNat s.quantity.toNat = true ↔ s.CountOk .bit := by
  simp [coilCountOk, State.CountOk, and_assoc]

theorem registerCountOk_iff (s : State) :
    registerCountOk s.cfg (s.req.get 4).toNat s.quantity.toNat = true ↔ s.CountOk .register := by
  simp [registerCountOk, State.CountOk, and_assoc]

/-- A served multiple write with a count that fits: its loop (R290, R294). -/
theorem exec_writeMultiple_served {r : FunctionRow} (hr : r ∈ writeMultipleRows) {s : State} (h : s.ReadyProcess)
    {slot : Fin 9} {b : BitVec 2} (hl : 5 ≤ s.req.len.toNat) (hs : Serves s r slot b) (hc : s.CountOk r.kind) :
    exec r.instr s =
      finish (forItems (writeItem slot s.start r.kind) s.quantity.toNat 0 s.copied) State.echoResponse := by
  obtain ⟨he, hg⟩ := exec_writeMultiple hr h
  have hch := hs.1
  rw [hg] at hch
  rw [he, writeMultiple, if_neg (show ¬ s.copied.req.len.toNat < 5 by rw [State.copied_req]; omega), State.copied_cfg]
  simp only [hch]
  cases hk : r.kind with
  | bit => exact if_pos ((coilCountOk_iff s).mpr (hk ▸ hc))
  | register =>
    rw [← registerWriteItem_eq]
    exact if_pos ((registerCountOk_iff s).mpr (hk ▸ hc))

/-- A served multiple write with a count that does not fit (R289, R293). -/
theorem exec_writeMultiple_badCount {r : FunctionRow} (hr : r ∈ writeMultipleRows) {s : State} (h : s.ReadyProcess)
    {slot : Fin 9} {b : BitVec 2} (hl : 5 ≤ s.req.len.toNat) (hs : Serves s r slot b) (hc : ¬ s.CountOk r.kind) :
    exec r.instr s = exceptionEnd exIllegalDataValue s.copied := by
  obtain ⟨he, hg⟩ := exec_writeMultiple hr h
  have hch := hs.1
  rw [hg] at hch
  rw [he, writeMultiple, if_neg (show ¬ s.copied.req.len.toNat < 5 by rw [State.copied_req]; omega), State.copied_cfg]
  simp only [hch]
  cases hk : r.kind with
  | bit => exact if_neg fun e => hc (hk ▸ (coilCountOk_iff s).mp e)
  | register => exact if_neg fun e => hc (hk ▸ (registerCountOk_iff s).mp e)

end Sys2Proof.Machine
end

