-- ==== Sys2Proof/Laws/Decoding.lean ====
section
/-! SUPPORT. The bank select bit, and what the decoder answers is always well formed. -/

namespace Sys2Proof

@[simp] theorem decodeBank_encodeBank (b : Bank) : decodeBank (encodeBank b) = b := by cases b <;> rfl

@[simp] theorem encodeBank_decodeBank (b : BitVec 1) : encodeBank (decodeBank b) = b := by revert b; decide

/-- The decoder answers an unassigned function code with `illegal` and no other with it (R115). -/
theorem decodeFunction_eq_illegal (fc : Byte) :
    decodeFunction fc = .illegal fc ↔ assignedCodes.contains fc = false := by
  revert fc; decide +kernel

end Sys2Proof
end

