-- ==== Sys2Proof/Laws/PerInstr.lean ====
section
/-! SUPPORT. Statements for all instructions, one lemma per constructor: the decoder reads back what the encoder writes. -/

namespace Sys2Proof.Laws

/-- Decoding the encoding of a well-formed instruction gives it back (R111, R113). -/
def RoundTrip.Statement (i : Instr) : Prop := ∀ xbSize, i.wf xbSize = true → decode (encode i) = i

theorem RoundTrip.crc16 (n : Nat) : RoundTrip.Statement (.crc16 n) := fun _ _ => rfl
theorem RoundTrip.lrc8 (n : Nat) : RoundTrip.Statement (.lrc8 n) := fun _ _ => rfl
theorem RoundTrip.bufRd (a : Word) : RoundTrip.Statement (.bufRd a) := fun _ _ => rfl
theorem RoundTrip.bufWr (a : Word) (v : Word) : RoundTrip.Statement (.bufWr a v) := fun _ _ => rfl
theorem RoundTrip.rtuEnc (b : Bank) (n : Nat) : RoundTrip.Statement (.rtuEnc b n) := fun _ _ => by simp [encode, decode, decodeHostOp]
theorem RoundTrip.rtuDec (b : Bank) (n : Nat) : RoundTrip.Statement (.rtuDec b n) := fun _ _ => by simp [encode, decode, decodeHostOp]
theorem RoundTrip.ascEnc (b : Bank) (n : Nat) : RoundTrip.Statement (.ascEnc b n) := fun _ _ => by simp [encode, decode, decodeHostOp]
theorem RoundTrip.ascDec (b : Bank) (n : Nat) : RoundTrip.Statement (.ascDec b n) := fun _ _ => by simp [encode, decode, decodeHostOp]
theorem RoundTrip.process : RoundTrip.Statement .process := fun _ _ => rfl
theorem RoundTrip.hostopRsvd0 : RoundTrip.Statement .hostopRsvd0 := fun _ _ => rfl
theorem RoundTrip.hostopRsvdA : RoundTrip.Statement .hostopRsvdA := fun _ _ => rfl
theorem RoundTrip.hostopRsvdB : RoundTrip.Statement .hostopRsvdB := fun _ _ => rfl
theorem RoundTrip.hostopRsvdC : RoundTrip.Statement .hostopRsvdC := fun _ _ => rfl
theorem RoundTrip.hostopRsvdD : RoundTrip.Statement .hostopRsvdD := fun _ _ => rfl
theorem RoundTrip.hostopRsvdE : RoundTrip.Statement .hostopRsvdE := fun _ _ => rfl
theorem RoundTrip.hostopRsvdF : RoundTrip.Statement .hostopRsvdF := fun _ _ => rfl
theorem RoundTrip.rdcoils : RoundTrip.Statement .rdcoils := fun _ _ => rfl
theorem RoundTrip.rddisc : RoundTrip.Statement .rddisc := fun _ _ => rfl
theorem RoundTrip.rdhold : RoundTrip.Statement .rdhold := fun _ _ => rfl
theorem RoundTrip.rdinput : RoundTrip.Statement .rdinput := fun _ _ => rfl
theorem RoundTrip.wrcoil : RoundTrip.Statement .wrcoil := fun _ _ => rfl
theorem RoundTrip.wrreg : RoundTrip.Statement .wrreg := fun _ _ => rfl
theorem RoundTrip.wrcoils : RoundTrip.Statement .wrcoils := fun _ _ => rfl
theorem RoundTrip.wrregs : RoundTrip.Statement .wrregs := fun _ _ => rfl
theorem RoundTrip.rwregs : RoundTrip.Statement .rwregs := fun _ _ => rfl
theorem RoundTrip.rsvd07 : RoundTrip.Statement .rsvd07 := fun _ _ => rfl
theorem RoundTrip.rsvd08 : RoundTrip.Statement .rsvd08 := fun _ _ => rfl
theorem RoundTrip.rsvd0B : RoundTrip.Statement .rsvd0B := fun _ _ => rfl
theorem RoundTrip.rsvd0C : RoundTrip.Statement .rsvd0C := fun _ _ => rfl
theorem RoundTrip.rsvd11 : RoundTrip.Statement .rsvd11 := fun _ _ => rfl
theorem RoundTrip.rsvd14 : RoundTrip.Statement .rsvd14 := fun _ _ => rfl
theorem RoundTrip.rsvd15 : RoundTrip.Statement .rsvd15 := fun _ _ => rfl
theorem RoundTrip.rsvd16 : RoundTrip.Statement .rsvd16 := fun _ _ => rfl
theorem RoundTrip.rsvd18 : RoundTrip.Statement .rsvd18 := fun _ _ => rfl
theorem RoundTrip.illegal (fc : Byte) : RoundTrip.Statement (.illegal fc) := by
  intro xbSize h
  exact (decodeFunction_eq_illegal fc).mpr (by simpa [Instr.wf] using h)

end Sys2Proof.Laws
end

