-- ==== Sys2Proof/Certificates/Slice0/Obligations.lean ====
section
/-! DEFINITION. The statements for the provers. Rule numbers are those of spec/. -/

open Sys2Proof Sys2Proof.Machine

/-! ## Encoding and stepping -/

/-- R111, R113, R118: the decoder reads back what the encoder writes; every function code is the encoding of what it
decodes to; and re-encoding a host operation changes nothing the decoder reads (operands not named are ignored, R91). -/
def Obligations.DecodeEncodeAgree : Prop :=
  (∀ xbSize i, i.wf xbSize = true → decode (encode i) = i) ∧
  (∀ fc, encode (decode (.functionCode fc)) = .functionCode fc) ∧
  (∀ w, decode (encode (decode (.hostOp w))) = decode (.hostOp w))

/-- R111, R113: words written out from the two opcode maps decode to the instructions they stand for. -/
def Obligations.OpcodeMapWords : Prop :=
  decode (.hostOp ⟨0b0001, 0, 6, 0, 0⟩) = .crc16 6 ∧
  decode (.hostOp ⟨0b0100, 0, 0, 0x0001, 0xBEEF⟩) = .bufWr 0x0001 0xBEEF ∧
  decode (.hostOp ⟨0b0110, 0, 8, 0, 0⟩) = .rtuDec .req 8 ∧
  decode (.hostOp ⟨0b0111, 1, 515, 0, 0⟩) = .ascEnc .rsp 515 ∧
  decode (.hostOp ⟨0b1001, 0, 0, 0, 0⟩) = .process ∧
  decode (.hostOp ⟨0b1111, 1, 7, 3, 4⟩) = .hostopRsvdF ∧
  decode (.functionCode 0b00000011) = .rdhold ∧
  decode (.functionCode 0b00001111) = .wrcoils ∧
  decode (.functionCode 0b00010111) = .rwregs ∧
  decode (.functionCode 0b00011000) = .rsvd18 ∧
  decode (.functionCode 0b10000011) = .illegal 0x83

/-- A step runs the operation on the port, and an idle machine stays as it is (R28, R354; log 12). -/
def Obligations.StepRunsIssuedOperation : Prop :=
  (∀ s i w rest xbSize, s.stuck = false → s.inbox = .issue w :: rest → i.wf xbSize = true → encode i = .hostOp w →
    step s = exec i { s with inbox := rest }) ∧
  (∀ s w rest, s.stuck = false → s.inbox = .issue w :: rest →
    step s = exec (decode (.hostOp w)) { s with inbox := rest }) ∧
  (∀ s, s.inbox = [] → step s = .next s)

/-- R223, R224: `PROCESS` is the instruction that all 8 bits of `REQ.fc` encode. -/
def Obligations.ProcessRunsTheFunctionCode : Prop :=
  ∀ s : State, exec .process s = exec (decode (.functionCode s.req.fc)) s

/-! ## Checksum Engine -/

/-- R141 (with R130, R138): the two checksum operations return a function of the bytes `XB[0..n)` and change nothing. -/
def Obligations.ChecksumOperations : Prop :=
  ∀ (n : Nat) (s : State), s.Ready → n ≤ s.cfg.xbSize →
    exec (.crc16 n) s = .next { s with out := .completed { crc := some (crc16 (Memory.readBytes s.xb 0 n)) } } ∧
    exec (.lrc8 n) s = .next { s with out := .completed { lrc := some (lrc8 (Memory.readBytes s.xb 0 n)) } }

/-- The model's choice (log 8): with more bytes than `XB` has the operations still complete (R314), with some value. -/
def Obligations.ChecksumBeyondTheBuffer : Prop :=
  ∀ (n : Nat) (s : State), s.Ready → s.cfg.xbSize < n →
    (∃ v, exec (.crc16 n) s = .next { s with free := s.free + 1, out := .completed { crc := some v } }) ∧
    (∃ v, exec (.lrc8 n) s = .next { s with free := s.free + 1, out := .completed { lrc := some v } })

/-- R134: the table form of one byte of the CRC, with three entries of the table. -/
def Obligations.CrcTableForm : Prop :=
  (∀ (c : Word) (x : Byte), crcByte c x =
    (c >>> 8) ^^^ crcBits8 (((c ^^^ x.zeroExtend 16).extractLsb' 0 8).zeroExtend 16)) ∧
  crcBits8 0x0000 = 0x0000 ∧ crcBits8 0x0001 = 0xC0C1 ∧ crcBits8 0x00FF = 0x4040

/-- R136: the CRC of a list followed by two bytes is 0 exactly when they are its own CRC, low byte first. -/
def Obligations.CrcResidue : Prop :=
  (∀ d : List Byte, crc16 (d ++ [loByte (crc16 d), hiByte (crc16 d)]) = 0x0000) ∧
  ∀ (d : List Byte) (lo hi : Byte), crc16 (d ++ [lo, hi]) = 0x0000 → be16 hi lo = crc16 d

/-- R140: the 8-bit sum of a list and one more byte is 0 exactly when that byte is the LRC; a single changed byte changes
the LRC, and two changes that cancel do not. -/
def Obligations.LrcCheckForm : Prop :=
  (∀ (d : List Byte) (x : Byte), lrcAcc 0x00 (d ++ [x]) = 0x00 ↔ x = lrc8 d) ∧
  (∀ (d : List Byte) (i : Nat) (v : Byte) (h : i < d.length), v ≠ d[i] → lrc8 (d.set i v) ≠ lrc8 d) ∧
  ∀ (d e f : List Byte) (x y z : Byte), lrc8 (d ++ (x + z) :: e ++ (y - z) :: f) = lrc8 (d ++ x :: e ++ y :: f)

/-! ## Register Buffer -/

/-- R150, R151, R153, R154, R155, R162: `BUF_RD` follows the protection table. The value beside a failure is any value
(R159). -/
def Obligations.BufRdFollowsTheTable : Prop :=
  ∀ (a : Word) (s : State), s.Ready →
    ((∀ d ∈ s.cfg.dps, ¬ InRange d a) → ∃ v, exec (.bufRd a) s =
      .next { s with free := s.free + 1, out := .completed { val := some v, exc := some 0x02 } }) ∧
    ∀ pre d post, s.cfg.dps = pre ++ d :: post → (∀ d' ∈ pre, ¬ InRange d' a) → InRange d a →
      (d.mode = 3 → ∃ v, exec (.bufRd a) s =
        .next { s with free := s.free + 1, out := .completed { val := some v, exc := some 0x04 } }) ∧
      (d.mode = 1 → ∃ v, exec (.bufRd a) s =
        .next { s with free := s.free + 1, out := .completed { val := some v, exc := some 0x02 } }) ∧
      (d.mode = 0 ∨ d.mode = 2 → ∀ off, off = (d.size.toNat - 2) - 2 * (a.toNat - d.start.toNat) →
        ∃ v, v = be16 (Memory.read s.ds (storeKey pre.length (off + 1))) (Memory.read s.ds (storeKey pre.length off)) ∧
          exec (.bufRd a) s = .next { s with out := .completed { val := some v, exc := some 0x00 } })

/-- R150, R151, R153, R154, R156, R158, R162: `BUF_WR` follows the protection table; a passing write changes the two
bytes of its slot and no other byte, a failing one changes nothing. -/
def Obligations.BufWrFollowsTheTable : Prop :=
  ∀ (a v : Word) (s : State), s.Ready → Memory.wf s.ds = true →
    ((∀ d ∈ s.cfg.dps, ¬ InRange d a) →
      exec (.bufWr a v) s = .next { s with out := .completed { exc := some 0x02 } }) ∧
    ∀ pre d post, s.cfg.dps = pre ++ d :: post → (∀ d' ∈ pre, ¬ InRange d' a) → InRange d a →
      (d.mode = 3 → exec (.bufWr a v) s = .next { s with out := .completed { exc := some 0x04 } }) ∧
      (d.mode = 0 → exec (.bufWr a v) s = .next { s with out := .completed { exc := some 0x02 } }) ∧
      (d.mode = 1 ∨ d.mode = 2 → ∀ off, off = (d.size.toNat - 2) - 2 * (a.toNat - d.start.toNat) →
        ∃ m, exec (.bufWr a v) s = .next { s with ds := m, out := .completed { exc := some 0x00 } } ∧
          Memory.read m (storeKey pre.length off) = v.extractLsb' 0 8 ∧
          Memory.read m (storeKey pre.length (off + 1)) = v.extractLsb' 8 8 ∧
          ∀ key, key ≠ storeKey pre.length off → key ≠ storeKey pre.length (off + 1) →
            Memory.read m key = Memory.read s.ds key)

/-- R157: what `BUF_WR` wrote at an address of a read-write datapoint, `BUF_RD` at the same address returns. -/
def Obligations.BufWriteReadsBack : Prop :=
  ∀ (a v : Word) (s : State) k d, s.Ready → Memory.wf s.ds = true → resolve s.cfg a = some (k, d) → d.mode = 2 →
    ∃ t, exec (.bufWr a v) s = .next t ∧ t.out = .completed { exc := some 0x00 } ∧
      exec (.bufRd a) t = .next { t with out := .completed { val := some v, exc := some 0x00 } }

/-- R65, R154: for a well-formed table an access that passes goes to an even offset inside the store of the datapoint
found, and different addresses go to different slots. -/
def Obligations.AccessesStayInTheirStore : Prop :=
  ∀ (c : ConfigRecord) (dir : Dir) (a : Word) (k off : Nat), cfgWf c = true → locate c dir a = .hit k off →
    (∃ d, c.dps[k]? = some d ∧ InRange d a ∧ off % 2 = 0 ∧ off + 2 ≤ d.size.toNat) ∧
    ∀ a' k' off', locate c dir a' = .hit k' off' → a' ≠ a →
      storeKey k' off' ≠ storeKey k off ∧ storeKey k' off' ≠ storeKey k (off + 1) ∧
      storeKey k' (off' + 1) ≠ storeKey k off ∧ storeKey k' (off' + 1) ≠ storeKey k (off + 1)

/-! ## RTU codec -/

/-- R170, R171, R172: `RTU_ENC` writes the frame and no other byte of `XB`, or returns 0 and writes nothing. -/
def Obligations.RtuEncodeWritesTheFrame : Prop :=
  ∀ (b : Bank) (cap : Nat) (s : State) (p : Pdu) (l : Nat), s.Ready → Memory.wf s.xb = true → p = s.bank b →
    l = p.len.toNat →
    ((253 < l ∨ cap < l + 4) → exec (.rtuEnc b cap) s = .next { s with out := .completed { n := some 0 } }) ∧
    (l ≤ 253 → l + 4 ≤ cap → ∃ m, exec (.rtuEnc b cap) s =
        .next { s with xb := m, out := .completed { n := some (l + 4) } } ∧
      Memory.read m 0 = p.addr ∧ Memory.read m 1 = p.fc ∧ (∀ i, i < l → Memory.read m (2 + i) = p.get i) ∧
      Memory.read m (l + 2) = (crc16 (p.addr :: p.fc :: p.payload l)).extractLsb' 0 8 ∧
      Memory.read m (l + 3) = (crc16 (p.addr :: p.fc :: p.payload l)).extractLsb' 8 8 ∧
      ∀ j, l + 4 ≤ j → Memory.read m j = Memory.read s.xb j)

/-- R174 to R178: `RTU_DEC` leaves the bank alone on a bad length; otherwise it writes the fields, keeps the payload
registers beyond the frame's, and reports whether the trailer is the CRC. -/
def Obligations.RtuDecodeExtractsTheFields : Prop :=
  ∀ (b : Bank) (n : Nat) (s : State) (c : Word), s.Ready → c = crc16 (Memory.readBytes s.xb 0 (n - 2)) →
    ((n < 5 ∨ 257 < n) → exec (.rtuDec b n) s = .next { s with out := .completed { ok := some false } }) ∧
    (5 ≤ n → n ≤ 257 → ∃ p ok, exec (.rtuDec b n) s = .next ((s.setBank b p).complete { ok := some ok }) ∧
      (ok = true ↔ Memory.read s.xb (n - 2) = c.extractLsb' 0 8 ∧ Memory.read s.xb (n - 1) = c.extractLsb' 8 8) ∧
      p.addr = Memory.read s.xb 0 ∧ p.fc = Memory.read s.xb 1 ∧ p.len.toNat = n - 4 ∧
      (∀ i, i < n - 4 → p.get i = Memory.read s.xb (2 + i)) ∧
      ∀ i, n - 4 ≤ i → p.get i = (s.bank b).get i)

/-- R179: an encoded PDU of payload length 1 to 253 decodes to itself; the frame of an empty payload is refused. -/
def Obligations.RtuRoundTrip : Prop :=
  ∀ (b b' : Bank) (cap n : Nat) (s t : State), s.Ready → Memory.wf s.xb = true →
    exec (.rtuEnc b cap) s = .next t → t.out = .completed { n := some n } → 0 < n →
    (1 ≤ (s.bank b).len.toNat → ∃ u, exec (.rtuDec b' n) t = .next u ∧ u.out = .completed { ok := some true } ∧
      (u.bank b').addr = (s.bank b).addr ∧ (u.bank b').fc = (s.bank b).fc ∧ (u.bank b').len = (s.bank b).len ∧
      ∀ i, i < (s.bank b).len.toNat → (u.bank b').get i = (s.bank b).get i) ∧
    ((s.bank b).len.toNat = 0 → n = 4 ∧
      exec (.rtuDec b' n) t = .next { t with out := .completed { ok := some false } })

/-- R180: an encoded RTU frame with any one byte changed is refused at the same length. -/
def Obligations.RtuCorruptionIsDetected : Prop :=
  ∀ (b b' : Bank) (cap n j : Nat) (v : Byte) (s t : State), s.Ready → Memory.wf s.xb = true →
    exec (.rtuEnc b cap) s = .next t → t.out = .completed { n := some n } → j < n → v ≠ Memory.read t.xb j →
    ∃ u, exec (.rtuDec b' n) { t with xb := Memory.write t.xb j v } = .next u ∧
      u.out = .completed { ok := some false }

/-! ## ASCII codec -/

/-- R192, R193: `ASC_ENC` writes colon, digit pairs high digit first, LRC, CR, LF, and no other byte of `XB`; or
returns 0 and writes nothing. -/
def Obligations.AsciiEncodeWritesTheFrame : Prop :=
  ∀ (b : Bank) (cap : Nat) (s : State) (p : Pdu) (l : Nat) (d : List Byte), s.Ready → Memory.wf s.xb = true →
    p = s.bank b → l = p.len.toNat → d = p.addr :: p.fc :: p.payload l →
    ((253 < l ∨ cap < 2 * l + 9) → exec (.ascEnc b cap) s = .next { s with out := .completed { n := some 0 } }) ∧
    (l ≤ 253 → 2 * l + 9 ≤ cap → ∃ m, exec (.ascEnc b cap) s =
        .next { s with xb := m, out := .completed { n := some (2 * l + 9) } } ∧
      Memory.read m 0 = 0x3A ∧
      (∀ i (h : i < (d ++ [lrc8 d]).length),
        Memory.read m (1 + 2 * i) = hexDigit ((d ++ [lrc8 d])[i].extractLsb' 4 4) ∧
        Memory.read m (2 + 2 * i) = hexDigit ((d ++ [lrc8 d])[i].extractLsb' 0 4)) ∧
      Memory.read m (2 * l + 7) = 0x0D ∧ Memory.read m (2 * l + 8) = 0x0A ∧
      ∀ j, 2 * l + 9 ≤ j → Memory.read m j = Memory.read s.xb j)

/-- R196, R197, R198, R201: a frame of impossible length, without its markers, or with a body character that is no
upper-case digit is refused and changes nothing. -/
def Obligations.AsciiDecodeRefusesBadFrames : Prop :=
  ∀ (b : Bank) (n : Nat) (s : State), s.Ready →
    (n < 9 ∨ 515 < n ∨ n % 2 = 0 ∨ Memory.read s.xb 0 ≠ 0x3A ∨ Memory.read s.xb (n - 2) ≠ 0x0D ∨
      Memory.read s.xb (n - 1) ≠ 0x0A ∨ (∃ j, 1 ≤ j ∧ j ≤ n - 3 ∧ hexVal (Memory.read s.xb j) = none)) →
    exec (.ascDec b n) s = .next { s with out := .completed { ok := some false } }

/-- R195, R199, R200, R201: a frame of digits `hex(d[0]) hex(d[1]) ...` writes the fields and is accepted exactly when
its last byte is the LRC of the others. -/
def Obligations.AsciiDecodeExtractsTheFields : Prop :=
  ∀ (b : Bank) (n : Nat) (s : State) (d : List Byte) (rx : Byte), s.Ready → 9 ≤ n → n ≤ 515 →
    n = 2 * d.length + 5 → Memory.read s.xb 0 = 0x3A → Memory.read s.xb (n - 2) = 0x0D →
    Memory.read s.xb (n - 1) = 0x0A → Memory.readBytes s.xb 1 (n - 3) = hexBytes (d ++ [rx]) →
    ∃ p ok, exec (.ascDec b n) s = .next ((s.setBank b p).complete { ok := some ok }) ∧
      (ok = true ↔ rx = lrc8 d) ∧ d[0]? = some p.addr ∧ d[1]? = some p.fc ∧ p.len.toNat = (n - 9) / 2 ∧
      (∀ i, i < (n - 9) / 2 → d[2 + i]? = some (p.get i)) ∧
      ∀ i, (n - 9) / 2 ≤ i → p.get i = (s.bank b).get i

/-- R202: an encoded PDU of payload length 0 to 253 decodes to itself. -/
def Obligations.AsciiRoundTrip : Prop :=
  ∀ (b b' : Bank) (cap n : Nat) (s t : State), s.Ready → Memory.wf s.xb = true →
    exec (.ascEnc b cap) s = .next t → t.out = .completed { n := some n } → 0 < n →
    ∃ u, exec (.ascDec b' n) t = .next u ∧ u.out = .completed { ok := some true } ∧
      (u.bank b').addr = (s.bank b).addr ∧ (u.bank b').fc = (s.bank b).fc ∧ (u.bank b').len = (s.bank b).len ∧
      ∀ i, i < (s.bank b).len.toNat → (u.bank b').get i = (s.bank b).get i

/-- R203: an encoded ASCII frame with any one character changed is refused. -/
def Obligations.AsciiCorruptionIsDetected : Prop :=
  ∀ (b b' : Bank) (cap n j : Nat) (v : Byte) (s t : State), s.Ready → Memory.wf s.xb = true →
    exec (.ascEnc b cap) s = .next t → t.out = .completed { n := some n } → j < n → v ≠ Memory.read t.xb j →
    ∃ u, exec (.ascDec b' n) { t with xb := Memory.write t.xb j v } = .next u ∧
      u.out = .completed { ok := some false }

/-! ## PROCESS: routing, handlers, refusals -/

/-- R221, R326: without a generic-function handler every `PROCESS`, whatever its function code, takes the fatal fault:
`FCAUSE`, `HALT` and the hook, and nothing else changes. -/
def Obligations.MissingHandlerIsFatal : Prop :=
  ∀ (i : Instr) (s : State), isProcess i = true → s.Ready → binding s.cfg 8 = 0 →
    exec i s = .next { s with fcause := 0x1, halt := true, calls := s.calls ++ [Call.faultHook 0x1],
                              out := .faulted 0x1 }

/-- R234, R235: a function code outside the families gets the exception response 0x01 and nothing is invoked, whatever
`REQ.len` and `REQ.pl` hold; the same for `PROCESS` on such a code. -/
def Obligations.IllegalFunctionResponse : Prop :=
  ∀ (i : Instr) (s : State), s.ReadyProcess →
    (isIllegal i = true ∨ i = .process ∧ s.req.fc ∉ ([0x01, 0x02, 0x03, 0x04, 0x05, 0x06, 0x0F, 0x10, 0x17] : List Byte)) →
    ∃ t, exec i s = .next t ∧ ExceptionResponse s t 0x01 ∧ OnlyResponse s t

/-- R251, R271, R286: a request of the wrong size gets 0x03 before any handler is chosen; nothing is invoked. -/
def Obligations.WrongSizeResponse : Prop :=
  ∀ (r : FunctionRow) (s : State), s.ReadyProcess →
    (r ∈ readRows ++ writeSingleRows ∧ s.req.len ≠ 4 ∨ r ∈ writeMultipleRows ∧ s.req.len.toNat < 5) →
    ∃ t, exec r.instr s = .next t ∧ ExceptionResponse s t 0x03 ∧ OnlyResponse s t

/-- R225: the order specific, generic of the kind, generic function. -/
def Obligations.HandlerOrder : Prop :=
  ∀ (c : ConfigRecord) (spec : Option (Fin 9)) (g : Fin 9),
    (∀ k, spec = some k → binding c k ≠ 0 → choose c spec g = some k) ∧
    ((∀ k, spec = some k → binding c k = 0) → binding c g ≠ 0 → choose c spec g = some g) ∧
    ((∀ k, spec = some k → binding c k = 0) → binding c g = 0 → choose c spec g = none)

/-- R226: with neither its specific nor its generic slot bound, a request of the right size goes to the generic-function
handler with both banks, header copied, and nothing else is checked; what the handler leaves in `RSP` stands. -/
def Obligations.UnservedRequestsAreDelegated : Prop :=
  ∀ (r : FunctionRow) (s : State) (p : Pdu) rest, s.ReadyProcess →
    (r ∈ readRows ++ writeSingleRows ∧ s.req.len = 4 ∨ r ∈ writeMultipleRows ∧ 5 ≤ s.req.len.toNat) →
    (∀ k, r.spec = some k → binding s.cfg k = 0) → binding s.cfg r.gen = 0 →
    s.appGenerics = .leaves p :: rest →
    exec r.instr s = .next { s with
      rsp := p, appGenerics := rest,
      calls := s.calls ++ [Call.generic s.req { s.rsp with addr := s.req.addr, fc := s.req.fc }],
      out := .completed {} }

/-- R254: a served read whose quantity is 0 or above the function's maximum gets 0x03 and nothing is invoked. -/
def Obligations.ReadQuantityIsChecked : Prop :=
  ∀ (r : FunctionRow) (s : State) (slot : Fin 9) (b : BitVec 2), s.ReadyProcess → s.req.len = 4 → Serves s r slot b →
    (r ∈ bitReadRows ∧ (s.quantity.toNat = 0 ∨ s.cfg.bitReadMax < s.quantity.toNat) ∨
     r ∈ registerReadRows ∧ (s.quantity.toNat = 0 ∨ s.cfg.regReadMax < s.quantity.toNat)) →
    ∃ t, exec r.instr s = .next t ∧ ExceptionResponse s t 0x03 ∧ OnlyResponse s t

/-- R274: a served single-coil write whose value is neither sentinel gets 0x03 without invoking the callback. -/
def Obligations.CoilValueIsChecked : Prop :=
  ∀ (s : State) (slot : Fin 9) (b : BitVec 2), s.ReadyProcess → s.req.len = 4 →
    Serves s ⟨.wrcoil, some 4, 7, .bit⟩ slot b → s.quantity ≠ s.cfg.coilOn → s.quantity ≠ s.cfg.coilOff →
    ∃ t, exec .wrcoil s = .next t ∧ ExceptionResponse s t 0x03 ∧ OnlyResponse s t

/-- R289, R293: a served write-multiple whose quantity and byte count do not fit gets 0x03 and nothing is invoked. -/
def Obligations.WriteMultipleCountIsChecked : Prop :=
  ∀ (r : FunctionRow) (s : State) (slot : Fin 9) (b : BitVec 2), r ∈ writeMultipleRows → s.ReadyProcess →
    5 ≤ s.req.len.toNat → Serves s r slot b → ¬ s.CountOk r.kind →
    ∃ t, exec r.instr s = .next t ∧ ExceptionResponse s t 0x03 ∧ OnlyResponse s t

/-! ## PROCESS: reads -/

/-- R257, R258: a register read through the Register Buffer. -/
def Obligations.RegisterReadFromTheBuffer : Prop :=
  ∀ (r : FunctionRow) (s : State) (slot : Fin 9) (vs : List Word), r ∈ registerReadRows → s.ReadyProcess →
    s.req.len = 4 → Serves s r slot 1 → s.quantity.toNat = vs.length → 1 ≤ vs.length → vs.length ≤ s.cfg.regReadMax →
    (∀ i (h : i < vs.length), s.Holds (s.item i) vs[i]) →
    ∃ t, exec r.instr s = .next t ∧ RegisterResponse s t vs ∧ OnlyResponse s t

/-- R227, R229, R257, R258: a register read served by the application: one invocation per item, in ascending order, at
addresses that wrap. -/
def Obligations.RegisterReadFromTheApplication : Prop :=
  ∀ (r : FunctionRow) (s : State) (slot : Fin 9) (vs : List Word) rest, r ∈ registerReadRows → s.ReadyProcess →
    s.req.len = 4 → Serves s r slot 2 → s.quantity.toNat = vs.length → 1 ≤ vs.length → vs.length ≤ s.cfg.regReadMax →
    s.appReads = vs.map (fun v => ReadAnswer.returns v 0x00) ++ rest →
    ∃ t, exec r.instr s = .next t ∧ RegisterResponse s t vs ∧
      t = { s with rsp := t.rsp, appReads := rest, out := .completed {},
                   calls := s.calls ++ (List.range vs.length).map fun i => Call.read slot s.req.fc (s.item i) }

/-- R255, R256: a bit read through the Register Buffer, padding bits 0. -/
def Obligations.BitReadFromTheBuffer : Prop :=
  ∀ (r : FunctionRow) (s : State) (slot : Fin 9) (vs : List Word), r ∈ bitReadRows → s.ReadyProcess →
    s.req.len = 4 → Serves s r slot 1 → s.quantity.toNat = vs.length → 1 ≤ vs.length → vs.length ≤ s.cfg.bitReadMax →
    (∀ i (h : i < vs.length), s.Holds (s.item i) vs[i]) →
    ∃ t, exec r.instr s = .next t ∧ BitResponse s t vs ∧ OnlyResponse s t

/-- R227, R229, R255, R256: a bit read served by the application. -/
def Obligations.BitReadFromTheApplication : Prop :=
  ∀ (r : FunctionRow) (s : State) (slot : Fin 9) (vs : List Word) rest, r ∈ bitReadRows → s.ReadyProcess →
    s.req.len = 4 → Serves s r slot 2 → s.quantity.toNat = vs.length → 1 ≤ vs.length → vs.length ≤ s.cfg.bitReadMax →
    s.appReads = vs.map (fun v => ReadAnswer.returns v 0x00) ++ rest →
    ∃ t, exec r.instr s = .next t ∧ BitResponse s t vs ∧
      t = { s with rsp := t.rsp, appReads := rest, out := .completed {},
                   calls := s.calls ++ (List.range vs.length).map fun i => Call.read slot s.req.fc (s.item i) }

/-- R232, R317: a read served by the application whose item `vs.length` fails with `e`: the response is that exception
alone, and no later item is invoked. -/
def Obligations.FailingReadAborts : Prop :=
  ∀ (r : FunctionRow) (s : State) (slot : Fin 9) (vs : List Word) (v : Word) (e : Byte) rest, r ∈ readRows →
    s.ReadyProcess → s.req.len = 4 → Serves s r slot 2 → vs.length < s.quantity.toNat →
    s.quantity.toNat ≤ readMax s.cfg r.kind → e ≠ 0x00 →
    s.appReads = vs.map (fun v => ReadAnswer.returns v 0x00) ++ .returns v e :: rest →
    ∃ t, exec r.instr s = .next t ∧ ExceptionResponse s t e ∧
      t = { s with rsp := t.rsp, appReads := rest, out := .completed {},
                   calls := s.calls ++ (List.range (vs.length + 1)).map fun i => Call.read slot s.req.fc (s.item i) }

/-- R232, R317: a read through the Register Buffer whose first failing item fails with `e`. -/
def Obligations.FailingBufferReadAborts : Prop :=
  ∀ (r : FunctionRow) (s : State) (slot : Fin 9) (m : Nat) (e : Byte), r ∈ readRows → s.ReadyProcess →
    s.req.len = 4 → Serves s r slot 1 → m < s.quantity.toNat → s.quantity.toNat ≤ readMax s.cfg r.kind →
    (∀ i, i < m → ∃ k off, locate s.cfg .read (s.item i) = .hit k off) →
    locate s.cfg .read (s.item m) = .fails e →
    ∃ t, exec r.instr s = .next t ∧ ExceptionResponse s t e ∧ OnlyResponse s t

/-- R367, R28: a read whose callback never returns, or a delegated request whose handler never returns, leaves `PROCESS`
unfinished. The model's choices (log 17): the machine then stays there, and `RSP` holds the bank that a silent handler
is scripted with, any bank at all. -/
def Obligations.SilentCallbackNeverEnds : Prop :=
  (∀ (r : FunctionRow) (s : State) (slot : Fin 9) (vs : List Word) rest, r ∈ readRows →
    s.ReadyProcess → s.req.len = 4 → Serves s r slot 2 → vs.length < s.quantity.toNat →
    s.quantity.toNat ≤ readMax s.cfg r.kind →
    s.appReads = vs.map (fun v => ReadAnswer.returns v 0x00) ++ .never :: rest →
    ∃ t, exec r.instr s = .next t ∧ t.stuck = true ∧ t.out = .unfinished ∧ t.req = s.req ∧ t.ds = s.ds ∧ t.xb = s.xb) ∧
  (∀ (r : FunctionRow) (s : State) (p : Pdu) rest, s.ReadyProcess →
    (r ∈ readRows ++ writeSingleRows ∧ s.req.len = 4 ∨ r ∈ writeMultipleRows ∧ 5 ≤ s.req.len.toNat) →
    (∀ k, r.spec = some k → binding s.cfg k = 0) → binding s.cfg r.gen = 0 → s.appGenerics = .never p :: rest →
    exec r.instr s = .next { s with
      rsp := p, appGenerics := rest, stuck := true, out := .unfinished,
      calls := s.calls ++ [Call.generic s.req { s.rsp with addr := s.req.addr, fc := s.req.fc }] }) ∧
  ∀ s : State, s.stuck = true → step s = .next s

/-! ## PROCESS: writes -/

/-- R274, R275: a single write through the Register Buffer stores the value in its register, changes no other byte of a
store, and echoes the request. -/
def Obligations.WriteSingleToTheBuffer : Prop :=
  ∀ (r : FunctionRow) (s : State) (slot : Fin 9) (k off : Nat), r ∈ writeSingleRows → s.ReadyProcess →
    Memory.wf s.ds = true → s.req.len = 4 → Serves s r slot 1 →
    (r.kind = .bit → s.quantity = s.cfg.coilOn ∨ s.quantity = s.cfg.coilOff) →
    locate s.cfg .write (s.item 0) = .hit k off →
    ∃ t, exec r.instr s = .next t ∧ EchoResponse s t ∧
      t = { s with rsp := t.rsp, ds := t.ds, out := .completed {} } ∧ readSlot t.ds k off = s.quantity ∧
      ∀ key, key ≠ storeKey k off → key ≠ storeKey k (off + 1) → Memory.read t.ds key = Memory.read s.ds key

/-- R274, R275: a single write served by the application: exactly one invocation, and the echo. -/
def Obligations.WriteSingleToTheApplication : Prop :=
  ∀ (r : FunctionRow) (s : State) (slot : Fin 9) rest, r ∈ writeSingleRows → s.ReadyProcess →
    s.req.len = 4 → Serves s r slot 2 →
    (r.kind = .bit → s.quantity = s.cfg.coilOn ∨ s.quantity = s.cfg.coilOff) →
    s.appWrites = .returns 0x00 :: rest →
    ∃ t, exec r.instr s = .next t ∧ EchoResponse s t ∧
      t = { s with rsp := t.rsp, appWrites := rest, out := .completed {},
                   calls := s.calls ++ [Call.write slot s.req.fc (s.item 0) s.quantity] }

/-- R275, R318: a single write that fails answers with the exception it failed with; the Register Buffer changes no
byte. -/
def Obligations.FailingWriteSingle : Prop :=
  ∀ (r : FunctionRow) (s : State) (slot : Fin 9) (e : Byte), r ∈ writeSingleRows → s.ReadyProcess →
    s.req.len = 4 → (r.kind = .bit → s.quantity = s.cfg.coilOn ∨ s.quantity = s.cfg.coilOff) →
    (Serves s r slot 1 → locate s.cfg .write (s.item 0) = .fails e →
      ∃ t, exec r.instr s = .next t ∧ ExceptionResponse s t e ∧ OnlyResponse s t) ∧
    (Serves s r slot 2 → e ≠ 0x00 → ∀ rest, s.appWrites = .returns e :: rest →
      ∃ t, exec r.instr s = .next t ∧ ExceptionResponse s t e ∧
        t = { s with rsp := t.rsp, appWrites := rest, out := .completed {},
                     calls := s.calls ++ [Call.write slot s.req.fc (s.item 0) s.quantity] })

/-- R290, R291, R294: a write-multiple through the Register Buffer writes every item's register, changes no other byte
of a store, and echoes start address and quantity. -/
def Obligations.WriteMultipleToTheBuffer : Prop :=
  ∀ (r : FunctionRow) (s : State) (slot : Fin 9), r ∈ writeMultipleRows → s.ReadyProcess → Memory.wf s.ds = true →
    5 ≤ s.req.len.toNat → Serves s r slot 1 → s.CountOk r.kind →
    (∀ i, i < s.quantity.toNat → ∃ k off, locate s.cfg .write (s.item i) = .hit k off) →
    ∃ t, exec r.instr s = .next t ∧ EchoResponse s t ∧
      t = { s with rsp := t.rsp, ds := t.ds, out := .completed {} } ∧ Wrote s t r.kind s.quantity.toNat

/-- R290, R291, R294, R227: a write-multiple served by the application: one invocation per item in ascending order, with
the item's value. -/
def Obligations.WriteMultipleToTheApplication : Prop :=
  ∀ (r : FunctionRow) (s : State) (slot : Fin 9) rest, r ∈ writeMultipleRows → s.ReadyProcess →
    5 ≤ s.req.len.toNat → Serves s r slot 2 → s.CountOk r.kind →
    s.appWrites = List.replicate s.quantity.toNat (.returns 0x00) ++ rest →
    ∃ t, exec r.instr s = .next t ∧ EchoResponse s t ∧
      t = { s with rsp := t.rsp, appWrites := rest, out := .completed {},
                   calls := s.calls ++ (List.range s.quantity.toNat).map fun i =>
                     Call.write slot s.req.fc (s.item i) (s.itemValue r.kind i) }

/-- R232, R77, R371: a write-multiple through the Register Buffer whose item `m` is the first to fail answers with that
exception alone, and the items before it stay written. -/
def Obligations.FailingWriteMultipleKeepsEarlierItems : Prop :=
  ∀ (r : FunctionRow) (s : State) (slot : Fin 9) (m : Nat) (e : Byte), r ∈ writeMultipleRows → s.ReadyProcess →
    Memory.wf s.ds = true → 5 ≤ s.req.len.toNat → Serves s r slot 1 → s.CountOk r.kind → m < s.quantity.toNat →
    (∀ i, i < m → ∃ k off, locate s.cfg .write (s.item i) = .hit k off) →
    locate s.cfg .write (s.item m) = .fails e →
    ∃ t, exec r.instr s = .next t ∧ ExceptionResponse s t e ∧
      t = { s with rsp := t.rsp, ds := t.ds, out := .completed {} } ∧ Wrote s t r.kind m

/-- R232: a write-multiple served by the application whose item `m` fails with `e`: items after it are not invoked. -/
def Obligations.FailingWriteMultipleAborts : Prop :=
  ∀ (r : FunctionRow) (s : State) (slot : Fin 9) (m : Nat) (e : Byte) rest, r ∈ writeMultipleRows →
    s.ReadyProcess → 5 ≤ s.req.len.toNat → Serves s r slot 2 → s.CountOk r.kind → m < s.quantity.toNat → e ≠ 0x00 →
    s.appWrites = List.replicate m (.returns 0x00) ++ .returns e :: rest →
    ∃ t, exec r.instr s = .next t ∧ ExceptionResponse s t e ∧
      t = { s with rsp := t.rsp, appWrites := rest, out := .completed {},
                   calls := s.calls ++ (List.range (m + 1)).map fun i =>
                     Call.write slot s.req.fc (s.item i) (s.itemValue r.kind i) }

/-! ## PROCESS as a whole -/

/-- R310, R316: with the mandatory handler bound and callbacks that return, every `PROCESS` completes, whatever the
request holds. -/
def Obligations.ProcessAlwaysCompletes : Prop :=
  ∀ (i : Instr) (s : State), isProcess i = true → s.ReadyProcess →
    (∀ x ∈ s.appReads, x ≠ .never) → (∀ x ∈ s.appWrites, x ≠ .never) → (∀ x ∈ s.appGenerics, ∀ p, x ≠ .never p) →
    ∃ t, exec i s = .next t ∧ t.out = .completed {} ∧ t.halt = false ∧ t.fcause = s.fcause ∧ t.stuck = s.stuck

/-- R237, R66: `PROCESS` never writes `REQ`, `XB` or the configuration; reads and illegal codes write no store either. -/
def Obligations.ProcessFrame : Prop :=
  ∀ (i : Instr) (s t : State), isProcess i = true → exec i s = .next t →
    t.req = s.req ∧ t.xb = s.xb ∧ t.cfg = s.cfg ∧ t.inbox = s.inbox ∧
    ((isIllegal i = true ∨ ∃ r ∈ readRows, i = r.instr) → t.ds = s.ds)

/-- R311: a `PROCESS` that reaches no application answers an exception with 0x01, 0x02, 0x03 or 0x04. -/
def Obligations.CoreRaisesOnlyFourCodes : Prop :=
  ∀ s t : State, s.ReadyProcess → exec .process s = .next t → t.calls = s.calls → t.rsp.fc.getLsbD 7 = true →
    t.rsp.get 0 = 0x01 ∨ t.rsp.get 0 = 0x02 ∨ t.rsp.get 0 = 0x03 ∨ t.rsp.get 0 = 0x04

/-! ## The whole machine -/

/-- The model's choice (log 10, 11, 17): every operation of an Instance with a well-formed configuration is answered by a
next state. A refused operation (R118, R331), the fatal fault (R326: "a fault", after which CORE stops) and a callback
that never returns (R367: "a stuck state") are next states too, by those three log entries; no rule of the spec says so. -/
def Obligations.EveryOperationHasAnOutcome : Prop :=
  ∀ (i : Instr) (s : State), cfgWf s.cfg = true → ∃ t, exec i s = .next t

/-- R331: while `HALT = 1` every host operation, whatever its code, is refused and changes nothing. -/
def Obligations.HaltedRefusesEverything : Prop :=
  ∀ (i : Instr) (s : State), cfgWf s.cfg = true → s.halt = true → exec i s = .next { s with out := .refused }

/-- R118: the reserved host operation codes are refused and change nothing. -/
def Obligations.ReservedHostCodesAreRefused : Prop :=
  ∀ (i : Instr) (s : State), i ∈ reservedHostOps → exec i s = .next { s with out := .refused }

/-- R30, R313, R314: an operation that sets `HALT` is a `PROCESS` without its handler, with the one cause. -/
def Obligations.OnlyAMissingHandlerHalts : Prop :=
  ∀ (i : Instr) (s t : State), exec i s = .next t → s.halt = false → t.halt = true →
    isProcess i = true ∧ binding s.cfg 8 = 0 ∧ t.fcause = 0x1 ∧ t.out = .faulted 0x1

/-- R333, R353: a step that clears `HALT` is a reset. -/
def Obligations.OnlyResetClearsHalt : Prop :=
  ∀ s t : State, step s = .next t → s.halt = true → t.halt = false → ∃ c rest, s.inbox = .reset c :: rest ∧ t.cfg = c

/-- R41, R352: a step that changes the configuration is a reset. -/
def Obligations.OnlyResetLoadsTheConfiguration : Prop :=
  ∀ s t : State, step s = .next t → t.cfg ≠ s.cfg → ∃ c rest, s.inbox = .reset c :: rest ∧ t.cfg = c

/-- R351, R352: what a reset leaves. The payload registers are unspecified there and not named here. -/
def Obligations.ResetLeavesTheseValues : Prop :=
  ∀ (s : State) (c : ConfigRecord) rest, s.stuck = false → s.inbox = .reset c :: rest → cfgWf c = true →
    ∃ t, step s = .next t ∧ t.req.addr = 0 ∧ t.req.fc = 0 ∧ t.req.len = 0 ∧ t.rsp.addr = 0 ∧ t.rsp.fc = 0 ∧
      t.rsp.len = 0 ∧ t.halt = false ∧ t.fcause = 0 ∧ t.cfg = c ∧ t.ds = s.ds ∧ t.xb = s.xb

/-- R49: the values the spec gives for reset, in the machine's reset state. -/
def Obligations.ResetStateValues : Prop :=
  State.reset.req.addr = 0 ∧ State.reset.req.fc = 0 ∧ State.reset.req.len = 0 ∧ State.reset.rsp.addr = 0 ∧
  State.reset.rsp.fc = 0 ∧ State.reset.rsp.len = 0 ∧ State.reset.halt = false ∧ State.reset.fcause = 0

/-- R355: a `PROCESS` directly after reset answers `(0x00, 0x80, len 1, pl 01)`, and the encoders frame the empty PDU. -/
def Obligations.FirstOperationAfterReset : Prop :=
  ∀ (s : State) (c : ConfigRecord), cfgWf c = true → Memory.wf s.xb = true →
    (binding c 8 = 2 → ∃ t, exec .process (s.construct c) = .next t ∧ t.rsp.addr = 0x00 ∧ t.rsp.fc = 0x80 ∧
      t.rsp.len = 1 ∧ t.rsp.get 0 = 0x01) ∧
    (∀ b cap, 4 ≤ cap → ∃ t, exec (.rtuEnc b cap) (s.construct c) = .next t ∧
      t.out = .completed { n := some 4 } ∧ Memory.readBytes t.xb 0 4 = [0x00, 0x00, 0x01, 0xB0]) ∧
    (∀ b cap, 9 ≤ cap → ∃ t, exec (.ascEnc b cap) (s.construct c) = .next t ∧ t.out = .completed { n := some 9 } ∧
      Memory.readBytes t.xb 0 9 = [0x3A, 0x30, 0x30, 0x30, 0x30, 0x30, 0x30, 0x0D, 0x0A])

/-- The model's choice (log 20), from R352 and R358: a configuration record a model refuses is refused at reset, and no
operation of an Instance that holds one runs. -/
def Obligations.IllFormedConfigurationIsRefused : Prop :=
  (∀ (s : State) (c : ConfigRecord) rest, s.stuck = false → s.inbox = .reset c :: rest → cfgWf c = false →
    step s = .refused .illFormedConfiguration) ∧
  ∀ (i : Instr) (s : State), cfgWf s.cfg = false → i ∉ reservedHostOps → exec i s = .refused .illFormedConfiguration

/-- R61, R43, R361 (log 12, 26): the host's load and the application's store write between two operations. The record in
force does not bound a store write: what the application builds before a reset stands in the store after it. -/
def Obligations.HostAndApplicationEvents : Prop :=
  (∀ (s : State) off bytes rest, s.stuck = false → s.inbox = .loadXb off bytes :: rest → Memory.wf s.xb = true →
    (off + bytes.length ≤ s.cfg.xbSize → ∃ m, step s = .next { s with xb := m, inbox := rest } ∧
      (∀ i (h : i < bytes.length), Memory.read m (off + i) = bytes[i]) ∧
      ∀ j, j < off ∨ off + bytes.length ≤ j → Memory.read m j = Memory.read s.xb j) ∧
    (s.cfg.xbSize < off + bytes.length → step s = .fault .xbRange)) ∧
  (∀ (s : State) k off v rest, s.stuck = false → s.inbox = .appStore k off v :: rest → Memory.wf s.ds = true →
    (off < 2 ^ 32 - 2 → ∃ m, step s = .next { s with ds := m, inbox := rest } ∧
      Memory.read m (storeKey k off) = v ∧ ∀ key, key ≠ storeKey k off → Memory.read m key = Memory.read s.ds key) ∧
    (2 ^ 32 - 2 ≤ off → step s = .fault .storeRange)) ∧
  ∀ (s : State) (c : ConfigRecord) k d off v rest, s.stuck = false → Memory.wf s.ds = true → cfgWf c = true →
    c.dps[k]? = some d → off < d.size.toNat → s.inbox = .appStore k off v :: .reset c :: rest →
    ∃ t u, step s = .next t ∧ step t = .next u ∧ u.cfg = c ∧ u.inbox = rest ∧ Memory.read u.ds (storeKey k off) = v ∧
      ∀ key, key ≠ storeKey k off → Memory.read u.ds key = Memory.read s.ds key

/-- The invariant holds after reset. -/
def Obligations.ResetMeetsTheInvariant : Prop := State.reset.Inv

/-- R23, R24, R41, R313 and the memories' canonical form: every step keeps the invariant, from every state that meets
it. -/
def Obligations.EveryStepKeepsTheInvariant : Prop :=
  ∀ s t : State, s.Inv → step s = .next t → t.Inv
end

