-- ==== Sys2Proof/Tests/Slice0.lean ====
section
/-! SUPPORT. The model's own tests: the smoke test of WellFormed, the words of the two opcode maps, one-step vectors of
95_test_vectors.md, and for each obligation with hypotheses a concrete case that meets them. -/

namespace Sys2Proof.Tests

-- One kernel evaluation at a time: each thread of its own would reserve memory for a stack and a heap.
set_option Elab.async false

open Sys2Proof Sys2Proof.Machine

/-! ## Helpers -/

/-- The state an answer holds. -/
def after : StepOut → State
  | .next t => t
  | .fault _ => State.reset
  | .refused _ => State.reset

def isNext : StepOut → Bool
  | .next _ => true
  | .fault _ => false
  | .refused _ => false

theorem eq_next {o : StepOut} (h : isNext o = true) : o = .next (after o) := by
  cases o with
  | next t => rfl
  | fault f => simp [isNext] at h
  | refused r => simp [isNext] at h

/-- The stores of 95 section 3.1 behind the machine after reset. -/
def stored : State :=
  { State.reset with
    ds := [(0, 0xF0), (1, 0xDE), (2, 0xBC), (3, 0x9A), (4, 0x78), (5, 0x56), (6, 0x34), (7, 0x12),
      (4294967296, 0x02), (4294967298, 0x01)] }

/-- The machine with a request in `REQ`. -/
def request (fc : Byte) (payload : List Byte) : State := { stored with req := Pdu.reset.load 0x11 fc payload }

/-- The machine with bytes in `XB`. -/
def loaded (bytes : List Byte) : State := { stored with xb := Memory.writeBytes [] 0 bytes }

/-- The sample configuration with one slot bound otherwise. -/
def rebound (k : Fin 9) (b : BitVec 2) : ConfigRecord := { Config.sample with slots := Config.sample.slots.set k b }

/-- `exc` and `val` of a completed operation. -/
def resultOf (s : State) : Option Result :=
  match s.out with
  | .completed r => some r
  | .idle => none
  | .faulted _ => none
  | .refused => none
  | .unfinished => none

/-- The response bank as address, function code and payload. -/
def response (s : State) : Byte × Byte × List Byte := (s.rsp.addr, s.rsp.fc, s.rsp.payload s.rsp.len.toNat)

theorem ready_of {s : State} (hc : s.cfg = Config.sample) (hh : s.halt = false) : s.Ready :=
  ⟨by rw [hc]; decide +kernel, hh⟩

theorem readyProcess_of {s : State} (hc : s.cfg = Config.sample) (hh : s.halt = false) : s.ReadyProcess :=
  ⟨ready_of hc hh, by rw [hc]; decide +kernel⟩

theorem readyProcess_rebound {s : State} (k : Fin 9) (b : BitVec 2) (hc : s.cfg = rebound k b) (hh : s.halt = false)
    (hw : cfgWf (rebound k b) = true) (hb : binding (rebound k b) 8 ≠ 0) : s.ReadyProcess :=
  ⟨⟨by rw [hc]; exact hw, hh⟩, by rw [hc]; exact hb⟩

/-! ## WellFormed -/

theorem test_wf_admits : Instr.wf 515 (.crc16 1023) = true ∧ Instr.wf 515 (.ascDec .rsp 1023) = true ∧
    Instr.wf 1024 (.lrc8 2047) = true ∧ Instr.wf 515 (.illegal 0x2B) = true := by decide +kernel
theorem test_wf_refuses_crc16 : Instr.wf 515 (.crc16 1024) = false := by decide +kernel
theorem test_wf_refuses_lrc8 : Instr.wf 515 (.lrc8 1024) = false := by decide +kernel
theorem test_wf_refuses_rtuEnc : Instr.wf 515 (.rtuEnc .req 1024) = false := by decide +kernel
theorem test_wf_refuses_rtuDec : Instr.wf 515 (.rtuDec .rsp 1024) = false := by decide +kernel
theorem test_wf_refuses_ascEnc : Instr.wf 515 (.ascEnc .req 1024) = false := by decide +kernel
theorem test_wf_refuses_ascDec : Instr.wf 515 (.ascDec .rsp 1024) = false := by decide +kernel
theorem test_wf_refuses_illegal : Instr.wf 515 (.illegal 0x03) = false := by decide +kernel

/-! ## Decoding: words written out from R113 and R111 -/

theorem test_decode_host : ([⟨0b0001, 1, 5, 6, 7⟩, ⟨0b0010, 1, 5, 6, 7⟩, ⟨0b0011, 1, 5, 6, 7⟩, ⟨0b0100, 1, 5, 6, 7⟩,
      ⟨0b0101, 1, 5, 6, 7⟩, ⟨0b0110, 0, 5, 6, 7⟩, ⟨0b0111, 0, 5, 6, 7⟩, ⟨0b1000, 1, 5, 6, 7⟩,
      ⟨0b1001, 1, 5, 6, 7⟩] : List OpWord).map decodeHostOp =
    [.crc16 5, .lrc8 5, .bufRd 6, .bufWr 6 7, .rtuEnc .rsp 5, .rtuDec .req 5, .ascEnc .req 5, .ascDec .rsp 5,
      .process] := by decide +kernel

theorem test_decode_reserved_host : ([0b0000, 0b1010, 0b1011, 0b1100, 0b1101, 0b1110, 0b1111] : List (BitVec 4)).map
      (fun op => decodeHostOp ⟨op, 0, 0, 0, 0⟩) =
    [.hostopRsvd0, .hostopRsvdA, .hostopRsvdB, .hostopRsvdC, .hostopRsvdD, .hostopRsvdE, .hostopRsvdF] := by
  decide +kernel

theorem test_decode_served : ([0b00000001, 0b00000010, 0b00000011, 0b00000100, 0b00000101, 0b00000110, 0b00001111,
      0b00010000, 0b00010111] : List Byte).map decodeFunction =
    [.rdcoils, .rddisc, .rdhold, .rdinput, .wrcoil, .wrreg, .wrcoils, .wrregs, .rwregs] := by decide +kernel

theorem test_decode_reserved : ([0b00000111, 0b00001000, 0b00001011, 0b00001100, 0b00010001, 0b00010100, 0b00010101,
      0b00010110, 0b00011000] : List Byte).map decodeFunction =
    [.rsvd07, .rsvd08, .rsvd0B, .rsvd0C, .rsvd11, .rsvd14, .rsvd15, .rsvd16, .rsvd18] := by decide +kernel

theorem test_decode_illegal : ([0b00000000, 0b00101011, 0b10000011, 0b11111111] : List Byte).map decodeFunction =
    [.illegal 0x00, .illegal 0x2B, .illegal 0x83, .illegal 0xFF] := by decide +kernel

theorem test_decode_table_words : decodeTableWord 8 0x9 = some .process ∧ decodeTableWord 4 0xF = some .hostopRsvdF ∧
    decodeTableWord 8 0x10 = some .wrregs ∧ decodeTableWord 8 0x17 = some .rwregs ∧
    decodeTableWord 8 0x2B = some (.illegal 0x2B) ∧ decodeTableWord 8 0x100 = none := by decide +kernel

/-! ## Reset and stepping -/

theorem test_reset_memories : Memory.wf State.reset.xb = true ∧ Memory.wf State.reset.ds = true ∧
    cfgWf State.reset.cfg = true := by decide +kernel

theorem test_step_runs_first : step (State.reset.withFetchWord 8 0x18) =
    exec .process { State.reset with req := { Pdu.reset with fc := 0x18 } } := by rfl

/-! ## One-step vectors of 95_test_vectors.md -/

/-- 95 section 2.1: the check value, and the entry of R132's trace. -/
theorem test_crc16 : resultOf (after (exec (.crc16 9) (loaded [0x31, 0x32, 0x33, 0x34, 0x35, 0x36, 0x37, 0x38, 0x39]))) =
    some { crc := some 0x4B37 } := by decide +kernel
theorem test_crc16_one_byte : crc16 [0x01] = 0x807E ∧ crc16 [0x01, 0x03] = 0x2140 ∧ crc16 [] = 0xFFFF := by
  decide +kernel
/-- 95 section 2.2. -/
theorem test_lrc8 : resultOf (after (exec (.lrc8 6) (loaded [0x11, 0x03, 0x00, 0x6B, 0x00, 0x03]))) =
    some { lrc := some 0x7E } := by decide +kernel
theorem test_lrc8_sums : lrc8 [0x80, 0x80] = 0x00 ∧ lrc8 [0xFF, 0xFF] = 0x02 ∧
    lrc8 [0x31, 0x32, 0x33, 0x34, 0x35, 0x36, 0x37, 0x38, 0x39] = 0x23 := by decide +kernel
/-- 95 section 3.1 and R154: descending slots, low byte first. -/
theorem test_bufRd : resultOf (after (exec (.bufRd 0x0000) stored)) = some { val := some 0x1234, exc := some 0x00 } ∧
    resultOf (after (exec (.bufRd 0x0101) stored)) = some { val := some 0x0002, exc := some 0x00 } := by decide +kernel
/-- 95 section 1.9. -/
theorem test_bufRd_fails : ((resultOf (after (exec (.bufRd 0x0004) stored))).bind Result.exc) = some 0x02 ∧
    ((resultOf (after (exec (.bufRd 0x0300) stored))).bind Result.exc) = some 0x04 := by decide +kernel
theorem test_bufWr : readSlot (after (exec (.bufWr 0x0001 0xBEEF) stored)).ds 0 4 = 0xBEEF ∧
    Memory.read (after (exec (.bufWr 0x0001 0xBEEF) stored)).ds 4 = 0xEF := by decide +kernel
theorem test_bufWr_fails : after (exec (.bufWr 0x0100 0x0001) stored) =
    { stored with out := .completed { exc := some 0x02 } } := by decide +kernel
/-- 95 section 2.4. -/
theorem test_rtuEnc : Memory.readBytes (after (exec (.rtuEnc .req 9) (request 0x03 [0x04, 0x12, 0x34, 0x56, 0x78]))).xb
    0 10 = [0x11, 0x03, 0x04, 0x12, 0x34, 0x56, 0x78, 0x90, 0xC6, 0x00] := by decide +kernel
theorem test_rtuEnc_capacity : resultOf (after (exec (.rtuEnc .req 8) (request 0x03 [0x04, 0x12, 0x34, 0x56, 0x78]))) =
    some { n := some 0 } := by decide +kernel
theorem test_rtuDec : (after (exec (.rtuDec .rsp 8) (loaded [0x11, 0x03, 0x00, 0x00, 0x00, 0x02, 0xC6, 0x9B]))) =
    { loaded [0x11, 0x03, 0x00, 0x00, 0x00, 0x02, 0xC6, 0x9B] with
      rsp := Pdu.reset.load 0x11 0x03 [0x00, 0x00, 0x00, 0x02], out := .completed { ok := some true } } := by
  decide +kernel
theorem test_rtuDec_swapped_trailer :
    (after (exec (.rtuDec .req 8) (loaded [0x11, 0x03, 0x00, 0x00, 0x00, 0x02, 0x9B, 0xC6]))).out =
      .completed { ok := some false } ∧
    (after (exec (.rtuDec .req 8) (loaded [0x11, 0x03, 0x00, 0x00, 0x00, 0x02, 0x9B, 0xC6]))).req.len = 4 := by
  decide +kernel
/-- 95 section 1.12 and 1.2. -/
theorem test_ascEnc : Memory.readBytes (after (exec (.ascEnc .req 17) (request 0x03 [0x00, 0x6B, 0x00, 0x03]))).xb
    0 17 = [0x3A, 0x31, 0x31, 0x30, 0x33, 0x30, 0x30, 0x36, 0x42, 0x30, 0x30, 0x30, 0x33, 0x37, 0x45, 0x0D, 0x0A] := by
  decide +kernel
theorem test_ascDec : (after (exec (.ascDec .req 15) (loaded [0x3A, 0x31, 0x31, 0x32, 0x42, 0x30, 0x45, 0x30, 0x31, 0x30,
      0x30, 0x42, 0x35, 0x0D, 0x0A]))).req = Pdu.reset.load 0x11 0x2B [0x0E, 0x01, 0x00] := by decide +kernel
/-- A lower-case digit (R198), and a wrong LRC (R199). -/
theorem test_ascDec_refuses :
    resultOf (after (exec (.ascDec .req 9) (loaded [0x3A, 0x31, 0x31, 0x30, 0x37, 0x65, 0x38, 0x0D, 0x0A]))) =
      some { ok := some false } ∧
    resultOf (after (exec (.ascDec .req 9) (loaded [0x3A, 0x31, 0x31, 0x30, 0x37, 0x45, 0x39, 0x0D, 0x0A]))) =
      some { ok := some false } := by decide +kernel
/-- 95 section 1.10 through `PROCESS`, and section 3.5: the fatal fault. -/
theorem test_process : response (after (exec .process (request 0x2B [0x0E, 0x01, 0x00]))) = (0x11, 0xAB, [0x01]) := by
  decide +kernel
theorem test_process_fatal :
    after (exec .process { request 0x03 [0x00, 0x00, 0x00, 0x02] with cfg := rebound 8 0 }) =
      { request 0x03 [0x00, 0x00, 0x00, 0x02] with
        cfg := rebound 8 0, halt := true, fcause := 1, calls := [Call.faultHook 1], out := .faulted 1 } := by
  decide +kernel
theorem test_reserved_host_refused : exec .hostopRsvd0 stored = .next { stored with out := .refused } ∧
    exec .hostopRsvdA stored = .next { stored with out := .refused } ∧
    exec .hostopRsvdB stored = .next { stored with out := .refused } ∧
    exec .hostopRsvdC stored = .next { stored with out := .refused } ∧
    exec .hostopRsvdD stored = .next { stored with out := .refused } ∧
    exec .hostopRsvdE stored = .next { stored with out := .refused } ∧
    exec .hostopRsvdF stored = .next { stored with out := .refused } := ⟨rfl, rfl, rfl, rfl, rfl, rfl, rfl⟩
/-- 95 section 3.4, exchange 1: ten coils of an application that answers 1, 0, 1, 0, ... -/
theorem test_rdcoils : response (after (exec .rdcoils { request 0x01 [0x00, 0x00, 0x00, 0x0A] with
    appReads := (List.range 10).map fun i => ReadAnswer.returns (if i % 2 = 0 then 1 else 0) 0x00 })) =
      (0x11, 0x01, [0x02, 0x55, 0x01]) := by decide +kernel
theorem test_rdcoils_zero : response (after (exec .rdcoils (request 0x01 [0x00, 0x00, 0x00, 0x00]))) =
    (0x11, 0x81, [0x03]) := by decide +kernel
/-- `RDDISC` with slots 1 and 6 unbound is delegated (R226). -/
theorem test_rddisc : (after (exec .rddisc (request 0x02 [0x00, 0x00, 0x00, 0x01]))).calls =
    [Call.generic (request 0x02 [0x00, 0x00, 0x00, 0x01]).req { Pdu.reset with addr := 0x11, fc := 0x02 }] := by
  decide +kernel
/-- 95 section 1.5 and 1.8. -/
theorem test_rdhold : response (after (exec .rdhold (request 0x03 [0x00, 0x00, 0x00, 0x02]))) =
    (0x11, 0x03, [0x04, 0x12, 0x34, 0x56, 0x78]) := by decide +kernel
theorem test_rdhold_aborts : response (after (exec .rdhold (request 0x03 [0x00, 0x03, 0x00, 0x02]))) =
    (0x11, 0x83, [0x02]) := by decide +kernel
theorem test_rdinput : response (after (exec .rdinput (request 0x04 [0x01, 0x00, 0x00, 0x02]))) =
    (0x11, 0x04, [0x04, 0x00, 0x01, 0x00, 0x02]) := by decide +kernel
/-- `RWREGS` is served by the generic read slot (R263). -/
theorem test_rwregs : response (after (exec .rwregs
      { request 0x17 [0x00, 0x00, 0x00, 0x01] with cfg := rebound 6 Config.buffer })) =
    (0x11, 0x17, [0x02, 0x12, 0x34]) := by decide +kernel
/-- 95 section 1.6 and 2.6. -/
theorem test_wrcoil : response (after (exec .wrcoil
      { request 0x05 [0x00, 0xAC, 0xFF, 0x00] with appWrites := [.returns 0x00] })) =
    (0x11, 0x05, [0x00, 0xAC, 0xFF, 0x00]) := by decide +kernel
theorem test_wrcoil_value : response (after (exec .wrcoil (request 0x05 [0x00, 0xAC, 0x12, 0x34]))) =
    (0x11, 0x85, [0x03]) := by decide +kernel
theorem test_wrreg : response (after (exec .wrreg (request 0x06 [0x00, 0x01, 0xBE, 0xEF]))) =
      (0x11, 0x06, [0x00, 0x01, 0xBE, 0xEF]) ∧
    readSlot (after (exec .wrreg (request 0x06 [0x00, 0x01, 0xBE, 0xEF]))).ds 0 4 = 0xBEEF := by decide +kernel
/-- 95 section 3.4, exchanges 2 and 3. -/
theorem test_wrcoils : (after (exec .wrcoils { request 0x0F [0x00, 0x13, 0x00, 0x07, 0x01, 0x4D] with
      appWrites := List.replicate 7 (.returns 0x00) })).calls =
    [Call.write 4 0x0F 0x0013 0xFF00, Call.write 4 0x0F 0x0014 0x0000, Call.write 4 0x0F 0x0015 0xFF00,
     Call.write 4 0x0F 0x0016 0xFF00, Call.write 4 0x0F 0x0017 0x0000, Call.write 4 0x0F 0x0018 0x0000,
     Call.write 4 0x0F 0x0019 0xFF00] := by decide +kernel
theorem test_wrcoils_count : response (after (exec .wrcoils (request 0x0F [0x00, 0x13, 0x00, 0x0A, 0x02, 0xCD, 0x01]))) =
    (0x11, 0x8F, [0x03]) := by decide +kernel
/-- 95 section 3.2 and section 3.3, exchange 4: the first write stays. -/
theorem test_wrregs : response (after (exec .wrregs
      (request 0x10 [0x00, 0x02, 0x00, 0x02, 0x04, 0x0A, 0x0B, 0x0C, 0x0D]))) =
    (0x11, 0x10, [0x00, 0x02, 0x00, 0x02]) := by decide +kernel
theorem test_wrregs_aborts : Memory.readBytes (after (exec .wrregs
      (request 0x10 [0x00, 0x03, 0x00, 0x02, 0x04, 0x01, 0x02, 0x03, 0x04]))).ds 0 4 = [0x02, 0x01, 0xBC, 0x9A] := by
  decide +kernel
theorem test_illegal_codes : ([.rsvd07, .rsvd08, .rsvd0B, .rsvd0C, .rsvd11, .rsvd14, .rsvd15, .rsvd16, .rsvd18,
      .illegal 0x2B] : List Instr).map (fun i => response (after (exec i (request 0x07 [0x00])))) =
    List.replicate 10 (0x11, 0x87, [0x01]) := by decide +kernel

/-! ## A case for each obligation with hypotheses -/

theorem witness_DecodeEncodeAgree : Instr.wf 515 (.rtuEnc .req 515) = true := by decide +kernel

theorem witness_StepRunsIssuedOperation :
    State.reset.stuck = false ∧ State.reset.inbox = [] ∧ Instr.wf 515 (.rtuEnc .rsp 515) = true ∧
    ({ State.reset with inbox := [.issue ⟨0x5, 1, 515, 0, 0⟩] } : State).inbox = .issue ⟨0x5, 1, 515, 0, 0⟩ :: [] ∧
    encode (.rtuEnc .rsp 515) = .hostOp ⟨0x5, 1, 515, 0, 0⟩ := by decide +kernel

theorem witness_ChecksumOperations : State.reset.Ready ∧ 515 ≤ State.reset.cfg.xbSize ∧ 0 ≤ State.reset.cfg.xbSize :=
  ⟨ready_of rfl rfl, by decide +kernel⟩

theorem witness_ChecksumBeyondTheBuffer : State.reset.Ready ∧ State.reset.cfg.xbSize < 516 :=
  ⟨ready_of rfl rfl, by decide +kernel⟩

theorem witness_LrcCheckForm : ∃ h : 1 < ([0x11, 0x07] : List Byte).length, (0x08 : Byte) ≠ [0x11, 0x07][1] :=
  ⟨by decide, by decide⟩

theorem inRange_iff (d : Datapoint) (a : Word) : dpContains d a = true ↔ InRange d a := by
  simp only [dpContains, InRange, Bool.and_eq_true, decide_eq_true_eq]
  omega

/-- An address in no range, just above the first datapoint. -/
theorem witness_unmapped : ∀ d ∈ State.reset.cfg.dps, ¬ InRange d 0x0004 := by
  intro d hd h
  rw [← inRange_iff] at h
  revert d
  decide +kernel

/-- The last address of the first two datapoints, and the only one of the others, with their modes. -/
theorem witness_ranges : State.reset.Ready ∧ Memory.wf stored.ds = true ∧ State.reset.cfg.dps = Config.sample.dps ∧
    (InRange ⟨0x0000, 2, 8, 0⟩ 0x0003 ∧ InRange ⟨0x0000, 2, 8, 0⟩ 0x0000) ∧
    (InRange ⟨0x0100, 0, 4, 1⟩ 0x0101 ∧ ¬ InRange ⟨0x0000, 2, 8, 0⟩ 0x0101) ∧
    (InRange ⟨0x0200, 1, 2, 2⟩ 0x0200 ∧ ¬ InRange ⟨0x0000, 2, 8, 0⟩ 0x0200 ∧ ¬ InRange ⟨0x0100, 0, 4, 1⟩ 0x0200) ∧
    (InRange ⟨0x0300, 3, 2, 3⟩ 0x0300 ∧ ¬ InRange ⟨0x0000, 2, 8, 0⟩ 0x0300 ∧ ¬ InRange ⟨0x0100, 0, 4, 1⟩ 0x0300 ∧
      ¬ InRange ⟨0x0200, 1, 2, 2⟩ 0x0300) := by
  refine ⟨ready_of rfl rfl, by decide +kernel, rfl, ?_⟩
  simp only [← inRange_iff]
  decide +kernel

/-- The hypotheses of BufRdFollowsTheTable and BufWrFollowsTheTable: one case for each clause. -/
theorem witness_BufFollowsTheTable :
    Config.sample.dps = [] ++ ⟨0x0000, 2, 8, 0⟩ :: Config.sample.dps.drop 1 ∧
    Config.sample.dps = Config.sample.dps.take 1 ++ ⟨0x0100, 0, 4, 1⟩ :: Config.sample.dps.drop 2 ∧
    Config.sample.dps = Config.sample.dps.take 2 ++ ⟨0x0200, 1, 2, 2⟩ :: Config.sample.dps.drop 3 ∧
    Config.sample.dps = Config.sample.dps.take 3 ++ ⟨0x0300, 3, 2, 3⟩ :: [] := by decide +kernel

theorem witness_BufWriteReadsBack : stored.Ready ∧ Memory.wf stored.ds = true ∧
    resolve stored.cfg 0x0003 = some (0, ⟨0x0000, 2, 8, 0⟩) :=
  ⟨ready_of rfl rfl, by decide +kernel, by decide +kernel⟩

theorem witness_AccessesStayInTheirStore : cfgWf Config.sample = true ∧
    locate Config.sample .read 0x0003 = .hit 0 0 ∧ locate Config.sample .read 0x0000 = .hit 0 6 ∧
    locate Config.sample .read 0x0101 = .hit 1 0 := by decide +kernel

/-- A bank with the greatest payload, one with none, and one that cannot be framed. -/
theorem witness_RtuEncodeWritesTheFrame : stored.Ready ∧ Memory.wf stored.xb = true ∧
    (stored.bank .rsp).len.toNat + 4 ≤ 4 ∧ 3 < (stored.bank .rsp).len.toNat + 4 ∧
    ((request 0x03 (List.replicate 253 0xA5)).bank .req).len.toNat = 253 ∧
    253 < ({ Pdu.reset with len := 254 } : Pdu).len.toNat :=
  ⟨ready_of rfl rfl, by decide +kernel⟩

theorem witness_RtuDecodeExtractsTheFields : (loaded [0x11, 0x07, 0x00, 0x23, 0xF5]).Ready := ready_of rfl rfl

/-- An encode and the state it leaves, for the round trip and the corruption. -/
theorem witness_RtuRoundTrip : (request 0x07 [0x01]).Ready ∧ Memory.wf (request 0x07 [0x01]).xb = true ∧
    exec (.rtuEnc .req 257) (request 0x07 [0x01]) = .next (after (exec (.rtuEnc .req 257) (request 0x07 [0x01]))) ∧
    (after (exec (.rtuEnc .req 257) (request 0x07 [0x01]))).out = .completed { n := some 5 } ∧
    1 ≤ ((request 0x07 [0x01]).bank .req).len.toNat ∧
    Memory.read (after (exec (.rtuEnc .req 257) (request 0x07 [0x01]))).xb 4 ≠ 0x00 :=
  ⟨ready_of rfl rfl, by decide +kernel, eq_next (by decide +kernel), by decide +kernel, by decide +kernel,
    by decide +kernel⟩

/-- The empty payload: the frame of 4 bytes. -/
theorem witness_RtuRoundTrip_empty :
    exec (.rtuEnc .req 4) (request 0x07 []) = .next (after (exec (.rtuEnc .req 4) (request 0x07 []))) ∧
    (after (exec (.rtuEnc .req 4) (request 0x07 []))).out = .completed { n := some 4 } ∧
    ((request 0x07 []).bank .req).len.toNat = 0 :=
  ⟨eq_next (by decide +kernel), by decide +kernel, by decide +kernel⟩

theorem witness_AsciiEncodeWritesTheFrame : stored.Ready ∧ Memory.wf stored.xb = true ∧
    2 * (stored.bank .rsp).len.toNat + 9 ≤ 9 ∧ 8 < 2 * (stored.bank .rsp).len.toNat + 9 :=
  ⟨ready_of rfl rfl, by decide +kernel⟩

/-- A frame with a lower-case digit. -/
theorem witness_AsciiDecodeRefusesBadFrames :
    (loaded [0x3A, 0x31, 0x31, 0x30, 0x37, 0x65, 0x38, 0x0D, 0x0A]).Ready ∧
    hexVal (Memory.read (loaded [0x3A, 0x31, 0x31, 0x30, 0x37, 0x65, 0x38, 0x0D, 0x0A]).xb 5) = none ∧ 5 ≤ 9 - 3 :=
  ⟨ready_of rfl rfl, by decide +kernel⟩

/-- The shortest frame, `:1107E8`. -/
theorem witness_AsciiDecodeExtractsTheFields :
    (loaded [0x3A, 0x31, 0x31, 0x30, 0x37, 0x45, 0x38, 0x0D, 0x0A]).Ready ∧
    9 = 2 * ([0x11, 0x07] : List Byte).length + 5 ∧
    Memory.readBytes (loaded [0x3A, 0x31, 0x31, 0x30, 0x37, 0x45, 0x38, 0x0D, 0x0A]).xb 0 1 = [0x3A] ∧
    Memory.readBytes (loaded [0x3A, 0x31, 0x31, 0x30, 0x37, 0x45, 0x38, 0x0D, 0x0A]).xb 7 2 = [0x0D, 0x0A] ∧
    Memory.readBytes (loaded [0x3A, 0x31, 0x31, 0x30, 0x37, 0x45, 0x38, 0x0D, 0x0A]).xb 1 (9 - 3) =
      hexBytes ([0x11, 0x07] ++ [0xE8]) :=
  ⟨ready_of rfl rfl, by decide +kernel⟩

theorem witness_AsciiRoundTrip : (request 0x07 []).Ready ∧ Memory.wf (request 0x07 []).xb = true ∧
    exec (.ascEnc .req 9) (request 0x07 []) = .next (after (exec (.ascEnc .req 9) (request 0x07 []))) ∧
    (after (exec (.ascEnc .req 9) (request 0x07 []))).out = .completed { n := some 9 } ∧
    Memory.read (after (exec (.ascEnc .req 9) (request 0x07 []))).xb 8 ≠ 0x0D :=
  ⟨ready_of rfl rfl, by decide +kernel, eq_next (by decide +kernel), by decide +kernel, by decide +kernel⟩

theorem witness_MissingHandlerIsFatal : isProcess .rdcoils = true ∧ isProcess .process = true ∧
    ({ stored with cfg := rebound 8 0 } : State).Ready ∧ binding (rebound 8 0) 8 = 0 :=
  ⟨rfl, rfl, ⟨by decide +kernel, rfl⟩, by decide +kernel⟩

theorem witness_IllegalFunctionResponse : stored.ReadyProcess ∧ isIllegal .rsvd18 = true ∧ isIllegal (.illegal 0) = true ∧
    stored.req.fc ∉ ([0x01, 0x02, 0x03, 0x04, 0x05, 0x06, 0x0F, 0x10, 0x17] : List Byte) :=
  ⟨readyProcess_of rfl rfl, rfl, rfl, by decide +kernel⟩

theorem witness_WrongSizeResponse : (request 0x03 [0x00]).ReadyProcess ∧
    (⟨.rdhold, some 2, 6, .register⟩ : FunctionRow) ∈ readRows ++ writeSingleRows ∧ (request 0x03 [0x00]).req.len ≠ 4 ∧
    (⟨.wrregs, some 5, 7, .register⟩ : FunctionRow) ∈ writeMultipleRows ∧
    (request 0x10 [0x00, 0x00, 0x00, 0x01]).req.len.toNat < 5 :=
  ⟨readyProcess_of rfl rfl, by decide +kernel⟩

theorem witness_HandlerOrder : binding Config.sample 0 ≠ 0 ∧
    (binding (rebound 6 1) 1 = 0 ∧ binding (rebound 6 1) 6 ≠ 0) ∧
    (binding Config.sample 1 = 0 ∧ binding Config.sample 6 = 0) := by decide +kernel

theorem witness_UnservedRequestsAreDelegated :
    ({ request 0x02 [0x00, 0x00, 0x00, 0x01] with appGenerics := [.leaves Pdu.reset] } : State).ReadyProcess ∧
    (⟨.rddisc, some 1, 6, .bit⟩ : FunctionRow) ∈ readRows ++ writeSingleRows ∧
    (request 0x02 [0x00, 0x00, 0x00, 0x01]).req.len = 4 ∧
    (∀ k, some 1 = some k → binding Config.sample k = 0) ∧ binding Config.sample 6 = 0 ∧
    (binding (rebound 4 0) 4 = 0 ∧ binding (rebound 4 0) 7 = 0 ∧
      5 ≤ (request 0x0F [0x00, 0x13, 0x00, 0x00, 0x00]).req.len.toNat) :=
  ⟨readyProcess_of rfl rfl, by decide +kernel, by decide +kernel,
    fun k h => by rw [← Option.some.inj h]; decide +kernel, by decide +kernel⟩

/-- Quantities 0 and one above each maximum. -/
theorem witness_ReadQuantityIsChecked : stored.ReadyProcess ∧ (request 0x01 [0x00, 0x00, 0x00, 0x00]).req.len = 4 ∧
    (choose Config.sample (some 0) 6 = some 0 ∧ binding Config.sample 0 = 2) ∧
    (choose Config.sample (some 2) 6 = some 2 ∧ binding Config.sample 2 = 1) ∧
    (request 0x01 [0x00, 0x00, 0x00, 0x00]).quantity.toNat = 0 ∧
    Config.sample.bitReadMax < (request 0x01 [0x00, 0x00, 0x07, 0xD1]).quantity.toNat ∧
    Config.sample.regReadMax < (request 0x03 [0x00, 0x00, 0x00, 0x7E]).quantity.toNat :=
  ⟨readyProcess_of rfl rfl, by decide +kernel⟩

theorem witness_CoilValueIsChecked : (request 0x05 [0x00, 0xAC, 0x12, 0x34]).ReadyProcess ∧
    Serves (request 0x05 [0x00, 0xAC, 0x12, 0x34]) ⟨.wrcoil, some 4, 7, .bit⟩ 4 2 ∧
    (request 0x05 [0x00, 0xAC, 0x12, 0x34]).req.len = 4 ∧
    (request 0x05 [0x00, 0xAC, 0x12, 0x34]).quantity ≠ Config.sample.coilOn ∧
    (request 0x05 [0x00, 0xAC, 0x12, 0x34]).quantity ≠ Config.sample.coilOff :=
  ⟨readyProcess_of rfl rfl, ⟨by decide +kernel, by decide +kernel⟩, by decide +kernel⟩

theorem witness_WriteMultipleCountIsChecked :
    (request 0x0F [0x00, 0x13, 0x00, 0x0A, 0x02, 0xCD, 0x01]).ReadyProcess ∧
    Serves (request 0x0F [0x00, 0x13, 0x00, 0x0A, 0x02, 0xCD, 0x01]) ⟨.wrcoils, some 4, 7, .bit⟩ 4 2 ∧
    5 ≤ (request 0x0F [0x00, 0x13, 0x00, 0x0A, 0x02, 0xCD, 0x01]).req.len.toNat ∧
    ¬ (request 0x0F [0x00, 0x13, 0x00, 0x0A, 0x02, 0xCD, 0x01]).CountOk .bit :=
  ⟨readyProcess_of rfl rfl, ⟨by decide +kernel, by decide +kernel⟩, by decide +kernel,
    by rw [← coilCountOk_iff]; decide +kernel⟩

/-- The two registers of 95 section 1.5. -/
theorem witness_RegisterReadFromTheBuffer : (request 0x03 [0x00, 0x00, 0x00, 0x02]).ReadyProcess ∧
    (⟨.rdhold, some 2, 6, .register⟩ : FunctionRow) ∈ registerReadRows ∧
    Serves (request 0x03 [0x00, 0x00, 0x00, 0x02]) ⟨.rdhold, some 2, 6, .register⟩ 2 1 ∧
    (request 0x03 [0x00, 0x00, 0x00, 0x02]).quantity.toNat = ([0x1234, 0x5678] : List Word).length ∧
    (request 0x03 [0x00, 0x00, 0x00, 0x02]).Holds ((request 0x03 [0x00, 0x00, 0x00, 0x02]).item 0) 0x1234 ∧
    (request 0x03 [0x00, 0x00, 0x00, 0x02]).Holds ((request 0x03 [0x00, 0x00, 0x00, 0x02]).item 1) 0x5678 :=
  ⟨readyProcess_of rfl rfl, by decide +kernel, ⟨by decide +kernel, by decide +kernel⟩, by decide +kernel,
    ⟨0, 6, by decide +kernel, by decide +kernel⟩, ⟨0, 4, by decide +kernel, by decide +kernel⟩⟩

/-- One register of an application that slot 2 is bound to. -/
def oneRegister : State :=
  { request 0x03 [0xFF, 0xFF, 0x00, 0x01] with cfg := rebound 2 2, appReads := [.returns 0x1234 0x00] }

theorem witness_RegisterReadFromTheApplication : oneRegister.ReadyProcess ∧
    (⟨.rdhold, some 2, 6, .register⟩ : FunctionRow) ∈ registerReadRows ∧ oneRegister.req.len = 4 ∧
    Serves oneRegister ⟨.rdhold, some 2, 6, .register⟩ 2 2 ∧
    oneRegister.quantity.toNat = ([0x1234] : List Word).length ∧ 1 ≤ oneRegister.cfg.regReadMax ∧
    oneRegister.appReads = ([0x1234] : List Word).map (fun v => ReadAnswer.returns v 0x00) ++ [] :=
  ⟨readyProcess_rebound 2 2 rfl rfl (by decide +kernel) (by decide +kernel), by decide +kernel, by decide +kernel,
    ⟨by decide +kernel, by decide +kernel⟩, by decide +kernel⟩

/-- One coil through the Register Buffer. -/
def oneCoil : State := { request 0x01 [0x00, 0x00, 0x00, 0x01] with cfg := rebound 0 1 }

theorem witness_BitReadFromTheBuffer : oneCoil.ReadyProcess ∧
    (⟨.rdcoils, some 0, 6, .bit⟩ : FunctionRow) ∈ bitReadRows ∧ oneCoil.req.len = 4 ∧
    Serves oneCoil ⟨.rdcoils, some 0, 6, .bit⟩ 0 1 ∧
    oneCoil.quantity.toNat = ([0x1234] : List Word).length ∧ 1 ≤ oneCoil.cfg.bitReadMax ∧
    ∀ i (h : i < ([0x1234] : List Word).length), oneCoil.Holds (oneCoil.item i) ([0x1234] : List Word)[i] :=
  ⟨readyProcess_rebound 0 1 rfl rfl (by decide +kernel) (by decide +kernel), by decide +kernel, by decide +kernel,
    ⟨by decide +kernel, by decide +kernel⟩, by decide +kernel, by decide +kernel,
    fun | 0, _ => ⟨0, 6, by decide +kernel, show readSlot oneCoil.ds 0 6 = 0x1234 by decide +kernel⟩⟩

/-- Two coils of the application that slot 0 is bound to, with these answers to come. -/
def twoCoils (answers : List ReadAnswer) : State :=
  { request 0x01 [0xFF, 0xFF, 0x00, 0x02] with appReads := answers }

/-- For BitReadFromTheApplication, FailingReadAborts and SilentCallbackNeverEnds. -/
theorem witness_reads_from_the_application (answers : List ReadAnswer) : (twoCoils answers).ReadyProcess ∧
    Serves (twoCoils answers) ⟨.rdcoils, some 0, 6, .bit⟩ 0 2 :=
  ⟨readyProcess_of rfl rfl, by show choose Config.sample _ _ = _; decide +kernel,
    by show binding Config.sample 0 = 2; decide +kernel⟩

theorem witness_BitReadFromTheApplication : (⟨.rdcoils, some 0, 6, .bit⟩ : FunctionRow) ∈ bitReadRows ∧
    (twoCoils [.returns 1 0x00, .returns 0 0x00]).req.len = 4 ∧
    (twoCoils [.returns 1 0x00, .returns 0 0x00]).quantity.toNat = ([1, 0] : List Word).length ∧
    (twoCoils [.returns 1 0x00, .returns 0 0x00]).appReads =
      ([1, 0] : List Word).map (fun v => ReadAnswer.returns v 0x00) ++ [] := by decide +kernel

theorem witness_FailingReadAborts : (⟨.rdcoils, some 0, 6, .bit⟩ : FunctionRow) ∈ readRows ∧
    (twoCoils [.returns 1 0x00, .returns 0 0x04]).req.len = 4 ∧
    ([1] : List Word).length < (twoCoils [.returns 1 0x00, .returns 0 0x04]).quantity.toNat ∧
    (twoCoils [.returns 1 0x00, .returns 0 0x04]).quantity.toNat ≤ readMax Config.sample .bit ∧
    (twoCoils [.returns 1 0x00, .returns 0 0x04]).appReads =
      ([1] : List Word).map (fun v => ReadAnswer.returns v 0x00) ++ .returns 0 0x04 :: [] := by decide +kernel

theorem witness_SilentCallbackNeverEnds : (⟨.rdcoils, some 0, 6, .bit⟩ : FunctionRow) ∈ readRows ∧
    (twoCoils [.returns 1 0x00, .never]).req.len = 4 ∧
    ([1] : List Word).length < (twoCoils [.returns 1 0x00, .never]).quantity.toNat ∧
    (twoCoils [.returns 1 0x00, .never]).quantity.toNat ≤ readMax Config.sample .bit ∧
    (twoCoils [.returns 1 0x00, .never]).appReads =
      ([1] : List Word).map (fun v => ReadAnswer.returns v 0x00) ++ .never :: [] ∧
    ({ stored with stuck := true } : State).stuck = true := by decide +kernel

/-- For the clause of SilentCallbackNeverEnds about the generic-function handler. -/
theorem witness_SilentCallbackNeverEnds_handler :
    ({ request 0x02 [0x00, 0x00, 0x00, 0x01] with appGenerics := [.never Pdu.reset] } : State).ReadyProcess ∧
    (⟨.rddisc, some 1, 6, .bit⟩ : FunctionRow) ∈ readRows ++ writeSingleRows ∧
    (request 0x02 [0x00, 0x00, 0x00, 0x01]).req.len = 4 ∧
    (∀ k, some 1 = some k → binding Config.sample k = 0) ∧ binding Config.sample 6 = 0 :=
  ⟨readyProcess_of rfl rfl, by decide +kernel, by decide +kernel,
    fun k h => by rw [← Option.some.inj h]; decide +kernel, by decide +kernel⟩

/-- Addresses 3 and 4: the second is in no range. -/
theorem witness_FailingBufferReadAborts : (request 0x03 [0x00, 0x03, 0x00, 0x02]).ReadyProcess ∧
    (⟨.rdhold, some 2, 6, .register⟩ : FunctionRow) ∈ readRows ∧ (request 0x03 [0x00, 0x03, 0x00, 0x02]).req.len = 4 ∧
    Serves (request 0x03 [0x00, 0x03, 0x00, 0x02]) ⟨.rdhold, some 2, 6, .register⟩ 2 1 ∧
    1 < (request 0x03 [0x00, 0x03, 0x00, 0x02]).quantity.toNat ∧
    (∀ i, i < 1 → ∃ k off, locate Config.sample .read ((request 0x03 [0x00, 0x03, 0x00, 0x02]).item i) = .hit k off) ∧
    locate Config.sample .read ((request 0x03 [0x00, 0x03, 0x00, 0x02]).item 1) = .fails 0x02 :=
  ⟨readyProcess_of rfl rfl, by decide +kernel, by decide +kernel, ⟨by decide +kernel, by decide +kernel⟩,
    by decide +kernel, fun | 0, _ => ⟨0, 0, by decide +kernel⟩, by decide +kernel⟩

theorem witness_WriteSingleToTheBuffer : (request 0x06 [0x00, 0x01, 0xBE, 0xEF]).ReadyProcess ∧
    (⟨.wrreg, some 5, 7, .register⟩ : FunctionRow) ∈ writeSingleRows ∧
    Serves (request 0x06 [0x00, 0x01, 0xBE, 0xEF]) ⟨.wrreg, some 5, 7, .register⟩ 5 1 ∧
    Memory.wf stored.ds = true ∧ (request 0x06 [0x00, 0x01, 0xBE, 0xEF]).req.len = 4 ∧ Kind.register ≠ .bit ∧
    locate Config.sample .write ((request 0x06 [0x00, 0x01, 0xBE, 0xEF]).item 0) = .hit 0 4 ∧
    locate Config.sample .write ((request 0x06 [0x01, 0x00, 0x00, 0x01]).item 0) = .fails 0x02 :=
  ⟨readyProcess_of rfl rfl, by decide +kernel, ⟨by decide +kernel, by decide +kernel⟩, by decide +kernel⟩

/-- For WriteSingleToTheApplication and the second clause of FailingWriteSingle. -/
theorem witness_WriteSingleToTheApplication : (request 0x05 [0x00, 0xAC, 0xFF, 0x00]).ReadyProcess ∧
    (⟨.wrcoil, some 4, 7, .bit⟩ : FunctionRow) ∈ writeSingleRows ∧
    Serves (request 0x05 [0x00, 0xAC, 0xFF, 0x00]) ⟨.wrcoil, some 4, 7, .bit⟩ 4 2 ∧
    (request 0x05 [0x00, 0xAC, 0xFF, 0x00]).quantity = Config.sample.coilOn ∧
    (request 0x05 [0x00, 0xAC, 0x00, 0x00]).quantity = Config.sample.coilOff :=
  ⟨readyProcess_of rfl rfl, by decide +kernel, ⟨by decide +kernel, by decide +kernel⟩, by decide +kernel⟩

/-- For WriteMultipleToTheBuffer; starting at 3 instead, the second item is in no range, for
FailingWriteMultipleKeepsEarlierItems. -/
theorem witness_WriteMultipleToTheBuffer :
    (request 0x10 [0x00, 0x02, 0x00, 0x02, 0x04, 0x0A, 0x0B, 0x0C, 0x0D]).ReadyProcess ∧
    (⟨.wrregs, some 5, 7, .register⟩ : FunctionRow) ∈ writeMultipleRows ∧
    Serves (request 0x10 [0x00, 0x02, 0x00, 0x02, 0x04, 0x0A, 0x0B, 0x0C, 0x0D]) ⟨.wrregs, some 5, 7, .register⟩ 5 1 ∧
    (request 0x10 [0x00, 0x02, 0x00, 0x02, 0x04, 0x0A, 0x0B, 0x0C, 0x0D]).CountOk .register ∧
    locate Config.sample .write
      ((request 0x10 [0x00, 0x02, 0x00, 0x02, 0x04, 0x0A, 0x0B, 0x0C, 0x0D]).item 0) = .hit 0 2 ∧
    locate Config.sample .write
      ((request 0x10 [0x00, 0x02, 0x00, 0x02, 0x04, 0x0A, 0x0B, 0x0C, 0x0D]).item 1) = .hit 0 0 ∧
    locate Config.sample .write
      ((request 0x10 [0x00, 0x03, 0x00, 0x02, 0x04, 0x01, 0x02, 0x03, 0x04]).item 1) = .fails 0x02 :=
  ⟨readyProcess_of rfl rfl, by decide +kernel, ⟨by decide +kernel, by decide +kernel⟩,
    by rw [← registerCountOk_iff]; decide +kernel, by decide +kernel⟩

/-- For WriteMultipleToTheApplication and FailingWriteMultipleAborts: 7 coils, and the least count a byte count of 1
admits is the same 7 (R289). -/
theorem witness_WriteMultipleToTheApplication :
    (request 0x0F [0x00, 0x13, 0x00, 0x07, 0x01, 0x4D]).ReadyProcess ∧
    (⟨.wrcoils, some 4, 7, .bit⟩ : FunctionRow) ∈ writeMultipleRows ∧
    Serves (request 0x0F [0x00, 0x13, 0x00, 0x07, 0x01, 0x4D]) ⟨.wrcoils, some 4, 7, .bit⟩ 4 2 ∧
    (request 0x0F [0x00, 0x13, 0x00, 0x07, 0x01, 0x4D]).CountOk .bit ∧
    5 ≤ (request 0x0F [0x00, 0x13, 0x00, 0x07, 0x01, 0x4D]).req.len.toNat ∧
    3 < (request 0x0F [0x00, 0x13, 0x00, 0x07, 0x01, 0x4D]).quantity.toNat :=
  ⟨readyProcess_of rfl rfl, by decide +kernel, ⟨by decide +kernel, by decide +kernel⟩,
    by rw [← coilCountOk_iff]; decide +kernel, by decide +kernel⟩

theorem witness_ProcessAlwaysCompletes : isProcess .process = true ∧ State.reset.ReadyProcess ∧
    (∀ x ∈ State.reset.appReads, x ≠ .never) ∧ (∀ x ∈ State.reset.appWrites, x ≠ .never) ∧
    (∀ x ∈ State.reset.appGenerics, ∀ p, x ≠ .never p) :=
  ⟨rfl, readyProcess_of rfl rfl, nofun, nofun, nofun⟩

theorem witness_ProcessFrame : isProcess .rdhold = true ∧
    exec .rdhold (request 0x03 [0x00, 0x00, 0x00, 0x02]) =
      .next (after (exec .rdhold (request 0x03 [0x00, 0x00, 0x00, 0x02]))) ∧
    (∃ r ∈ readRows, Instr.rdhold = r.instr) ∧ isIllegal .rsvd07 = true :=
  ⟨rfl, eq_next (by decide +kernel), ⟨⟨.rdhold, some 2, 6, .register⟩, by decide +kernel, rfl⟩, rfl⟩

theorem witness_CoreRaisesOnlyFourCodes : (request 0x03 [0x03, 0x00, 0x00, 0x01]).ReadyProcess ∧
    exec .process (request 0x03 [0x03, 0x00, 0x00, 0x01]) =
      .next (after (exec .process (request 0x03 [0x03, 0x00, 0x00, 0x01]))) ∧
    (after (exec .process (request 0x03 [0x03, 0x00, 0x00, 0x01]))).calls = stored.calls ∧
    (after (exec .process (request 0x03 [0x03, 0x00, 0x00, 0x01]))).rsp.fc.getLsbD 7 = true :=
  ⟨readyProcess_of rfl rfl, eq_next (by decide +kernel), by decide +kernel, by decide +kernel⟩

theorem witness_HaltedRefusesEverything : cfgWf stored.cfg = true ∧ ({ stored with halt := true } : State).halt = true :=
  ⟨by decide +kernel, rfl⟩

theorem witness_ReservedHostCodesAreRefused : Instr.hostopRsvd0 ∈ reservedHostOps ∧ Instr.hostopRsvdF ∈ reservedHostOps := by
  decide +kernel

theorem witness_OnlyAMissingHandlerHalts :
    exec .process { stored with cfg := rebound 8 0 } = .next (after (exec .process { stored with cfg := rebound 8 0 })) ∧
    stored.halt = false ∧ (after (exec .process { stored with cfg := rebound 8 0 })).halt = true :=
  ⟨eq_next (by decide +kernel), rfl, by decide +kernel⟩

/-- For the statements about resets: a halted machine, reset with another record. -/
theorem witness_resets :
    step { stored with halt := true, inbox := [.reset (rebound 6 1)] } =
      .next (after (step { stored with halt := true, inbox := [.reset (rebound 6 1)] })) ∧
    (after (step { stored with halt := true, inbox := [.reset (rebound 6 1)] })).halt = false ∧
    (after (step { stored with halt := true, inbox := [.reset (rebound 6 1)] })).cfg ≠ stored.cfg ∧
    cfgWf (rebound 6 1) = true ∧ stored.stuck = false :=
  ⟨eq_next (by decide +kernel), by decide +kernel, by decide +kernel, by decide +kernel, rfl⟩

theorem witness_FirstOperationAfterReset : cfgWf Config.sample = true ∧ Memory.wf stored.xb = true ∧
    binding Config.sample 8 = 2 := by decide +kernel

/-- One record for each check of R358 that a model refuses, and `XB_SIZE` below 515. -/
theorem witness_IllFormedConfigurationIsRefused : cfgWf { Config.sample with dps := [⟨0x0000, 2, 3, 0⟩] } = false ∧
    cfgWf { Config.sample with dps := [⟨0x0000, 2, 2, 1⟩] } = false ∧ cfgWf (rebound 1 3) = false ∧
    cfgWf (rebound 8 1) = false ∧ cfgWf { Config.sample with regReadMax := 127 } = false ∧
    cfgWf { Config.sample with xbSize := 514 } = false ∧ Instr.crc16 0 ∉ reservedHostOps := by decide +kernel

/-- The sample record with a fifth store. -/
def largerRecord : ConfigRecord := { Config.sample with dps := Config.sample.dps ++ [⟨0x0400, 2, 2, 4⟩] }

/-- R361: the application fills the fifth store while the record in force has four. -/
theorem test_store_built_before_reset :
    Memory.read (after (step { State.reset with inbox := [.appStore 4 1 0x5A, .reset largerRecord] })).ds
      (storeKey 4 1) = 0x5A := by decide +kernel

theorem witness_HostAndApplicationEvents : stored.stuck = false ∧ Memory.wf stored.xb = true ∧ Memory.wf stored.ds = true ∧
    514 + ([0x00] : List Byte).length ≤ stored.cfg.xbSize ∧ stored.cfg.xbSize < 515 + ([0x00] : List Byte).length ∧
    (stored.cfg.dps[4]? = none ∧ 2 ^ 32 - 3 < 2 ^ 32 - 2 ∧ 2 ^ 32 - 2 ≤ 2 ^ 32 - 2) ∧
    cfgWf largerRecord = true ∧ largerRecord.dps[4]? = some ⟨0x0400, 2, 2, 4⟩ ∧ 1 < (2 : BitVec 32).toNat := by
  decide +kernel

theorem witness_EveryStepKeepsTheInvariant : State.reset.Inv ∧
    step { State.reset with inbox := [.issue ⟨0x9, 0, 0, 0, 0⟩] } =
      .next (after (step { State.reset with inbox := [.issue ⟨0x9, 0, 0, 0, 0⟩] })) :=
  ⟨⟨by decide +kernel, by decide +kernel, by decide +kernel, by decide +kernel, by decide +kernel, by decide +kernel,
    .inl rfl, nofun⟩, eq_next (by decide +kernel)⟩

end Sys2Proof.Tests
end

section
/-! What one host operation can do, said once: it is refused, it ends in the fatal fault, or it runs; and what an
operation that runs keeps. The claims about `HALT`, the configuration and the invariant are read off these cases. -/

namespace Sys2Proof.Machine

/-! ## What an operation that runs keeps -/

/-- `t` is what an operation that runs can make of `s`: `HALT`, `FCAUSE` and the configuration stay (R30, R41), and
from a state of the invariant the memories, the bank lengths and the scripted handler stay within it. -/
structure State.Ran (s t : State) : Prop where
  halt : t.halt = s.halt
  fcause : t.fcause = s.fcause
  cfg : t.cfg = s.cfg
  xb : s.Inv → Memory.wf t.xb = true
  ds : s.Inv → Memory.wf t.ds = true
  reqLen : s.Inv → t.req.len.toNat ≤ Config.payloadMax
  rspLen : s.Inv → t.rsp.len.toNat ≤ Config.payloadMax
  handler : s.Inv → t.appGenerics.all GenericAnswer.honours = true

namespace State.Ran

theorem refl (s : State) : s.Ran s :=
  ⟨rfl, rfl, rfl, State.Inv.xb, State.Inv.ds, State.Inv.reqLen, State.Inv.rspLen, State.Inv.handler⟩

theorem inv {s t : State} (h : s.Ran t) (hs : s.Inv) : t.Inv where
  cfg := h.cfg ▸ hs.cfg
  xb := h.xb hs
  ds := h.ds hs
  reqLen := h.reqLen hs
  rspLen := h.rspLen hs
  handler := h.handler hs
  cause := h.fcause ▸ hs.cause
  halted := h.fcause ▸ h.halt ▸ hs.halted

theorem trans {s t u : State} (h : s.Ran t) (g : t.Ran u) : s.Ran u where
  halt := g.halt.trans h.halt
  fcause := g.fcause.trans h.fcause
  cfg := g.cfg.trans h.cfg
  xb hs := g.xb (h.inv hs)
  ds hs := g.ds (h.inv hs)
  reqLen hs := g.reqLen (h.inv hs)
  rspLen hs := g.rspLen (h.inv hs)
  handler hs := g.handler (h.inv hs)

theorem complete {s t : State} (h : s.Ran t) (r : Result) : s.Ran (t.complete r) := { h with }

theorem nextFree {s t : State} (h : s.Ran t) : s.Ran { t with free := t.free + 1 } := { h with }

/-- A response bank within `len <= 253` (R23). -/
theorem setRsp {s t : State} (h : s.Ran t) {p : Pdu} (hp : s.Inv → p.len.toNat ≤ Config.payloadMax) :
    s.Ran { t with rsp := p } :=
  { h with rspLen := hp }

theorem setReq {s t : State} (h : s.Ran t) {p : Pdu} (hp : s.Inv → p.len.toNat ≤ Config.payloadMax) :
    s.Ran { t with req := p } :=
  { h with reqLen := hp }

theorem setBank {s t : State} (h : s.Ran t) (b : Bank) {p : Pdu} (hp : p.len.toNat ≤ Config.payloadMax) :
    s.Ran (t.setBank b p) :=
  match b with
  | .req => h.setReq fun _ => hp
  | .rsp => h.setRsp fun _ => hp

/-- An invocation that keeps the response bank and the form of the stores. -/
theorem of_kept {s t : State} (h : s.Kept t) (hrsp : t.rsp = s.rsp)
    (hds : Memory.wf s.ds = true → Memory.wf t.ds = true) : s.Ran t where
  halt := h.halt
  fcause := h.fcause
  cfg := h.cfg
  xb hs := h.xb ▸ hs.xb
  ds hs := hds hs.ds
  reqLen hs := h.req ▸ hs.reqLen
  rspLen hs := hrsp ▸ hs.rspLen
  handler hs := h.appGenerics ▸ hs.handler

end State.Ran

theorem State.ran_copied (s : State) : s.Ran s.copied := (State.Ran.refl s).setRsp State.Inv.rspLen

/-! ## Callbacks and loops -/

theorem callRead_ran (slot : Fin 9) (fc : Byte) (a : Word) (s : State) : s.Ran (callRead slot fc a s).state := by
  obtain ⟨hkept, hrsp, hds⟩ := callRead_state slot fc a s
  exact .of_kept hkept hrsp (hds ▸ id)

theorem callWrite_ran (slot : Fin 9) (fc : Byte) (a v : Word) (s : State) : s.Ran (callWrite slot fc a v s).state := by
  obtain ⟨hkept, hrsp, hds⟩ := callWrite_state slot fc a v s
  exact .of_kept hkept hrsp hds

theorem bitReadItem_ran (slot : Fin 9) (start : Word) (i : Nat) (s : State) :
    s.Ran (bitReadItem slot start i s).state := by
  have h := callRead_ran slot s.req.fc (itemAddr start i) s
  unfold bitReadItem
  generalize callRead slot s.req.fc (itemAddr start i) s = reply at h ⊢
  cases reply with
  | ok v u =>
    dsimp only
    split
    · exact h.setRsp h.rspLen
    · exact h
  | exc e u => exact h
  | never u => exact h

theorem registerReadItem_ran (slot : Fin 9) (start : Word) (i : Nat) (s : State) :
    s.Ran (registerReadItem slot start i s).state := by
  have h := callRead_ran slot s.req.fc (itemAddr start i) s
  unfold registerReadItem
  generalize callRead slot s.req.fc (itemAddr start i) s = reply at h ⊢
  cases reply with
  | ok v u => exact h.setRsp h.rspLen
  | exc e u => exact h
  | never u => exact h

theorem forItems_ran {item : Nat → State → Reply Unit} (h : ∀ i (u : State), u.Ran (item i u).state)
    (count i : Nat) {s u : State} (hu : s.Ran u) : s.Ran (forItems item count i u).state :=
  forItems_keeps s.Ran (fun i u hu => hu.trans (h i u)) count i u hu

/-! ## The families of `PROCESS` -/

/-- An operation's body answers a next state that it can make of `s` by running. -/
def Answers (s : State) (o : StepOut) : Prop := ∃ t, o = .next t ∧ s.Ran t

theorem Answers.next {s t : State} (h : s.Ran t) : Answers s (.next t) := ⟨t, rfl, h⟩

theorem State.Ran.exceptionResponse {s t : State} (h : s.Ran t) (e : Byte) : s.Ran (t.exceptionResponse e) :=
  h.setRsp fun _ => (by decide : (1 : Byte).toNat ≤ Config.payloadMax)

theorem State.Ran.echoResponse {s t : State} (h : s.Ran t) : s.Ran t.echoResponse :=
  h.setRsp fun _ => (Pdu.setBytes_len ..).symm ▸ (by decide : (4 : Byte).toNat ≤ Config.payloadMax)

theorem Answers.completed (s : State) (r : Result) : Answers s (.next (s.complete r)) :=
  .next ((State.Ran.refl s).complete r)

theorem exceptionEnd_answers (e : Byte) (s : State) : Answers s (exceptionEnd e s) :=
  .next (((State.Ran.refl s).exceptionResponse e).complete {})

theorem finish_answers {s : State} {r : Reply Unit} {success : State → State} (hr : s.Ran r.state)
    (hs : s.Ran (success r.state)) : Answers s (finish r success) := by
  obtain ⟨t, ht, rfl | ⟨e, rfl⟩ | rfl⟩ := finish_next r success
  · exact ⟨_, ht, hs.complete {}⟩
  · exact ⟨_, ht, (hr.exceptionResponse e).complete {}⟩
  · exact ⟨_, ht, { hr with }⟩

theorem GenericAnswer.honours_leaves (p : Pdu) :
    (GenericAnswer.leaves p).honours = true ↔ p.len.toNat ≤ Config.payloadMax := decide_eq_true_iff

theorem GenericAnswer.honours_never (p : Pdu) :
    (GenericAnswer.never p).honours = true ↔ p.len.toNat ≤ Config.payloadMax := decide_eq_true_iff

/-- The handler's contract (R230) is what keeps `RSP.len` within bounds here. -/
theorem delegate_answers (s : State) : Answers s (delegate s) := by
  unfold delegate
  cases hg : s.appGenerics with
  | nil => exact .next { State.Ran.refl s with rspLen := fun _ => freeBank_len s.free, handler := fun _ => rfl }
  | cons g gs =>
    have hall (hs : s.Inv) : g.honours = true ∧ gs.all GenericAnswer.honours = true := by
      simpa only [hg, List.all_cons, Bool.and_eq_true] using hs.handler
    cases g with
    | leaves p =>
      exact .next { State.Ran.refl s with
        rspLen := fun hs => (GenericAnswer.honours_leaves p).mp (hall hs).1, handler := fun hs => (hall hs).2 }
    | never p =>
      exact .next { State.Ran.refl s with
        rspLen := fun hs => (GenericAnswer.honours_never p).mp (hall hs).1, handler := fun hs => (hall hs).2 }

theorem toNat_ofNat_byte_le {n m : Nat} (h : n ≤ m) : (BitVec.ofNat 8 n).toNat ≤ m :=
  (BitVec.toNat_ofNat n 8).symm ▸ (Nat.mod_le n _).trans h

/-- R358 (f): no read response outgrows the payload array (R8). -/
theorem read_bounds_of_cfgWf {c : ConfigRecord} (h : cfgWf c = true) :
    1 + ceilDiv8 c.bitReadMax ≤ Config.payloadMax ∧ 1 + 2 * c.regReadMax ≤ Config.payloadMax := by
  simp only [cfgWf, paramsWf, Bool.and_eq_true, decide_eq_true_eq] at h
  obtain ⟨⟨-, ⟨⟨⟨hbit, hreg⟩, -⟩, -⟩, -⟩, -⟩ := h
  exact ⟨hbit, hreg⟩

theorem bitRead_answers (slot : Fin 9) (start : Word) {quantity : Nat} {s : State} (hq : quantity ≤ s.cfg.bitReadMax) :
    Answers s (bitRead slot start quantity s) := by
  have hloop := forItems_ran (bitReadItem_ran slot start) quantity 0 ((State.Ran.refl s).setRsp
    (p := s.rsp.setBytes 0 (BitVec.ofNat 8 (ceilDiv8 quantity) :: List.replicate (ceilDiv8 quantity) 0x00))
    fun hs => by rw [Pdu.setBytes_len]; exact hs.rspLen)
  refine finish_answers hloop (hloop.setRsp fun hs => toNat_ofNat_byte_le ?_)
  have := (read_bounds_of_cfgWf hs.cfg).1
  simp only [ceilDiv8] at this ⊢
  omega

theorem registerRead_answers (slot : Fin 9) (start : Word) {quantity : Nat} {s : State}
    (hq : quantity ≤ s.cfg.regReadMax) : Answers s (registerRead slot start quantity s) := by
  have hloop := forItems_ran (registerReadItem_ran slot start) quantity 0
    ((State.Ran.refl s).setRsp (p := s.rsp.set 0 (BitVec.ofNat 8 (2 * quantity))) State.Inv.rspLen)
  refine finish_answers hloop (hloop.setRsp fun hs => toNat_ofNat_byte_le ?_)
  have := (read_bounds_of_cfgWf hs.cfg).2
  omega

theorem readFamily_answers (spec : Option (Fin 9)) (kind : Kind) (s : State) : Answers s (readFamily spec kind s) := by
  unfold readFamily
  split
  · exact exceptionEnd_answers _ s
  · dsimp only
    split
    · exact delegate_answers s
    · split
      · exact exceptionEnd_answers _ s
      · next hq =>
        cases kind with
        | bit => exact bitRead_answers _ _ (Nat.le_of_not_lt fun h => hq (.inr h))
        | register => exact registerRead_answers _ _ (Nat.le_of_not_lt fun h => hq (.inr h))

theorem writeSingle_answers (spec : Option (Fin 9)) (kind : Kind) (s : State) :
    Answers s (writeSingle spec kind s) := by
  unfold writeSingle
  split
  · exact exceptionEnd_answers _ s
  · dsimp only
    split
    · exact delegate_answers s
    · split
      · exact exceptionEnd_answers _ s
      · next slot _ _ =>
        have hcall := callWrite_ran slot s.req.fc (s.req.word 0) (s.req.word 2) s
        exact finish_answers hcall hcall.echoResponse

theorem writeLoop_answers {item : Nat → State → Reply Unit} (h : ∀ i (u : State), u.Ran (item i u).state) (count : Nat)
    (s : State) : Answers s (finish (forItems item count 0 s) State.echoResponse) :=
  have hloop := forItems_ran h count 0 (State.Ran.refl s)
  finish_answers hloop hloop.echoResponse

theorem writeMultiple_answers (spec : Option (Fin 9)) (kind : Kind) (s : State) :
    Answers s (writeMultiple spec kind s) := by
  unfold writeMultiple
  split
  · exact exceptionEnd_answers _ s
  · dsimp only
    split
    · exact delegate_answers s
    · cases kind with
      | bit =>
        dsimp only
        split
        · exact writeLoop_answers (fun _ u => callWrite_ran _ _ _ _ u) _ s
        · exact exceptionEnd_answers _ s
      | register =>
        dsimp only
        split
        · exact writeLoop_answers (fun _ u => callWrite_ran _ _ _ _ u) _ s
        · exact exceptionEnd_answers _ s

theorem dispatchFunction_answers (s : State) : Answers s (dispatchFunction s) := by
  unfold dispatchFunction
  cases familyOf s.req.fc with
  | read => exact readFamily_answers _ _ s
  | writeSingle => exact writeSingle_answers _ _ s
  | writeMultiple => exact writeMultiple_answers _ _ s
  | none => exact exceptionEnd_answers _ s

/-! ## The host operations outside `PROCESS` -/

/-- The operation is a body behind the common entry check (R331, R352), and that body always answers. -/
def Issues (op : State → StepOut) : Prop := ∃ body, (∀ s, op s = issue s body) ∧ ∀ s, Answers s (body s)

theorem execCrc16_issues (n : Nat) : Issues (execCrc16 n) := by
  refine ⟨_, fun _ => rfl, fun s => ?_⟩
  split
  · exact .completed s _
  · exact .next ((State.Ran.refl s).nextFree.complete _)

theorem execLrc8_issues (n : Nat) : Issues (execLrc8 n) := by
  refine ⟨_, fun _ => rfl, fun s => ?_⟩
  split
  · exact .completed s _
  · exact .next ((State.Ran.refl s).nextFree.complete _)

theorem execBufRd_issues (a : Word) : Issues (execBufRd a) := by
  refine ⟨_, fun _ => rfl, fun s => ?_⟩
  split
  · exact .completed s _
  · exact .next ((State.Ran.refl s).nextFree.complete _)

theorem State.Ran.writeSlot (s : State) (k off : Nat) (v : Word) :
    s.Ran { s with ds := Machine.writeSlot s.ds k off v } :=
  { State.Ran.refl s with ds := fun hs => writeSlot_wf hs.ds k off v }

theorem State.Ran.writeXb (s : State) (off : Nat) (bytes : List Byte) :
    s.Ran { s with xb := Memory.writeBytes s.xb off bytes } :=
  { State.Ran.refl s with xb := fun hs => Memory.writeBytes_wf hs.xb off bytes }

theorem execBufWr_issues (a v : Word) : Issues (execBufWr a v) := by
  refine ⟨_, fun _ => rfl, fun s => ?_⟩
  split
  · next k off _ => exact .next ((State.Ran.writeSlot s k off v).complete _)
  · exact .completed s _

theorem execRtuEnc_issues (b : Bank) (cap : Nat) : Issues (execRtuEnc b cap) := by
  refine ⟨_, fun _ => rfl, fun s => ?_⟩
  dsimp only
  split
  · exact .completed s _
  · exact .next ((State.Ran.writeXb s 0 _).complete _)

theorem execAscEnc_issues (b : Bank) (cap : Nat) : Issues (execAscEnc b cap) := by
  refine ⟨_, fun _ => rfl, fun s => ?_⟩
  dsimp only
  split
  · exact .completed s _
  · exact .next ((State.Ran.writeXb s 0 _).complete _)

/-- A decode of at most 253 payload bytes leaves a bank within `len <= 253` (R23). -/
theorem load_len_le (p : Pdu) (addr fc : Byte) {payload : List Byte} (h : payload.length ≤ Config.payloadMax) :
    (p.load addr fc payload).len.toNat ≤ Config.payloadMax := by
  rw [Pdu.load_len]
  exact toNat_ofNat_byte_le h

theorem execRtuDec_issues (b : Bank) (dataSize : Nat) : Issues (execRtuDec b dataSize) := by
  refine ⟨_, fun _ => rfl, fun s => ?_⟩
  dsimp only
  split
  · exact .completed s _
  · next hsize =>
    refine .next (((State.Ran.refl s).setBank b (load_len_le _ _ _ ?_)).complete _)
    rw [List.length_drop, Memory.readBytes_length]
    simp only [Config.rtuFrameMax, Config.payloadMax] at hsize ⊢
    omega

theorem ascShapeOk_le {xb : Memory} {dataSize : Nat} (h : ascShapeOk xb dataSize = true) :
    dataSize ≤ Config.ascFrameMax := by
  simp only [ascShapeOk, Bool.and_eq_true, decide_eq_true_eq] at h
  obtain ⟨⟨⟨⟨⟨-, hle⟩, -⟩, -⟩, -⟩, -⟩ := h
  exact hle

theorem execAscDec_issues (b : Bank) (dataSize : Nat) : Issues (execAscDec b dataSize) := by
  refine ⟨_, fun _ => rfl, fun s => ?_⟩
  split
  · next hshape =>
    split
    · exact .completed s _
    · next bs hbs =>
      refine .next (((State.Ran.refl s).setBank b (load_len_le _ _ _ ?_)).complete _)
      have hsize := ascShapeOk_le hshape
      have hlen := unhexBytes_length hbs
      rw [Memory.readBytes_length] at hlen
      rw [List.length_drop, List.length_dropLast]
      simp only [Config.ascFrameMax, Config.payloadMax] at hsize ⊢
      omega
  · exact .completed s _

/-! ## Every operation -/

/-- The three shapes of an operation: a reserved code, a body behind the entry check, or `PROCESS` (R118, R220,
R331). -/
theorem exec_shape (i : Instr) :
    (∀ s, exec i s = .next s.refuse) ∨ Issues (exec i) ∨
      (isProcess i = true ∧ ∃ body, (∀ s, exec i s = processEntry s body) ∧ ∀ s, Answers s (body s)) := by
  cases i with
  | hostopRsvd0 | hostopRsvdA | hostopRsvdB | hostopRsvdC | hostopRsvdD | hostopRsvdE | hostopRsvdF =>
    exact .inl fun _ => rfl
  | crc16 n => exact .inr (.inl (execCrc16_issues n))
  | lrc8 n => exact .inr (.inl (execLrc8_issues n))
  | bufRd a => exact .inr (.inl (execBufRd_issues a))
  | bufWr a v => exact .inr (.inl (execBufWr_issues a v))
  | rtuEnc b n => exact .inr (.inl (execRtuEnc_issues b n))
  | rtuDec b n => exact .inr (.inl (execRtuDec_issues b n))
  | ascEnc b n => exact .inr (.inl (execAscEnc_issues b n))
  | ascDec b n => exact .inr (.inl (execAscDec_issues b n))
  | process => exact .inr (.inr ⟨rfl, _, fun _ => rfl, dispatchFunction_answers⟩)
  | rdcoils | rddisc | rdhold | rdinput | rwregs =>
    exact .inr (.inr ⟨rfl, _, fun _ => rfl, readFamily_answers _ _⟩)
  | wrcoil | wrreg => exact .inr (.inr ⟨rfl, _, fun _ => rfl, writeSingle_answers _ _⟩)
  | wrcoils | wrregs => exact .inr (.inr ⟨rfl, _, fun _ => rfl, writeMultiple_answers _ _⟩)
  | rsvd07 | rsvd08 | rsvd0B | rsvd0C | rsvd11 | rsvd14 | rsvd15 | rsvd16 | rsvd18 | illegal =>
    exact .inr (.inr ⟨rfl, _, fun _ => rfl, exceptionEnd_answers _⟩)

/-- The three ways an operation can end in a next state: it is refused, it is a `PROCESS` whose mandatory handler is
missing, or it runs (R14, R221, R331). -/
theorem exec_cases {i : Instr} {s t : State} (h : exec i s = .next t) :
    t = s.refuse ∨
    (isProcess i = true ∧ binding s.cfg sGenFunction = Config.unbound ∧ t = s.raiseFatal fNoGenericHandler) ∨
    (s.Ready ∧ s.Ran t) := by
  rcases exec_shape i with hrefuse | ⟨body, hbody, hans⟩ | ⟨hi, body, hbody, hans⟩
  · rw [hrefuse s] at h
    exact .inl (Host.Outcome.next.inj h).symm
  · rw [hbody s] at h
    rcases issue_cases s body with ⟨-, hc⟩ | ⟨-, -, hc⟩ | ⟨hready, hc⟩
    · exact nomatch hc.symm.trans h
    · exact .inl (Host.Outcome.next.inj (hc.symm.trans h)).symm
    · obtain ⟨u, hu, hran⟩ := hans s
      obtain rfl := Host.Outcome.next.inj (hu.symm.trans (hc.symm.trans h))
      exact .inr (.inr ⟨hready, hran⟩)
  · rw [hbody s] at h
    rcases processEntry_cases s body with ⟨-, hc⟩ | ⟨-, -, hc⟩ | ⟨-, hb, hc⟩ | ⟨hready, hc⟩
    · exact nomatch hc.symm.trans h
    · exact .inl (Host.Outcome.next.inj (hc.symm.trans h)).symm
    · exact .inr (.inl ⟨hi, hb, (Host.Outcome.next.inj (hc.symm.trans h)).symm⟩)
    · obtain ⟨u, hu, hran⟩ := hans s.copied
      obtain rfl := Host.Outcome.next.inj (hu.symm.trans (hc.symm.trans h))
      exact .inr (.inr ⟨hready.toReady, s.ran_copied.trans hran⟩)

/-- No operation changes the configuration (R41). -/
theorem exec_cfg {i : Instr} {s t : State} (h : exec i s = .next t) : t.cfg = s.cfg := by
  rcases exec_cases h with rfl | ⟨-, -, rfl⟩ | ⟨-, hran⟩
  · rfl
  · rfl
  · exact hran.cfg

/-- No operation clears `HALT` (R333). -/
theorem exec_halt_of_halt {i : Instr} {s t : State} (h : exec i s = .next t) (hs : s.halt = true) : t.halt = true := by
  rcases exec_cases h with rfl | ⟨-, -, rfl⟩ | ⟨-, hran⟩
  · exact hs
  · rfl
  · exact hran.halt.trans hs

/-- Every operation keeps the invariant: a refusal moves none of its registers, and the fatal fault moves `FCAUSE` and
`HALT` together (R313). -/
theorem exec_inv {i : Instr} {s t : State} (h : exec i s = .next t) (hs : s.Inv) : t.Inv := by
  rcases exec_cases h with rfl | ⟨-, -, rfl⟩ | ⟨-, hran⟩
  · exact { hs with }
  · exact { hs with cause := .inr rfl, halted := fun _ => rfl }
  · exact hran.inv hs

/-! ## One step, event by event -/

theorem step_stuck {s : State} (h : s.stuck = true) : step s = .next s := if_pos h

theorem step_idle {s : State} (h : s.inbox = []) : step s = .next s := by
  simp [step, h]

section
variable {s : State} {rest : List HostEvent} (hs : s.stuck = false)
include hs

theorem step_issue {w : OpWord} (h : s.inbox = .issue w :: rest) :
    step s = exec (decodeHostOp w) { s with inbox := rest } := by
  simp [step, hs, h]

theorem step_loadXb {off : Nat} {bytes : List Byte} (h : s.inbox = .loadXb off bytes :: rest) :
    step s = loadXbEvent off bytes { s with inbox := rest } := by
  simp [step, hs, h]

theorem step_appStore {k off : Nat} {v : Byte} (h : s.inbox = .appStore k off v :: rest) :
    step s = appStoreEvent k off v { s with inbox := rest } := by
  simp [step, hs, h]

theorem step_reset {c : ConfigRecord} (h : s.inbox = .reset c :: rest) :
    step s = resetEvent c { s with inbox := rest } := by
  simp [step, hs, h]

end

theorem loadXbEvent_inside {off : Nat} {bytes : List Byte} {s : State} (h : off + bytes.length ≤ s.cfg.xbSize) :
    loadXbEvent off bytes s = .next { s with xb := Memory.writeBytes s.xb off bytes } := if_pos h

theorem loadXbEvent_outside {off : Nat} {bytes : List Byte} {s : State} (h : s.cfg.xbSize < off + bytes.length) :
    loadXbEvent off bytes s = .fault .xbRange := if_neg (Nat.not_le_of_lt h)

theorem appStoreEvent_inside {k off : Nat} {v : Byte} {s : State} (h : off < storeSizeMax) :
    appStoreEvent k off v s = .next { s with ds := Memory.write s.ds (storeKey k off) v } := if_pos h

theorem appStoreEvent_outside {k off : Nat} {v : Byte} {s : State} (h : storeSizeMax ≤ off) :
    appStoreEvent k off v s = .fault .storeRange := if_neg (Nat.not_lt_of_le h)

theorem resetEvent_wf {c : ConfigRecord} {s : State} (h : cfgWf c = true) :
    resetEvent c s = .next (s.construct c) := if_pos h

theorem loadXbEvent_next {off : Nat} {bytes : List Byte} {s t : State} (h : loadXbEvent off bytes s = .next t) :
    t = { s with xb := Memory.writeBytes s.xb off bytes } := by
  unfold loadXbEvent at h
  split at h
  · exact (Host.Outcome.next.inj h).symm
  · exact nomatch h

theorem appStoreEvent_next {k off : Nat} {v : Byte} {s t : State} (h : appStoreEvent k off v s = .next t) :
    t = { s with ds := Memory.write s.ds (storeKey k off) v } := by
  unfold appStoreEvent at h
  split at h
  · exact (Host.Outcome.next.inj h).symm
  · exact nomatch h

theorem resetEvent_next {c : ConfigRecord} {s t : State} (h : resetEvent c s = .next t) :
    cfgWf c = true ∧ t = s.construct c := by
  unfold resetEvent at h
  split at h
  · next hc => exact ⟨hc, (Host.Outcome.next.inj h).symm⟩
  · exact nomatch h

/-- Everything a step can do: the machine waits, an operation ends, the host loads `XB`, the application writes a store,
or the record of a reset is loaded (R28, R43, R61, R350, R354). -/
theorem step_cases {s t : State} (h : step s = .next t) :
    t = s ∨
    (∃ i rest, exec i { s with inbox := rest } = .next t) ∨
    (∃ off bytes rest, t = { s with inbox := rest, xb := Memory.writeBytes s.xb off bytes }) ∨
    (∃ k off v rest, t = { s with inbox := rest, ds := Memory.write s.ds (storeKey k off) v }) ∨
    (∃ c rest, s.inbox = .reset c :: rest ∧ cfgWf c = true ∧ t = ({ s with inbox := rest } : State).construct c) := by
  rcases s.stuck.eq_false_or_eq_true with hs | hs
  · rw [step_stuck hs] at h
    exact .inl (Host.Outcome.next.inj h).symm
  · cases hi : s.inbox with
    | nil =>
      rw [step_idle hi] at h
      exact .inl (Host.Outcome.next.inj h).symm
    | cons event rest =>
      cases event with
      | issue w =>
        rw [step_issue hs hi] at h
        exact .inr (.inl ⟨_, rest, h⟩)
      | loadXb off bytes =>
        rw [step_loadXb hs hi] at h
        exact .inr (.inr (.inl ⟨off, bytes, rest, loadXbEvent_next h⟩))
      | appStore k off v =>
        rw [step_appStore hs hi] at h
        exact .inr (.inr (.inr (.inl ⟨k, off, v, rest, appStoreEvent_next h⟩)))
      | reset c =>
        rw [step_reset hs hi] at h
        exact .inr (.inr (.inr (.inr ⟨c, rest, rfl, resetEvent_next h⟩)))

/-- A step that is no reset leaves the configuration alone and does not clear `HALT` (R41, R333). -/
theorem step_reset_or_kept {s t : State} (h : step s = .next t) :
    (∃ c rest, s.inbox = .reset c :: rest ∧ t.cfg = c) ∨ (t.cfg = s.cfg ∧ (s.halt = true → t.halt = true)) := by
  rcases step_cases h with rfl | ⟨i, rest, hexec⟩ | ⟨off, bytes, rest, rfl⟩ | ⟨k, off, v, rest, rfl⟩ |
      ⟨c, rest, hi, -, rfl⟩
  · exact .inr ⟨rfl, id⟩
  · exact .inr ⟨(exec_cfg hexec :), fun hs => exec_halt_of_halt hexec hs⟩
  · exact .inr ⟨rfl, id⟩
  · exact .inr ⟨rfl, id⟩
  · exact .inl ⟨c, rest, hi, rfl⟩

/-! ## The claims about every step -/

/-- Settles O60, case by case over what a step can do. -/
theorem everyStepKeepsTheInvariant : Obligations.EveryStepKeepsTheInvariant := by
  intro s t hs h
  rcases step_cases h with rfl | ⟨i, rest, hexec⟩ | ⟨off, bytes, rest, rfl⟩ | ⟨k, off, v, rest, rfl⟩ |
      ⟨c, rest, -, hc, rfl⟩
  · exact hs
  · exact exec_inv hexec { hs with }
  · exact { hs with xb := Memory.writeBytes_wf hs.xb off bytes }
  · exact { hs with ds := Memory.write_wf hs.ds (storeKey k off) v }
  · exact { hs with
      cfg := hc, reqLen := Nat.zero_le _, rspLen := Nat.zero_le _, cause := .inl rfl, halted := nofun }

/-- Settles O51: of the three ends of an operation only the fatal fault sets `HALT`. -/
theorem onlyAMissingHandlerHalts : Obligations.OnlyAMissingHandlerHalts := by
  intro i s t h hs ht
  rcases exec_cases h with rfl | ⟨hi, hb, rfl⟩ | ⟨-, hran⟩
  · exact absurd (hs.symm.trans ht) Bool.false_ne_true
  · exact ⟨hi, hb, rfl, rfl⟩
  · exact absurd (hs.symm.trans (hran.halt.symm.trans ht)) Bool.false_ne_true

/-- Settles O52: a step that is no reset leaves a set `HALT` set. -/
theorem onlyResetClearsHalt : Obligations.OnlyResetClearsHalt := by
  intro s t h hs ht
  rcases step_reset_or_kept h with hreset | ⟨-, hhalt⟩
  · exact hreset
  · exact absurd (ht.symm.trans (hhalt hs)) Bool.false_ne_true

/-- Settles O53: a step that is no reset leaves the configuration as it is. -/
theorem onlyResetLoadsTheConfiguration : Obligations.OnlyResetLoadsTheConfiguration := by
  intro s t h hne
  rcases step_reset_or_kept h with hreset | ⟨hcfg, -⟩
  · exact hreset
  · exact absurd hcfg hne

/-! ## Single steps -/

/-- The decoder reads back what the encoder writes (R111, R113). -/
theorem decode_encode {xbSize : Nat} {i : Instr} (h : i.wf xbSize = true) : decode (encode i) = i := by
  cases i with
  | rtuEnc b n => exact Laws.RoundTrip.rtuEnc b n xbSize h
  | rtuDec b n => exact Laws.RoundTrip.rtuDec b n xbSize h
  | ascEnc b n => exact Laws.RoundTrip.ascEnc b n xbSize h
  | ascDec b n => exact Laws.RoundTrip.ascDec b n xbSize h
  | illegal fc => exact Laws.RoundTrip.illegal fc xbSize h
  | _ => rfl

/-- Settles O3, from the equation of `step` for an issued operation and the encoder's round trip. -/
theorem stepRunsIssuedOperation : Obligations.StepRunsIssuedOperation := by
  refine ⟨fun s i w rest xbSize hs hi hwf henc => ?_, fun s w rest hs hi => step_issue hs hi,
    fun s hi => step_idle hi⟩
  have hdec : decodeHostOp w = i := by simpa only [henc, decode] using decode_encode hwf
  rw [step_issue hs hi, hdec]

/-- Settles O55: the fields of the one reset state. -/
theorem resetStateValues : Obligations.ResetStateValues := ⟨rfl, rfl, rfl, rfl, rfl, rfl, rfl, rfl⟩

/-- Settles O59: the sample record is well formed and every other clause is about an empty field or a zero. -/
theorem resetMeetsTheInvariant : Obligations.ResetMeetsTheInvariant where
  cfg := by decide
  xb := rfl
  ds := rfl
  reqLen := Nat.zero_le _
  rspLen := Nat.zero_le _
  handler := rfl
  cause := .inl rfl
  halted := nofun

/-- A store of a well-formed record ends at the largest even size of 32 bits (R35, R37, R358). -/
theorem off_lt_storeSizeMax {c : ConfigRecord} (hc : cfgWf c = true) {k off : Nat} {d : Datapoint}
    (hd : c.dps[k]? = some d) (ho : off < d.size.toNat) : off < storeSizeMax := by
  simp only [cfgWf, Bool.and_eq_true] at hc
  obtain ⟨⟨⟨hdps, -⟩, -⟩, -⟩ := hc
  obtain ⟨heven, -⟩ := dpsWf_get hdps hd
  have := d.size.isLt
  simp only [storeSizeMax]
  omega

/-- Settles O58, event by event: the step is the event, and the memory rules say what it leaves. -/
theorem hostAndApplicationEvents : Obligations.HostAndApplicationEvents := by
  refine ⟨fun s off bytes rest hs hi hwf => ⟨fun hle => ?_, fun hlt => ?_⟩,
    fun s k off v rest hs hi hwf => ⟨fun hlt => ?_, fun hle => ?_⟩,
    fun s c k d off v rest hs hwf hc hd ho hi => ?_⟩
  · exact ⟨_, (step_loadXb hs hi).trans (loadXbEvent_inside hle),
      fun i h => Memory.read_writeBytes hwf off bytes h, fun j h => Memory.read_writeBytes_other s.xb bytes h⟩
  · exact (step_loadXb hs hi).trans (loadXbEvent_outside hlt)
  · exact ⟨_, (step_appStore hs hi).trans (appStoreEvent_inside hlt),
      Memory.read_write_same hwf _ v, fun key h => Memory.read_write_other s.ds v h⟩
  · exact (step_appStore hs hi).trans (appStoreEvent_outside hle)
  · have hstore := (step_appStore hs hi).trans (appStoreEvent_inside (off_lt_storeSizeMax hc hd ho))
    refine ⟨_, _, hstore, (step_reset ?_ ?_).trans (resetEvent_wf hc), rfl, rfl, Memory.read_write_same hwf _ v,
      fun key h => Memory.read_write_other s.ds v h⟩
    · exact hs
    · rfl

end Sys2Proof.Machine
end

section
/-! The slots of the Register Buffer: a passing access goes to an even offset inside its datapoint's store, two
addresses never share a slot, and two slots that share a byte are the same slot. -/

namespace Sys2Proof.Machine

/-- The resolver's test is the range of R151, in the naturals and in the integers. -/
theorem dpContains_iff_inRange {d : Datapoint} {a : Word} : dpContains d a = true ↔ InRange d a := by
  simp only [dpContains, InRange, Bool.and_eq_true, decide_eq_true_eq]
  omega

/-- A passing access under a well-formed record goes to an even offset of the datapoint found, both bytes inside its
store (R65, R154). -/
theorem locate_hit_in_store {c : ConfigRecord} {dir : Dir} {a : Word} {k off : Nat} (hc : cfgWf c = true)
    (h : locate c dir a = .hit k off) :
    ∃ d, c.dps[k]? = some d ∧ InRange d a ∧ off % 2 = 0 ∧ off + 2 ≤ d.size.toNat := by
  simp only [cfgWf, Bool.and_eq_true] at hc
  obtain ⟨⟨⟨hdps, -⟩, -⟩, -⟩ := hc
  obtain ⟨d, hd, ha, rfl, -⟩ := locate_hit h
  obtain ⟨hsize, -⟩ := dpsWf_get hdps hd
  exact ⟨d, hd, dpContains_iff_inRange.mp ha, dpOffset_bounds ha hsize⟩

/-- Inside one datapoint the offset of R154 tells the addresses apart. -/
theorem dpOffset_inj {d : Datapoint} {a a' : Word} (ha : dpContains d a = true) (ha' : dpContains d a' = true)
    (h : dpOffset d a = dpOffset d a') : a = a' := by
  simp only [dpContains, Bool.and_eq_true, decide_eq_true_eq] at ha ha'
  unfold dpOffset at h
  apply BitVec.eq_of_toNat_eq
  omega

/-- Two passing accesses that go to the same slot are to the same address. -/
theorem locate_hit_inj {c : ConfigRecord} {dir dir' : Dir} {a a' : Word} {k off : Nat}
    (h : locate c dir a = .hit k off) (h' : locate c dir' a' = .hit k off) : a = a' := by
  obtain ⟨d, hd, ha, hoff, -⟩ := locate_hit h
  obtain ⟨d', hd', ha', hoff', -⟩ := locate_hit h'
  obtain rfl : d = d' := Option.some.inj (hd.symm.trans hd')
  exact dpOffset_inj ha ha' (hoff.symm.trans hoff')

/-- Two slots at even offsets that share a byte, the `i`-th of one and the `j`-th of the other, are the same slot. -/
theorem slot_eq_of_shared_byte {k k' off off' i j : Nat} (he : off % 2 = 0) (he' : off' % 2 = 0)
    (ho : off + 2 ≤ 2 ^ 32) (ho' : off' + 2 ≤ 2 ^ 32) (hi : i < 2) (hj : j < 2)
    (h : storeKey k' (off' + i) = storeKey k (off + j)) : k' = k ∧ off' = off := by
  obtain ⟨hk, hoff⟩ := storeKey_inj (by omega) (by omega) h
  exact ⟨hk, by omega⟩

/-- Passing accesses to different addresses share no byte (R65, R69), in whichever direction each of them goes. -/
theorem locate_hit_bytes_ne {c : ConfigRecord} {dir dir' : Dir} {a a' : Word} {k k' off off' : Nat}
    (hc : cfgWf c = true) (h : locate c dir a = .hit k off) (h' : locate c dir' a' = .hit k' off') (hne : a' ≠ a)
    {i j : Nat} (hi : i < 2) (hj : j < 2) : storeKey k' (off' + i) ≠ storeKey k (off + j) := by
  obtain ⟨d, -, -, heven, hin⟩ := locate_hit_in_store hc h
  obtain ⟨d', -, -, heven', hin'⟩ := locate_hit_in_store hc h'
  intro hshared
  obtain ⟨rfl, rfl⟩ := slot_eq_of_shared_byte heven heven' (hin.trans d.size.isLt.le) (hin'.trans d'.size.isLt.le)
    hi hj hshared
  exact hne (locate_hit_inj h' h)

/-- Settles O13: the store's bounds from the table's well-formedness, the four bytes pair by pair. -/
theorem accessesStayInTheirStore : Obligations.AccessesStayInTheirStore := by
  intro c dir a k off hc h
  refine ⟨locate_hit_in_store hc h, fun a' k' off' h' hne => ?_⟩
  have bytes_ne {i j : Nat} (hi : i < 2) (hj : j < 2) : storeKey k' (off' + i) ≠ storeKey k (off + j) :=
    locate_hit_bytes_ne hc h h' hne hi hj
  exact ⟨bytes_ne zero_lt_two zero_lt_two, bytes_ne zero_lt_two one_lt_two, bytes_ne one_lt_two zero_lt_two,
    bytes_ne one_lt_two one_lt_two⟩

end Sys2Proof.Machine
end

section
/-! The two opcode maps against each other, the reserved host codes, and that every operation under a
well-formed record ends in a next state. -/

namespace Sys2Proof.Machine

/-! ## The decoder and the encoder -/

/-- A count fits the port of a buffer of that many bytes (R91). -/
theorem lt_two_pow_portBits (n : Nat) : n < 2 ^ portBits n :=
  Nat.lt_log2_self.trans_le (Nat.pow_le_pow_right two_pos (le_max_right 10 (n.log2 + 1)))

/-- Every word on the operation port decodes to an instruction that is well formed for a wide enough port (R91, R118). -/
theorem decodeHostOp_wf (w : OpWord) : (decodeHostOp w).wf w.n = true := by
  unfold decodeHostOp
  split <;> simp only [Instr.wf, lt_two_pow_portBits, decide_true]

/-- Every function code is written back by the encoder: an assigned one from its row, any other from the copy that
`illegal` carries (R111, R115). -/
theorem encode_decodeFunction (fc : Byte) : encode (decodeFunction fc) = .functionCode fc := by
  unfold decodeFunction
  split <;> simp [encode, ← BitVec.toNat_inj, *]

/-- Settles O1: re-encoding a host word is the round trip of what it decodes to, which is well formed. -/
theorem decodeEncodeAgree : Obligations.DecodeEncodeAgree :=
  ⟨fun _ _ => decode_encode, encode_decodeFunction, fun w => decode_encode (decodeHostOp_wf w)⟩

/-- Settles O2: eleven evaluations of the decoder. -/
theorem opcodeMapWords : Obligations.OpcodeMapWords :=
  ⟨rfl, rfl, rfl, rfl, rfl, rfl, rfl, rfl, rfl, rfl, rfl⟩

/-! ## Ends of an operation -/

/-- The reserved host codes are refused before any check of the state (R118). -/
theorem exec_reservedHostOp {i : Instr} (h : i ∈ reservedHostOps) (s : State) : exec i s = .next s.refuse := by
  simp only [reservedHostOps, List.mem_cons, List.not_mem_nil, or_false] at h
  rcases h with rfl | rfl | rfl | rfl | rfl | rfl | rfl <;> rfl

/-- Settles O50: a refusal changes the outcome alone. -/
theorem reservedHostCodesAreRefused : Obligations.ReservedHostCodesAreRefused :=
  fun _ s h => exec_reservedHostOp h s

/-- Under a well-formed record the entry check answers a next state where the body does (R331, R352). -/
theorem issue_has_next {s : State} {body : State → StepOut} (hc : cfgWf s.cfg = true) (h : Answers s (body s)) :
    ∃ t, issue s body = .next t := by
  rcases issue_cases s body with ⟨hbad, -⟩ | ⟨-, -, hrefused⟩ | ⟨-, hruns⟩
  · exact absurd (hbad.symm.trans hc) Bool.false_ne_true
  · exact ⟨_, hrefused⟩
  · obtain ⟨t, ht, -⟩ := h
    exact ⟨t, hruns.trans ht⟩

/-- So does the entry of `PROCESS`, whose missing handler is a next state too (R221, R326). -/
theorem processEntry_has_next {s : State} {body : State → StepOut} (hc : cfgWf s.cfg = true)
    (h : Answers s.copied (body s.copied)) : ∃ t, processEntry s body = .next t := by
  rcases processEntry_cases s body with ⟨hbad, -⟩ | ⟨-, -, hrefused⟩ | ⟨-, -, hfatal⟩ | ⟨-, hruns⟩
  · exact absurd (hbad.symm.trans hc) Bool.false_ne_true
  · exact ⟨_, hrefused⟩
  · exact ⟨_, hfatal⟩
  · obtain ⟨t, ht, -⟩ := h
    exact ⟨t, hruns.trans ht⟩

/-- Settles O48, from the three shapes of an operation. -/
theorem everyOperationHasAnOutcome : Obligations.EveryOperationHasAnOutcome := by
  intro i s hc
  rcases exec_shape i with hrefuse | ⟨body, hbody, hans⟩ | ⟨-, body, hbody, hans⟩
  · exact ⟨_, hrefuse s⟩
  · exact hbody s ▸ issue_has_next hc (hans s)
  · exact hbody s ▸ processEntry_has_next hc (hans s.copied)

end Sys2Proof.Machine
end

section
/-! The Checksum Engine: the table form of a byte of the CRC and the residue of a list with its own CRC, both from the
split of a word into its two bytes; the LRC as a negated sum; and the two operations that return them. -/

namespace Sys2Proof.Machine

/-! ## The table form of the CRC -/

/-- A word apart from its low byte has no bit below 8. -/
theorem getLsbD_xor_loByte {w : Word} {i : Nat} (hi : i < 8) :
    (w ^^^ (loByte w).zeroExtend 16).getLsbD i = false := by
  rw [BitVec.getLsbD_xor, BitVec.getLsbD_setWidth, getLsbD_loByte]
  simp [hi, show i < 16 by omega]

/-- A byte has nothing to shift down out of its high half. -/
theorem zeroExtend_byte_shiftRight (x : Byte) : x.zeroExtend 16 >>> 8 = 0#16 := by
  apply BitVec.eq_of_getLsbD_eq
  intro i hi
  rw [BitVec.getLsbD_ushiftRight, BitVec.getLsbD_setWidth, BitVec.getLsbD_of_ge x _ (Nat.le_add_right 8 i)]
  simp

/-- The table entry of the byte 0 (R134). -/
theorem crcBits8_zero_byte : crcBits8 ((0#8).zeroExtend 16) = 0#16 := by decide

/-- Eight steps move the high byte down and leave the rest to the table entry of the low byte (R134). -/
theorem crcBits8_eq_table (w : Word) : crcBits8 w = (w >>> 8) ^^^ crcBits8 ((loByte w).zeroExtend 16) := by
  generalize hlow : (loByte w).zeroExtend 16 = low
  have hsplit : w = (w ^^^ low) ^^^ low := by rw [BitVec.xor_assoc, BitVec.xor_self, BitVec.xor_zero]
  have hhigh : crcBits8 (w ^^^ low) = w >>> 8 := by
    subst hlow
    rw [crcBits8_high fun _ => getLsbD_xor_loByte, BitVec.ushiftRight_xor_distrib, zeroExtend_byte_shiftRight,
      BitVec.xor_zero]
  calc crcBits8 w = crcBits8 ((w ^^^ low) ^^^ low) := congrArg crcBits8 hsplit
    _ = w >>> 8 ^^^ crcBits8 low := by rw [crcBits8_xor, hhigh]

/-- One byte in table form (R134): the byte enters below the part that is shifted down. -/
theorem crcByte_eq_table (c : Word) (x : Byte) :
    crcByte c x = (c >>> 8) ^^^ crcBits8 ((loByte (c ^^^ x.zeroExtend 16)).zeroExtend 16) := by
  rw [crcByte, crcBits8_eq_table, BitVec.ushiftRight_xor_distrib, zeroExtend_byte_shiftRight, BitVec.xor_zero]

/-- Settles O7: the table form for every word, and three entries evaluated. -/
theorem crcTableForm : Obligations.CrcTableForm :=
  ⟨crcByte_eq_table, by decide, by decide, by decide⟩

/-! ## The residue of the CRC -/

/-- The accumulator's own low byte clears it, so that only the high byte is left (R136). -/
theorem crcByte_loByte (c : Word) : crcByte c (loByte c) = c >>> 8 := by
  have hlow : loByte (c ^^^ (loByte c).zeroExtend 16) = 0#8 := by
    apply BitVec.eq_of_getLsbD_eq
    intro i hi
    rw [getLsbD_loByte, getLsbD_xor_loByte hi]
    simp
  rw [crcByte_eq_table, hlow, crcBits8_zero_byte, BitVec.xor_zero]

theorem loByte_shiftRight (c : Word) : loByte (c >>> 8) = hiByte c := by
  apply BitVec.eq_of_getLsbD_eq
  intro i hi
  rw [getLsbD_loByte, getLsbD_hiByte, BitVec.getLsbD_ushiftRight]

/-- The accumulator's two bytes, low byte first, clear it (R136). -/
theorem crcAcc_own_bytes (c : Word) : crcAcc c [loByte c, hiByte c] = 0 := by
  calc crcAcc c [loByte c, hiByte c] = crcByte (crcByte c (loByte c)) (hiByte c) := rfl
    _ = crcByte (c >>> 8) (loByte (c >>> 8)) := by rw [crcByte_loByte, loByte_shiftRight]
    _ = c >>> 16 := by rw [crcByte_loByte, ← BitVec.shiftRight_add]
    _ = 0 := BitVec.ushiftRight_eq_zero le_rfl

/-- Two bytes clear the accumulator exactly when they are its own, low byte first (R136): no two accumulators end in the
same word over the same bytes. -/
theorem crcAcc_pair_eq_zero_iff (c : Word) (lo hi : Byte) : crcAcc c [lo, hi] = 0 ↔ be16 hi lo = c := by
  have hown : crcAcc (be16 hi lo) [lo, hi] = 0 := by simpa using crcAcc_own_bytes (be16 hi lo)
  exact ⟨fun h => crcAcc_inj [lo, hi] (hown.trans h.symm), fun h => h ▸ hown⟩

/-- The residue test on a frame is the comparison of its trailer with the CRC (R136). -/
theorem crc16_residue_iff (d : List Byte) (lo hi : Byte) : crc16 (d ++ [lo, hi]) = 0 ↔ be16 hi lo = crc16 d := by
  rw [crc16_eq, crc16_eq, crcAcc_append, crcAcc_pair_eq_zero_iff]

/-- Settles O8: the two directions of the residue test. -/
theorem crcResidue : Obligations.CrcResidue :=
  ⟨fun d => (crc16_residue_iff d _ _).mpr (be16_hi_lo _), fun d lo hi => (crc16_residue_iff d lo hi).mp⟩

/-! ## The LRC as a sum -/

/-- The accumulator of the LRC is the sum of the bytes modulo 256 (R138). -/
theorem lrcAcc_eq_sum (d : List Byte) : lrcAcc 0 d = d.sum := by
  induction d with
  | nil => rfl
  | cons x d ih => rw [lrcAcc, lrcAcc_start, ih, List.sum_cons, zero_add]

theorem lrc8_eq_neg_sum (d : List Byte) : lrc8 d = -d.sum := congrArg Neg.neg (lrcAcc_eq_sum d)

/-- Replacing a byte shifts the LRC by the difference of the two bytes (R140). -/
theorem lrc8_set (d : List Byte) {i : Nat} (h : i < d.length) (v : Byte) :
    lrc8 (d.set i v) = lrc8 d + (d[i] - v) := by
  rw [lrc8_eq_neg_sum, lrc8_eq_neg_sum, List.sum_set', dif_pos h]
  ring

/-- Settles O9, over the sum of the bytes: the last byte completes it to 0, one changed byte shifts it by a difference
that is not 0, and two changes that cancel leave it. -/
theorem lrcCheckForm : Obligations.LrcCheckForm := by
  refine ⟨fun d x => ?_, fun d i v h hne hsame => ?_, fun d e f x y z => ?_⟩
  · rw [lrcAcc_eq_sum, List.sum_append, List.sum_singleton, lrc8_eq_neg_sum, eq_neg_iff_add_eq_zero, add_comm]
  · have hdiff : d[i] - v = 0 := left_eq_add.mp (hsame.symm.trans (lrc8_set d h v))
    exact hne (sub_eq_zero.mp hdiff).symm
  · simp only [lrc8_eq_neg_sum, List.sum_append, List.sum_cons]
    ring

/-! ## The operations -/

/-- What `CRC16` answers when it runs (R130; log 8). -/
theorem execCrc16_ready {s : State} (hs : s.Ready) (n : Nat) : execCrc16 n s =
    if n ≤ s.cfg.xbSize then .next (s.complete { crc := some (crc16 (Memory.readBytes s.xb 0 n)) })
    else .next ({ s with free := s.free + 1 }.complete { crc := some (Config.freeCrc s.free) }) :=
  issue_ready hs _

/-- What `LRC8` answers when it runs (R138; log 8). -/
theorem execLrc8_ready {s : State} (hs : s.Ready) (n : Nat) : execLrc8 n s =
    if n ≤ s.cfg.xbSize then .next (s.complete { lrc := some (lrc8 (Memory.readBytes s.xb 0 n)) })
    else .next ({ s with free := s.free + 1 }.complete { lrc := some (Config.freeLrc s.free) }) :=
  issue_ready hs _

/-- Settles O5: within `XB` the result is the checksum of the bytes read. -/
theorem checksumOperations : Obligations.ChecksumOperations :=
  fun n _ hs hn => ⟨(execCrc16_ready hs n).trans (if_pos hn), (execLrc8_ready hs n).trans (if_pos hn)⟩

/-- Settles O6: beyond `XB` the result is the next free value. -/
theorem checksumBeyondTheBuffer : Obligations.ChecksumBeyondTheBuffer :=
  fun n _ hs hn => ⟨⟨_, (execCrc16_ready hs n).trans (if_neg hn.not_ge)⟩,
    ⟨_, (execLrc8_ready hs n).trans (if_neg hn.not_ge)⟩⟩

end Sys2Proof.Machine
end

section
/-! The operations of the Register Buffer: where the protection table sends an access, what `BUF_RD` and `BUF_WR`
answer there, and the write that the next read returns. -/

namespace Sys2Proof.Machine

/-! ## The protection table -/

/-- No datapoint contains the address (R152): the access fails in either direction. -/
theorem locate_of_not_inRange {c : ConfigRecord} {a : Word} (h : ∀ d ∈ c.dps, ¬ InRange d a) (dir : Dir) :
    locate c dir a = .fails exIllegalDataAddress := by
  have hnone : resolve c a = none :=
    (resolveFrom_eq_none 0 c.dps a).mpr fun d hd => Bool.eq_false_iff.mpr (h d hd ∘ dpContains_iff_inRange.mp)
  rw [locate, hnone]

/-- The resolver answers the first datapoint that contains the address, with its index in the table (R150). -/
theorem resolve_of_first_inRange {c : ConfigRecord} {a : Word} {pre post : List Datapoint} {d : Datapoint}
    (hdps : c.dps = pre ++ d :: post) (hpre : ∀ d' ∈ pre, ¬ InRange d' a) (hd : InRange d a) :
    resolve c a = some (pre.length, d) :=
  resolveFrom_eq_some.mpr ⟨pre, post, hdps, (Nat.zero_add _).symm, dpContains_iff_inRange.mpr hd,
    fun d' h' => Bool.eq_false_iff.mpr (hpre d' h' ∘ dpContains_iff_inRange.mp)⟩

/-- The datapoint found lets the access pass: it goes to the slot of R154. -/
theorem locate_of_mode_passes {c : ConfigRecord} {dir : Dir} {a : Word} {k : Nat} {d : Datapoint}
    (hr : resolve c a = some (k, d)) (hm : modeCheck dir d.mode = exOk) : locate c dir a = .hit k (dpOffset d a) := by
  simp only [locate, hr, hm, if_true]

/-- The datapoint found fails the access: its mode's exception is the answer (R153). -/
theorem locate_of_mode_fails {c : ConfigRecord} {dir : Dir} {a : Word} {k : Nat} {d : Datapoint} {e : Byte}
    (hr : resolve c a = some (k, d)) (hm : modeCheck dir d.mode = e) (he : e ≠ exOk) :
    locate c dir a = .fails e := by
  simp only [locate, hr, hm, if_neg he]

/-- Mode 3 is no mode, whatever the direction (R153). -/
theorem modeCheck_badMode (dir : Dir) : modeCheck dir Config.badMode = exSlaveDeviceFailure := if_pos rfl

theorem modeCheck_read_writeOnly : modeCheck .read Config.writeOnly = exIllegalDataAddress := rfl

theorem modeCheck_write_readOnly : modeCheck .write Config.readOnly = exIllegalDataAddress := rfl

/-- The modes a read passes (R153). -/
theorem modeCheck_read_passes {mode : BitVec 2} (h : mode = Config.readOnly ∨ mode = Config.readWrite) :
    modeCheck .read mode = exOk := by
  rcases h with rfl | rfl <;> rfl

/-- The modes a write passes (R153). -/
theorem modeCheck_write_passes {mode : BitVec 2} (h : mode = Config.writeOnly ∨ mode = Config.readWrite) :
    modeCheck .write mode = exOk := by
  rcases h with rfl | rfl <;> rfl

/-! ## What the operations answer when they run -/

theorem exec_bufRd (a : Word) (s : State) : exec (.bufRd a) s = execBufRd a s := rfl

theorem exec_bufWr (a v : Word) (s : State) : exec (.bufWr a v) s = execBufWr a v s := rfl

/-- A passing `BUF_RD` returns the register of its slot (R155). -/
theorem exec_bufRd_hit {s : State} {a : Word} {k off : Nat} (hs : s.Ready) (h : locate s.cfg .read a = .hit k off) :
    exec (.bufRd a) s = .next (s.complete { val := some (readSlot s.ds k off), exc := some exOk }) := by
  simp only [exec_bufRd, execBufRd, issue_ready hs, h]

/-- Where the Register Buffer holds a value, `BUF_RD` returns it (R155). -/
theorem exec_bufRd_holds {s : State} {a v : Word} (hs : s.Ready) (h : s.Holds a v) :
    exec (.bufRd a) s = .next (s.complete { val := some v, exc := some exOk }) := by
  obtain ⟨k, off, hloc, rfl⟩ := h
  exact exec_bufRd_hit hs hloc

/-- A failing `BUF_RD` returns its exception beside the next free value (R159; log 7). -/
theorem exec_bufRd_fails {s : State} {a : Word} {e : Byte} (hs : s.Ready) (h : locate s.cfg .read a = .fails e) :
    exec (.bufRd a) s =
      .next ({ s with free := s.free + 1 }.complete { val := some (Config.freeVal s.free), exc := some e }) := by
  simp only [exec_bufRd, execBufRd, issue_ready hs, h]

/-- A passing `BUF_WR` writes the register of its slot (R156). -/
theorem exec_bufWr_hit {s : State} {a : Word} {k off : Nat} (hs : s.Ready) (h : locate s.cfg .write a = .hit k off)
    (v : Word) :
    exec (.bufWr a v) s = .next ({ s with ds := writeSlot s.ds k off v }.complete { exc := some exOk }) := by
  simp only [exec_bufWr, execBufWr, issue_ready hs, h]

/-- A failing `BUF_WR` changes nothing (R158). -/
theorem exec_bufWr_fails {s : State} {a : Word} {e : Byte} (hs : s.Ready) (h : locate s.cfg .write a = .fails e)
    (v : Word) : exec (.bufWr a v) s = .next (s.complete { exc := some e }) := by
  simp only [exec_bufWr, execBufWr, issue_ready hs, h]

/-! ## The two bytes of a slot -/

/-- The low byte of a written register stands first (R154, R156). -/
theorem read_writeSlot_low {ds : Memory} (h : Memory.wf ds = true) (k off : Nat) (v : Word) :
    Memory.read (writeSlot ds k off v) (storeKey k off) = loByte v := by
  rw [writeSlot, Memory.read_write_other _ _ (storeKey_succ_ne k off).symm, Memory.read_write_same h]

/-- The high byte of a written register stands above its low byte (R154, R156). -/
theorem read_writeSlot_high {ds : Memory} (h : Memory.wf ds = true) (k off : Nat) (v : Word) :
    Memory.read (writeSlot ds k off v) (storeKey k (off + 1)) = hiByte v := by
  rw [writeSlot, Memory.read_write_same (Memory.write_wf h _ _)]

/-! ## The statements -/

/-- Settles O10: no datapoint, or the first one's mode 3, 1, and 0 or 2. -/
theorem bufRdFollowsTheTable : Obligations.BufRdFollowsTheTable := by
  intro a s hs
  refine ⟨fun hnone => ⟨_, exec_bufRd_fails hs (locate_of_not_inRange hnone .read)⟩, ?_⟩
  intro pre d post hdps hpre hd
  have hr : resolve s.cfg a = some (pre.length, d) := resolve_of_first_inRange hdps hpre hd
  refine ⟨fun hbad => ?_, fun hwriteOnly => ?_, fun hreadable off hoff => ?_⟩
  · have hm : modeCheck .read d.mode = exSlaveDeviceFailure := hbad ▸ modeCheck_badMode .read
    exact ⟨_, exec_bufRd_fails hs (locate_of_mode_fails hr hm (by decide))⟩
  · have hm : modeCheck .read d.mode = exIllegalDataAddress := hwriteOnly ▸ modeCheck_read_writeOnly
    exact ⟨_, exec_bufRd_fails hs (locate_of_mode_fails hr hm (by decide))⟩
  · obtain rfl : off = dpOffset d a := hoff
    exact ⟨_, rfl, exec_bufRd_hit hs (locate_of_mode_passes hr (modeCheck_read_passes hreadable))⟩

/-- Settles O11: no datapoint, or the first one's mode 3, 0, and 1 or 2; a passing write's memory byte by byte. -/
theorem bufWrFollowsTheTable : Obligations.BufWrFollowsTheTable := by
  intro a v s hs hwf
  refine ⟨fun hnone => exec_bufWr_fails hs (locate_of_not_inRange hnone .write) v, ?_⟩
  intro pre d post hdps hpre hd
  have hr : resolve s.cfg a = some (pre.length, d) := resolve_of_first_inRange hdps hpre hd
  refine ⟨fun hbad => ?_, fun hreadOnly => ?_, fun hwritable off hoff => ?_⟩
  · have hm : modeCheck .write d.mode = exSlaveDeviceFailure := hbad ▸ modeCheck_badMode .write
    exact exec_bufWr_fails hs (locate_of_mode_fails hr hm (by decide)) v
  · have hm : modeCheck .write d.mode = exIllegalDataAddress := hreadOnly ▸ modeCheck_write_readOnly
    exact exec_bufWr_fails hs (locate_of_mode_fails hr hm (by decide)) v
  · obtain rfl : off = dpOffset d a := hoff
    exact ⟨writeSlot s.ds pre.length (dpOffset d a) v,
      exec_bufWr_hit hs (locate_of_mode_passes hr (modeCheck_write_passes hwritable)) v,
      read_writeSlot_low hwf _ _ v, read_writeSlot_high hwf _ _ v, fun _ => read_writeSlot_other s.ds v⟩

/-- Settles O12: both accesses go to the same slot, since the write leaves the table as it is. -/
theorem bufWriteReadsBack : Obligations.BufWriteReadsBack := by
  intro a v s k d hs hwf hr hmode
  have hwrite : locate s.cfg .write a = .hit k (dpOffset d a) :=
    locate_of_mode_passes hr (modeCheck_write_passes (.inr hmode))
  have hread : locate s.cfg .read a = .hit k (dpOffset d a) :=
    locate_of_mode_passes hr (modeCheck_read_passes (.inr hmode))
  exact ⟨_, exec_bufWr_hit hs hwrite v, rfl,
    exec_bufRd_holds ⟨hs.cfg, hs.running⟩ ⟨k, dpOffset d a, hread, readSlot_writeSlot hwf k (dpOffset d a) v⟩⟩

end Sys2Proof.Machine
end

section
/-! The RTU codec: the decoder's test is the residue of the whole frame, so a round trip is the residue of an encoded
frame and a changed byte is one that moves the CRC; and the operations that write and read a frame. -/

namespace Sys2Proof.Machine

/-! ## Blocks of a byte memory -/

/-- A block read in two parts. -/
theorem Memory.readBytes_add (m : Memory) (a i j : Nat) :
    Memory.readBytes m a (i + j) = Memory.readBytes m a i ++ Memory.readBytes m (a + i) j := by
  induction i generalizing a with
  | zero => rw [Nat.zero_add]; rfl
  | succ i ih =>
    rw [Nat.add_right_comm, Memory.readBytes, Memory.readBytes, ih, List.cons_append, Nat.add_assoc a 1 i,
      Nat.add_comm 1 i]

/-- A block write, read back whole. -/
theorem Memory.readBytes_writeBytes_self {m : Memory} (hm : Memory.wf m = true) (a : Nat) (vs : List Byte) :
    Memory.readBytes (Memory.writeBytes m a vs) a vs.length = vs := by
  simpa using Memory.readBytes_writeBytes hm a vs (j := 0) (Nat.zero_add _).le

/-- A block read after one of its bytes was replaced. -/
theorem Memory.readBytes_write {m : Memory} (hm : Memory.wf m = true) (a n j : Nat) (v : Byte) :
    Memory.readBytes (Memory.write m (a + j) v) a n = (Memory.readBytes m a n).set j v := by
  apply List.ext_getElem
  · simp
  · intro i _ _
    rw [Memory.readBytes_getElem, List.getElem_set, Memory.readBytes_getElem]
    split
    · next h => rw [h, Memory.read_write_same hm]
    · next h => rw [Memory.read_write_other _ _ (by omega)]

/-! ## The CRC of a changed list, and the trailer -/

/-- Replacing a byte by another value moves the accumulator, whatever follows it (R180). -/
theorem eq_of_crcAcc_set {c : Word} {d : List Byte} {i : Nat} (hi : i < d.length) {v : Byte}
    (h : crcAcc c (d.set i v) = crcAcc c d) : v = d[i] := by
  induction d generalizing c i with
  | nil => exact absurd hi (Nat.not_lt_zero i)
  | cons x d ih =>
    cases i with
    | zero => exact crcByte_inj_right (crcAcc_inj d h)
    | succ i => exact ih (Nat.lt_of_succ_lt_succ hi) h

theorem eq_of_crc16_set {d : List Byte} {i : Nat} (hi : i < d.length) {v : Byte} (h : crc16 (d.set i v) = crc16 d) :
    v = d[i] := by
  rw [crc16_eq, crc16_eq] at h
  exact eq_of_crcAcc_set hi h

/-- Two bytes make a word exactly when they are its low and its high byte (R12). -/
theorem be16_eq_iff {hi lo : Byte} {c : Word} : be16 hi lo = c ↔ lo = loByte c ∧ hi = hiByte c := by
  constructor
  · rintro rfl
    simp
  · rintro ⟨rfl, rfl⟩
    exact be16_hi_lo c

/-- The comparison of R177 is the residue test over the frame with its trailer (R136). -/
theorem crc16_readBytes_eq_zero_iff (xb : Memory) (k : Nat) :
    crc16 (Memory.readBytes xb 0 (k + 2)) = 0 ↔
      be16 (Memory.read xb (k + 1)) (Memory.read xb k) = crc16 (Memory.readBytes xb 0 k) := by
  rw [Memory.readBytes_add, Nat.zero_add]
  exact crc16_residue_iff _ _ _

/-! ## The frame -/

/-- The CRC over an encoded frame with its trailer is 0 (R136). -/
theorem crc16_rtuFrame (p : Pdu) : crc16 (rtuFrame p) = 0 :=
  (crc16_residue_iff p.bytes _ _).mpr (be16_hi_lo _)

/-- What stands where in a buffer that holds the frame of a bank (R92, R172). -/
theorem read_of_readBytes_eq_rtuFrame {xb : Memory} {p : Pdu} (hl : p.len.toNat ≤ Config.payloadMax)
    (h : Memory.readBytes xb 0 (p.len.toNat + Config.rtuOverhead) = rtuFrame p) :
    Memory.read xb 0 = p.addr ∧ Memory.read xb 1 = p.fc ∧
    (∀ i, i < p.len.toNat → Memory.read xb (2 + i) = p.get i) ∧
    Memory.read xb (p.len.toNat + 2) = loByte (crc16 p.bytes) ∧
    Memory.read xb (p.len.toNat + 3) = hiByte (crc16 p.bytes) := by
  have hlen : (Memory.readBytes xb 0 (p.len.toNat + 2)).length = p.bytes.length := by
    rw [Memory.readBytes_length, Pdu.bytes_length p hl]
  rw [Config.rtuOverhead, show p.len.toNat + 4 = (p.len.toNat + 2) + 2 from rfl, Memory.readBytes_add, rtuFrame,
    Nat.zero_add] at h
  obtain ⟨hbytes, htrailer⟩ := List.append_inj h hlen
  obtain ⟨haddr, hrest⟩ := List.cons.inj hbytes
  obtain ⟨hfc, hpayload⟩ := List.cons.inj hrest
  obtain ⟨hlo, hhi⟩ := List.cons.inj htrailer
  refine ⟨haddr, hfc, fun i hi => ?_, hlo, List.head_eq_of_cons_eq hhi⟩
  have hi' : i < (Memory.readBytes xb 2 p.len.toNat).length := by rwa [Memory.readBytes_length]
  rw [← Memory.readBytes_getElem xb 2 _ hi', ← Pdu.payload_getElem p (by rwa [Pdu.payload_length p hl])]
  exact List.getElem_of_eq hpayload hi'

/-! ## RTU_ENC -/

theorem exec_rtuEnc (b : Bank) (cap : Nat) (s : State) : exec (.rtuEnc b cap) s = execRtuEnc b cap s := rfl

/-- What `RTU_ENC` answers when it runs (R170, R171). -/
theorem exec_rtuEnc_ready {s : State} (hs : s.Ready) (b : Bank) (cap : Nat) : exec (.rtuEnc b cap) s =
    if Config.payloadMax < (s.bank b).len.toNat ∨ cap < (s.bank b).len.toNat + Config.rtuOverhead then
      .next (s.complete { n := some 0 })
    else .next ({ s with xb := Memory.writeBytes s.xb 0 (rtuFrame (s.bank b)) }.complete
      { n := some ((s.bank b).len.toNat + Config.rtuOverhead) }) := by
  rw [exec_rtuEnc, execRtuEnc, issue_ready hs]

/-- The encoder's buffer holds the frame (R172). -/
theorem readBytes_rtuFrame {xb : Memory} (hwf : Memory.wf xb = true) {p : Pdu} (hl : p.len.toNat ≤ Config.payloadMax) :
    Memory.readBytes (Memory.writeBytes xb 0 (rtuFrame p)) 0 (p.len.toNat + Config.rtuOverhead) = rtuFrame p := by
  rw [← rtuFrame_length p hl]
  exact Memory.readBytes_writeBytes_self hwf 0 (rtuFrame p)

/-- What an encode that answers `n > 0` leaves: the frame of `n` bytes in `XB`, and a machine that still runs. -/
theorem exec_rtuEnc_succeeds {b : Bank} {cap n : Nat} {s t : State} (hs : s.Ready) (hwf : Memory.wf s.xb = true)
    (h : exec (.rtuEnc b cap) s = .next t) (hout : t.out = .completed { n := some n }) (hn : 0 < n) :
    (s.bank b).len.toNat ≤ Config.payloadMax ∧ n = (s.bank b).len.toNat + Config.rtuOverhead ∧
    t.Ready ∧ Memory.wf t.xb = true ∧ Memory.readBytes t.xb 0 n = rtuFrame (s.bank b) := by
  rw [exec_rtuEnc_ready hs] at h
  split at h
  · obtain rfl := Host.Outcome.next.inj h
    obtain rfl : 0 = n := by simpa using hout
    exact absurd hn (lt_irrefl 0)
  · next hfits =>
    obtain rfl := Host.Outcome.next.inj h
    obtain rfl : (s.bank b).len.toNat + Config.rtuOverhead = n := by simpa using hout
    have hl : (s.bank b).len.toNat ≤ Config.payloadMax := le_of_not_gt fun hgt => hfits (.inl hgt)
    exact ⟨hl, rfl, ⟨hs.cfg, hs.running⟩, Memory.writeBytes_wf hwf 0 _, readBytes_rtuFrame hwf hl⟩

/-! ## RTU_DEC -/

theorem exec_rtuDec (b : Bank) (n : Nat) (s : State) : exec (.rtuDec b n) s = execRtuDec b n s := rfl

/-- The bank that `RTU_DEC` leaves for a frame with `l` payload bytes (R174). -/
def State.rtuDecoded (s : State) (b : Bank) (l : Nat) : Pdu :=
  (s.bank b).load (Memory.read s.xb 0) (Memory.read s.xb 1) (Memory.readBytes s.xb 2 l)

section
variable (s : State) (b : Bank) {l i : Nat}

@[simp] theorem State.rtuDecoded_addr : (s.rtuDecoded b l).addr = Memory.read s.xb 0 := Pdu.load_addr ..

@[simp] theorem State.rtuDecoded_fc : (s.rtuDecoded b l).fc = Memory.read s.xb 1 := Pdu.load_fc ..

theorem State.rtuDecoded_len : (s.rtuDecoded b l).len = BitVec.ofNat 8 l := by
  rw [State.rtuDecoded, Pdu.load_len, Memory.readBytes_length]

theorem State.rtuDecoded_get (hl : l ≤ Config.payloadMax) (hi : i < l) :
    (s.rtuDecoded b l).get i = Memory.read s.xb (2 + i) := by
  have hlen : (Memory.readBytes s.xb 2 l).length = l := Memory.readBytes_length ..
  rw [State.rtuDecoded, Pdu.get_load _ _ _ _ (hi.trans_eq hlen.symm) (hlen.trans_le hl), Memory.readBytes_getElem]

/-- The payload registers beyond the frame's keep what they held (R46, R176). -/
theorem State.rtuDecoded_get_stale (hi : l ≤ i) : (s.rtuDecoded b l).get i = (s.bank b).get i :=
  Pdu.get_load_stale _ _ _ _ ((Memory.readBytes_length ..).trans_le hi)

end

/-- `RTU_DEC` refuses a length that no frame has (R175). -/
theorem exec_rtuDec_badLength {s : State} (hs : s.Ready) (b : Bank) {n : Nat}
    (h : n < Config.rtuDecMin ∨ Config.rtuFrameMax < n) :
    exec (.rtuDec b n) s = .next (s.complete { ok := some false }) := by
  rw [exec_rtuDec, execRtuDec, issue_ready hs, if_pos h]

/-- `RTU_DEC` of a frame with `l` payload bytes writes the bank and answers the residue test (R174, R177). -/
theorem exec_rtuDec_frame {s : State} (hs : s.Ready) (b : Bank) {l : Nat} (hpos : 1 ≤ l) (hl : l ≤ Config.payloadMax) :
    exec (.rtuDec b (l + 4)) s = .next ((s.setBank b (s.rtuDecoded b l)).complete
      { ok := some (decide (crc16 (Memory.readBytes s.xb 0 (l + 4)) = 0)) }) := by
  have hlength : ¬ (l + 4 < Config.rtuDecMin ∨ Config.rtuFrameMax < l + 4) := by
    simp only [Config.rtuDecMin, Config.rtuFrameMax, Config.payloadMax] at hl ⊢
    omega
  rw [exec_rtuDec, execRtuDec, issue_ready hs, if_neg hlength,
    decide_eq_decide.mpr (crc16_readBytes_eq_zero_iff s.xb (l + 2))]
  rfl

/-- A buffer that fails the residue test over `n` bytes is refused, whatever `n` is (R175, R177). -/
theorem exec_rtuDec_refuses {s : State} (hs : s.Ready) (b : Bank) {n : Nat}
    (h : crc16 (Memory.readBytes s.xb 0 n) ≠ 0) :
    ∃ u, exec (.rtuDec b n) s = .next u ∧ u.out = .completed { ok := some false } := by
  by_cases hlength : n < Config.rtuDecMin ∨ Config.rtuFrameMax < n
  · exact ⟨_, exec_rtuDec_badLength hs b hlength, rfl⟩
  · simp only [Config.rtuDecMin, Config.rtuFrameMax] at hlength
    obtain ⟨l, rfl⟩ : ∃ l, n = l + 4 := Nat.exists_eq_add_of_le' (by omega)
    have hexec := exec_rtuDec_frame hs b (l := l) (by omega) (by simp only [Config.payloadMax]; omega)
    rw [decide_eq_false h] at hexec
    exact ⟨_, hexec, rfl⟩

/-! ## The statements -/

/-- Settles O16: the encoded frame passes the residue test, and the decoded bank reads the fields back from it. -/
theorem rtuRoundTrip : Obligations.RtuRoundTrip := by
  intro b b' cap n s t hs hwf henc hout hn
  obtain ⟨hl, rfl, ht, -, hframe⟩ := exec_rtuEnc_succeeds hs hwf henc hout hn
  obtain ⟨haddr, hfc, hpayload, -, -⟩ := read_of_readBytes_eq_rtuFrame hl hframe
  refine ⟨fun hpos => ?_, fun hempty => ?_⟩
  · have hdec := exec_rtuDec_frame ht b' hpos hl
    have hresidue : crc16 (Memory.readBytes t.xb 0 ((s.bank b).len.toNat + 4)) = 0 := hframe ▸ crc16_rtuFrame _
    rw [decide_eq_true hresidue] at hdec
    refine ⟨_, hdec, rfl, ?_⟩
    rw [State.bank_complete, State.bank_setBank]
    refine ⟨?_, ?_, ?_, fun i hi => ?_⟩
    · rw [State.rtuDecoded_addr, haddr]
    · rw [State.rtuDecoded_fc, hfc]
    · rw [State.rtuDecoded_len, BitVec.ofNat_toNat, BitVec.setWidth_eq]
    · rw [State.rtuDecoded_get t b' hl hi, hpayload i hi]
  · rw [hempty]
    exact ⟨rfl, exec_rtuDec_badLength ht b' (by decide)⟩

/-- Settles O14: either bound fails, or the frame is written and read byte by byte. -/
theorem rtuEncodeWritesTheFrame : Obligations.RtuEncodeWritesTheFrame := by
  rintro b cap s p l hs hwf rfl rfl
  refine ⟨fun hbad => (exec_rtuEnc_ready hs b cap).trans (if_pos hbad), fun hl hcap => ?_⟩
  obtain ⟨haddr, hfc, hpayload, hlo, hhi⟩ := read_of_readBytes_eq_rtuFrame hl (readBytes_rtuFrame hwf hl)
  refine ⟨_, (exec_rtuEnc_ready hs b cap).trans (if_neg ?_), haddr, hfc, hpayload, hlo, hhi, fun j hj => ?_⟩
  · exact not_or.mpr ⟨hl.not_gt, hcap.not_gt⟩
  · have hlen : (rtuFrame (s.bank b)).length = (s.bank b).len.toNat + 4 := rtuFrame_length _ hl
    exact Memory.read_writeBytes_other s.xb _ (.inr (by omega))

/-- Settles O15: the bad lengths, and otherwise the decoded bank with the residue test read as the comparison. -/
theorem rtuDecodeExtractsTheFields : Obligations.RtuDecodeExtractsTheFields := by
  rintro b n s c hs rfl
  refine ⟨fun hbad => exec_rtuDec_badLength hs b hbad, fun hmin hmax => ?_⟩
  obtain ⟨l, rfl⟩ : ∃ l, n = l + 4 := Nat.exists_eq_add_of_le' (by omega)
  have hpos : 1 ≤ l := by omega
  have hl : l ≤ Config.payloadMax := Nat.le_of_add_le_add_right hmax
  refine ⟨_, _, exec_rtuDec_frame hs b hpos hl, ?_, State.rtuDecoded_addr s b, State.rtuDecoded_fc s b, ?_,
    fun i hi => State.rtuDecoded_get s b hl hi, fun i hi => State.rtuDecoded_get_stale s b hi⟩
  · exact decide_eq_true_iff.trans ((crc16_readBytes_eq_zero_iff s.xb (l + 2)).trans be16_eq_iff)
  · rw [State.rtuDecoded_len, BitVec.toNat_ofNat, Nat.add_sub_cancel]
    exact Nat.mod_eq_of_lt (by omega)

/-- Settles O17: the frame's residue is 0, so one changed byte makes it something else. -/
theorem rtuCorruptionIsDetected : Obligations.RtuCorruptionIsDetected := by
  intro b b' cap n j v s t hs hwf henc hout hj hne
  obtain ⟨-, -, ht, htwf, hframe⟩ := exec_rtuEnc_succeeds hs hwf henc hout (Nat.zero_lt_of_lt hj)
  have hjlen : j < (Memory.readBytes t.xb 0 n).length := by rwa [Memory.readBytes_length]
  have hold : crc16 (Memory.readBytes t.xb 0 n) = 0 := hframe ▸ crc16_rtuFrame _
  have hnew : Memory.readBytes (Memory.write t.xb j v) 0 n = (Memory.readBytes t.xb 0 n).set j v := by
    simpa using Memory.readBytes_write htwf 0 n j v
  refine exec_rtuDec_refuses (s := { t with xb := Memory.write t.xb j v }) ⟨ht.cfg, ht.running⟩ b' fun hzero => hne ?_
  have hsame : crc16 ((Memory.readBytes t.xb 0 n).set j v) = crc16 (Memory.readBytes t.xb 0 n) :=
    hnew ▸ hzero.trans hold.symm
  simpa [Memory.readBytes_getElem] using eq_of_crc16_set hjlen hsame

end Sys2Proof.Machine
end

section
/-! The ASCII codec: a frame's body is the digits of its bytes, the LRC of the bytes with their own LRC is 0, and the
decoder's test is that residue; so a changed character is a lost marker, no digit, or one other byte that moves the
LRC. -/

namespace Sys2Proof.Machine

/-! ## Rows of digits -/

/-- Every character of a row of digits is a digit (R110, R191). -/
theorem exists_hexDigit_of_mem_hexBytes {d : List Byte} {c : Byte} (h : c ∈ hexBytes d) : ∃ x, c = hexDigit x := by
  induction d with
  | nil => exact absurd h List.not_mem_nil
  | cons x d ih =>
    rcases List.mem_append.mp h with hx | hd
    · rcases List.mem_pair.mp hx with rfl | rfl
      · exact ⟨_, rfl⟩
      · exact ⟨_, rfl⟩
    · exact ih hd

/-- A row with a character that is no digit does not parse (R198). -/
theorem unhexBytes_eq_none {l : List Byte} {c : Byte} (hc : c ∈ l) (h : hexVal c = none) : unhexBytes l = none := by
  refine Option.eq_none_iff_forall_ne_some.mpr fun d hd => ?_
  obtain ⟨x, rfl⟩ := exists_hexDigit_of_mem_hexBytes ((hexBytes_unhexBytes hd).symm ▸ hc)
  simp [hexVal_hexDigit] at h

/-- Byte `i` stands in the row as its two digits, the high one first (R191). -/
theorem hexBytes_getElem? (d : List Byte) {i : Nat} (hi : i < d.length) :
    (hexBytes d)[2 * i]? = some (hexDigit (d[i].extractLsb' 4 4)) ∧
    (hexBytes d)[2 * i + 1]? = some (hexDigit (d[i].extractLsb' 0 4)) := by
  induction d generalizing i with
  | nil => exact absurd hi (Nat.not_lt_zero i)
  | cons x d ih =>
    cases i with
    | zero => exact ⟨rfl, rfl⟩
    | succ i => exact ih (Nat.lt_of_succ_lt_succ hi)

/-- Different rows of bytes have different digits (R202). -/
theorem hexBytes_inj {d e : List Byte} (h : hexBytes d = hexBytes e) : d = e :=
  Option.some.inj ((unhexBytes_hexBytes d).symm.trans (h ▸ unhexBytes_hexBytes e))

/-- A row of digits with one character replaced is, when it is one again, the row of bytes with one byte replaced. -/
theorem eq_set_of_hexBytes_eq_set {d e : List Byte} {k : Nat} {v : Byte} (hk : k < (hexBytes e).length)
    (h : hexBytes d = (hexBytes e).set k v) : ∃ i y, i < e.length ∧ d = e.set i y := by
  induction e generalizing d k with
  | nil => exact absurd hk (Nat.not_lt_zero k)
  | cons x e ih =>
    cases d with
    | nil => exact absurd (congrArg List.length h) (by simp)
    | cons y d =>
      match k with
      | 0 | 1 =>
        have hrest : hexBytes d = hexBytes e := (List.cons.inj (List.cons.inj h).2).2
        exact ⟨0, y, Nat.succ_pos _, congrArg (y :: ·) (hexBytes_inj hrest)⟩
      | k + 2 =>
        obtain ⟨hdigits, hrest⟩ : hexByte y = hexByte x ∧ hexBytes d = (hexBytes e).set k v :=
          List.append_inj (s₁ := hexByte y) (s₂ := hexByte x) h rfl
        obtain ⟨i, z, hi, rfl⟩ := ih (Nat.lt_of_add_lt_add_right hk) hrest
        obtain rfl : y = x := List.head_eq_of_cons_eq (hexBytes_inj (d := [y]) (e := [x]) (congrArg (· ++ []) hdigits))
        exact ⟨i + 1, z, Nat.succ_lt_succ hi, rfl⟩

/-! ## The LRC of a list with its own LRC -/

/-- The LRC over a list with one more byte is 0 exactly when that byte is the list's LRC (R140). -/
theorem lrc8_residue_iff (d : List Byte) (x : Byte) : lrc8 (d ++ [x]) = 0 ↔ x = lrc8 d :=
  neg_eq_zero.trans (lrcCheckForm.1 d x)

/-- One character replaced by another in the digits of bytes with residue 0 makes, where it is a digit, the digits of
bytes with another residue (R203). -/
theorem lrc8_ne_zero_of_hexBytes_set {d e : List Byte} {k : Nat} {v : Byte} (he : lrc8 e = 0)
    (hk : k < (hexBytes e).length) (h : hexBytes d = (hexBytes e).set k v) (hne : v ≠ (hexBytes e)[k]) :
    lrc8 d ≠ 0 := by
  obtain ⟨i, y, hi, rfl⟩ := eq_set_of_hexBytes_eq_set hk h
  obtain ⟨-, hdetects, -⟩ := lrcCheckForm
  intro hzero
  obtain rfl : y = e[i] := by_contra fun hy => hdetects e i y hi hy (hzero.trans he.symm)
  rw [List.set_getElem_self] at h
  exact hne (by simpa using (List.getElem_of_eq h hk).symm)

/-! ## The frame -/

/-- One character of a block read. -/
theorem Memory.read_of_readBytes_eq {m : Memory} {a n k : Nat} {l : List Byte} {c : Byte}
    (h : Memory.readBytes m a n = l) (hc : l[k]? = some c) : Memory.read m (a + k) = c := by
  subst h
  obtain ⟨hk, rfl⟩ := List.getElem?_eq_some_iff.mp hc
  exact (Memory.readBytes_getElem m a n hk).symm

/-- An offset that reads as before a byte was replaced by another is not that byte's. -/
theorem Memory.ne_of_read_write_eq {m : Memory} (hm : Memory.wf m = true) {j a : Nat} {v : Byte}
    (hne : v ≠ Memory.read m j) (h : Memory.read (Memory.write m j v) a = Memory.read m a) : j ≠ a := by
  rintro rfl
  exact hne ((Memory.read_write_same hm j v).symm.trans h)

/-- The characters of a block are those at its offsets. -/
theorem Memory.read_mem_readBytes (m : Memory) {a n j : Nat} (ha : a ≤ j) (hj : j < a + n) :
    Memory.read m j ∈ Memory.readBytes m a n := by
  obtain ⟨k, rfl⟩ := Nat.exists_eq_add_of_le ha
  have hk : k < (Memory.readBytes m a n).length := (Memory.readBytes_length ..).symm ▸ Nat.lt_of_add_lt_add_left hj
  exact Memory.readBytes_getElem m a n hk ▸ List.getElem_mem hk

/-- What stands where in a buffer that holds the frame of a bank (R93, R192). -/
theorem read_of_readBytes_eq_ascFrame {xb : Memory} {p : Pdu} (hl : p.len.toNat ≤ Config.payloadMax)
    (h : Memory.readBytes xb 0 (2 * p.len.toNat + Config.ascOverhead) = ascFrame p) :
    Memory.read xb 0 = colon ∧
    Memory.readBytes xb 1 (2 * p.len.toNat + 6) = hexBytes (p.bytes ++ [lrc8 p.bytes]) ∧
    Memory.read xb (2 * p.len.toNat + 7) = carriageReturn ∧ Memory.read xb (2 * p.len.toNat + 8) = lineFeed := by
  have hlen : (hexBytes (p.bytes ++ [lrc8 p.bytes])).length = 2 * p.len.toNat + 6 := by
    rw [hexBytes_length, List.length_append, Pdu.bytes_length p hl, List.length_singleton]
    omega
  obtain ⟨hcolon, hrest⟩ := List.cons.inj h
  rw [show 2 * p.len.toNat + 8 = (2 * p.len.toNat + 6) + 2 from rfl, Memory.readBytes_add] at hrest
  obtain ⟨hbody, hend⟩ := List.append_inj hrest ((Memory.readBytes_length ..).trans hlen.symm)
  obtain ⟨hcr, hlf⟩ := List.cons.inj hend
  refine ⟨hcolon, hbody, ?_, ?_⟩
  · exact (congrArg (Memory.read xb) (by omega)).trans hcr
  · exact (congrArg (Memory.read xb) (by omega)).trans (List.head_eq_of_cons_eq hlf)

/-- The encoder's buffer holds the frame (R192). -/
theorem readBytes_ascFrame {xb : Memory} (hwf : Memory.wf xb = true) {p : Pdu} (hl : p.len.toNat ≤ Config.payloadMax) :
    Memory.readBytes (Memory.writeBytes xb 0 (ascFrame p)) 0 (2 * p.len.toNat + Config.ascOverhead) = ascFrame p := by
  rw [← ascFrame_length p hl]
  exact Memory.readBytes_writeBytes_self hwf 0 (ascFrame p)

/-! ## ASC_ENC -/

theorem exec_ascEnc (b : Bank) (cap : Nat) (s : State) : exec (.ascEnc b cap) s = execAscEnc b cap s := rfl

/-- What `ASC_ENC` answers when it runs (R192, R193). -/
theorem exec_ascEnc_ready {s : State} (hs : s.Ready) (b : Bank) (cap : Nat) : exec (.ascEnc b cap) s =
    if Config.payloadMax < (s.bank b).len.toNat ∨ cap < 2 * (s.bank b).len.toNat + Config.ascOverhead then
      .next (s.complete { n := some 0 })
    else .next ({ s with xb := Memory.writeBytes s.xb 0 (ascFrame (s.bank b)) }.complete
      { n := some (2 * (s.bank b).len.toNat + Config.ascOverhead) }) := by
  rw [exec_ascEnc, execAscEnc, issue_ready hs]

/-- What an encode that answers `n > 0` leaves: the frame of `n` characters in `XB`, and a machine that still runs. -/
theorem exec_ascEnc_succeeds {b : Bank} {cap n : Nat} {s t : State} (hs : s.Ready) (hwf : Memory.wf s.xb = true)
    (h : exec (.ascEnc b cap) s = .next t) (hout : t.out = .completed { n := some n }) (hn : 0 < n) :
    (s.bank b).len.toNat ≤ Config.payloadMax ∧ n = 2 * (s.bank b).len.toNat + Config.ascOverhead ∧
    t.Ready ∧ Memory.wf t.xb = true ∧ Memory.readBytes t.xb 0 n = ascFrame (s.bank b) := by
  rw [exec_ascEnc_ready hs] at h
  split at h
  · obtain rfl := Host.Outcome.next.inj h
    obtain rfl : 0 = n := by simpa using hout
    exact absurd hn (lt_irrefl 0)
  · next hfits =>
    obtain rfl := Host.Outcome.next.inj h
    obtain rfl : 2 * (s.bank b).len.toNat + Config.ascOverhead = n := by simpa using hout
    have hl : (s.bank b).len.toNat ≤ Config.payloadMax := le_of_not_gt fun hgt => hfits (.inl hgt)
    exact ⟨hl, rfl, ⟨hs.cfg, hs.running⟩, Memory.writeBytes_wf hwf 0 _, readBytes_ascFrame hwf hl⟩

/-! ## ASC_DEC -/

theorem exec_ascDec (b : Bank) (n : Nat) (s : State) : exec (.ascDec b n) s = execAscDec b n s := rfl

/-- The checks before the digits: an odd length that a frame can have, and the three markers (R196, R197). -/
theorem ascShapeOk_iff {xb : Memory} {n : Nat} : ascShapeOk xb n = true ↔
    Config.ascDecMin ≤ n ∧ n ≤ Config.ascFrameMax ∧ n % 2 = 1 ∧ Memory.read xb 0 = colon ∧
    Memory.read xb (n - 2) = carriageReturn ∧ Memory.read xb (n - 1) = lineFeed := by
  simp only [ascShapeOk, Bool.and_eq_true, decide_eq_true_eq, beq_iff_eq, and_assoc]

/-- `ASC_DEC` refuses a frame of a length or without the markers that R196 and R197 ask for. -/
theorem exec_ascDec_badShape {s : State} (hs : s.Ready) (b : Bank) {n : Nat} (h : ¬ ascShapeOk s.xb n = true) :
    exec (.ascDec b n) s = .next (s.complete { ok := some false }) := by
  rw [exec_ascDec, execAscDec, issue_ready hs, if_neg h]

/-- `ASC_DEC` refuses a body that does not parse, whatever its markers are (R198). -/
theorem exec_ascDec_badBody {s : State} (hs : s.Ready) (b : Bank) {n : Nat}
    (h : unhexBytes (Memory.readBytes s.xb 1 (n - 3)) = none) :
    exec (.ascDec b n) s = .next (s.complete { ok := some false }) := by
  by_cases hshape : ascShapeOk s.xb n = true
  · rw [exec_ascDec, execAscDec, issue_ready hs, if_pos hshape, h]
  · exact exec_ascDec_badShape hs b hshape

/-- The bank that `ASC_DEC` leaves for a frame of the bytes `d` and their LRC (R195). -/
def State.ascDecoded (s : State) (b : Bank) (d : List Byte) : Pdu :=
  (s.bank b).load (d.getD 0 0) (d.getD 1 0) (d.drop 2)

section
variable (s : State) (b : Bank) {d : List Byte} {i : Nat}

theorem State.ascDecoded_addr (h : 2 ≤ d.length) : d[0]? = some (s.ascDecoded b d).addr := by
  rw [State.ascDecoded, Pdu.load_addr, List.getD_eq_getElem _ _ (by omega), List.getElem?_eq_getElem]

theorem State.ascDecoded_fc (h : 2 ≤ d.length) : d[1]? = some (s.ascDecoded b d).fc := by
  rw [State.ascDecoded, Pdu.load_fc, List.getD_eq_getElem _ _ (by omega), List.getElem?_eq_getElem]

theorem State.ascDecoded_len : (s.ascDecoded b d).len = BitVec.ofNat 8 (d.length - 2) := by
  rw [State.ascDecoded, Pdu.load_len, List.length_drop]

theorem State.ascDecoded_get (hd : d.length - 2 ≤ Config.payloadMax) (hi : i < d.length - 2) :
    d[2 + i]? = some ((s.ascDecoded b d).get i) := by
  rw [← List.length_drop] at hd hi
  rw [State.ascDecoded, Pdu.get_load _ _ _ _ hi hd, ← List.getElem?_drop, List.getElem?_eq_getElem hi]

/-- The payload registers beyond the frame's keep what they held (R46). -/
theorem State.ascDecoded_get_stale (hi : d.length - 2 ≤ i) : (s.ascDecoded b d).get i = (s.bank b).get i :=
  Pdu.get_load_stale _ _ _ _ (List.length_drop.trans_le hi)

end

/-- `ASC_DEC` of a frame of the bytes `d` and `rx` writes the bank and answers whether `rx` is the LRC (R195, R200). -/
theorem exec_ascDec_frame {s : State} (hs : s.Ready) (b : Bank) {n : Nat} {d : List Byte} {rx : Byte}
    (hshape : ascShapeOk s.xb n = true) (hbody : unhexBytes (Memory.readBytes s.xb 1 (n - 3)) = some (d ++ [rx])) :
    exec (.ascDec b n) s = .next ((s.setBank b (s.ascDecoded b d)).complete { ok := some (decide (rx = lrc8 d)) }) := by
  have hlast : (d ++ [rx]).getLastD 0 = rx := by simp
  rw [exec_ascDec, execAscDec, issue_ready hs, if_pos hshape, hbody]
  simp only [List.dropLast_concat, hlast, State.ascDecoded, eq_comm (a := rx), beq_eq_decide]

/-- A frame whose body does not parse into bytes with residue 0 is refused (R196 to R198, R200). -/
theorem exec_ascDec_refuses {s : State} (hs : s.Ready) (b : Bank) {n : Nat}
    (h : ascShapeOk s.xb n = true → ∀ e, unhexBytes (Memory.readBytes s.xb 1 (n - 3)) = some e → lrc8 e ≠ 0) :
    ∃ u, exec (.ascDec b n) s = .next u ∧ u.out = .completed { ok := some false } := by
  by_cases hshape : ascShapeOk s.xb n = true
  · cases hbody : unhexBytes (Memory.readBytes s.xb 1 (n - 3)) with
    | none => exact ⟨_, exec_ascDec_badBody hs b hbody, rfl⟩
    | some e =>
      have hresidue : lrc8 e ≠ 0 := h hshape e hbody
      obtain rfl | ⟨d, rx, rfl⟩ := List.eq_nil_or_concat' e
      · exact absurd rfl hresidue
      · have hexec := exec_ascDec_frame hs b hshape hbody
        rw [decide_eq_false ((lrc8_residue_iff d rx).not.mp hresidue)] at hexec
        exact ⟨_, hexec, rfl⟩
  · exact ⟨_, exec_ascDec_badShape hs b hshape, rfl⟩

/-! ## The statements -/

/-- Settles O20: the digits parse back to the bytes, and the decoded bank reads them. -/
theorem asciiDecodeExtractsTheFields : Obligations.AsciiDecodeExtractsTheFields := by
  rintro b n s d rx hs hmin hmax rfl hcolon hcr hlf hbody
  have hlen : (2 * d.length + 5 - 9) / 2 = d.length - 2 := by omega
  have hshape : ascShapeOk s.xb (2 * d.length + 5) = true :=
    ascShapeOk_iff.mpr ⟨hmin, hmax, by omega, hcolon, hcr, hlf⟩
  have hpayload : d.length - 2 ≤ Config.payloadMax := by simp only [Config.payloadMax]; omega
  rw [hlen]
  refine ⟨_, _, exec_ascDec_frame hs b hshape (hbody ▸ unhexBytes_hexBytes _), decide_eq_true_iff,
    State.ascDecoded_addr s b (by omega), State.ascDecoded_fc s b (by omega), ?_,
    fun i hi => State.ascDecoded_get s b hpayload hi, fun i hi => State.ascDecoded_get_stale s b hi⟩
  rw [State.ascDecoded_len, BitVec.toNat_ofNat]
  exact Nat.mod_eq_of_lt (by omega)

/-- Settles O21: the encoded frame is one of the bytes of the bank and their LRC, so the decoder takes these bytes from
it. -/
theorem asciiRoundTrip : Obligations.AsciiRoundTrip := by
  intro b b' cap n s t hs hwf henc hout hn
  obtain ⟨hl, rfl, ht, -, hframe⟩ := exec_ascEnc_succeeds hs hwf henc hout hn
  obtain ⟨hcolon, hbody, hcr, hlf⟩ := read_of_readBytes_eq_ascFrame hl hframe
  obtain ⟨p, ok, hexec, hok, haddr, hfc, hlen, hget, -⟩ := asciiDecodeExtractsTheFields b' _ t
    (s.bank b).bytes _ ht (Nat.le_add_left ..) (Nat.add_le_add_right (Nat.mul_le_mul_left 2 hl) 9)
    (by rw [Pdu.bytes_length _ hl]; rfl) hcolon hcr hlf hbody
  rw [Nat.add_sub_cancel, Nat.mul_div_cancel_left _ Nat.two_pos] at hlen hget
  obtain rfl : ok = true := hok.mpr rfl
  refine ⟨_, hexec, rfl, ?_⟩
  rw [State.bank_complete, State.bank_setBank]
  refine ⟨(Option.some.inj haddr).symm, (Option.some.inj hfc).symm, BitVec.eq_of_toNat_eq hlen, fun i hi => ?_⟩
  have hi' : i < ((s.bank b).payload (s.bank b).len.toNat).length := by rwa [Pdu.payload_length _ hl]
  have hget := hget i hi
  rw [Pdu.bytes, Nat.add_comm] at hget
  simpa [hi', Pdu.payload_getElem] using hget.symm

/-- Settles O18: either bound fails, or the frame is written and read digit by digit. -/
theorem asciiEncodeWritesTheFrame : Obligations.AsciiEncodeWritesTheFrame := by
  rintro b cap s p l d hs hwf rfl rfl rfl
  refine ⟨fun hbad => (exec_ascEnc_ready hs b cap).trans (if_pos hbad), fun hl hcap => ?_⟩
  obtain ⟨hcolon, hbody, hcr, hlf⟩ := read_of_readBytes_eq_ascFrame hl (readBytes_ascFrame hwf hl)
  refine ⟨_, (exec_ascEnc_ready hs b cap).trans (if_neg ?_), hcolon, fun i hi => ?_, hcr, hlf, fun j hj => ?_⟩
  · exact not_or.mpr ⟨hl.not_gt, hcap.not_gt⟩
  · obtain ⟨hhigh, hlow⟩ := hexBytes_getElem? _ hi
    refine ⟨Memory.read_of_readBytes_eq hbody hhigh, ?_⟩
    rw [← Memory.read_of_readBytes_eq hbody hlow, ← Nat.add_assoc, Nat.add_right_comm]
  · have hlen : (ascFrame (s.bank b)).length = 2 * (s.bank b).len.toNat + 9 := ascFrame_length _ hl
    exact Memory.read_writeBytes_other s.xb _ (.inr (by omega))

/-- Settles O19: one of the checks of length, markers and digits fails. -/
theorem asciiDecodeRefusesBadFrames : Obligations.AsciiDecodeRefusesBadFrames := by
  intro b n s hs hbad
  by_cases hshape : ascShapeOk s.xb n = true
  · obtain ⟨hmin, hmax, hodd, hcolon, hcr, hlf⟩ := ascShapeOk_iff.mp hshape
    obtain ⟨j, hj, hjn, hdigit⟩ : ∃ j, 1 ≤ j ∧ j ≤ n - 3 ∧ hexVal (Memory.read s.xb j) = none := by
      simpa [hcolon, hcr, hlf, hodd, hmin.not_gt, hmax.not_gt] using hbad
    have hmem : Memory.read s.xb j ∈ Memory.readBytes s.xb 1 (n - 3) := Memory.read_mem_readBytes _ hj (by omega)
    exact exec_ascDec_badBody hs b (unhexBytes_eq_none hmem hdigit)
  · exact exec_ascDec_badShape hs b hshape

/-- Settles O22: a changed marker fails the shape test; any other changed character is no digit or changes one byte, and
with it the residue of the encoded bytes. -/
theorem asciiCorruptionIsDetected : Obligations.AsciiCorruptionIsDetected := by
  intro b b' cap n j v s t hs hwf henc hout hj hne
  obtain ⟨hl, rfl, ht, htwf, hframe⟩ := exec_ascEnc_succeeds hs hwf henc hout (Nat.zero_lt_of_lt hj)
  obtain ⟨hcolon, hbody, hcr, hlf⟩ := read_of_readBytes_eq_ascFrame hl hframe
  refine exec_ascDec_refuses (s := { t with xb := Memory.write t.xb j v }) ⟨ht.cfg, ht.running⟩ b' ?_
  intro hshape d hd
  obtain ⟨-, -, -, hcolon', hcr', hlf'⟩ := ascShapeOk_iff.mp hshape
  have hj0 : j ≠ 0 := Memory.ne_of_read_write_eq htwf hne (hcolon'.trans hcolon.symm)
  have hjcr : j ≠ 2 * (s.bank b).len.toNat + 7 := Memory.ne_of_read_write_eq htwf hne (hcr'.trans hcr.symm)
  have hjlf : j ≠ 2 * (s.bank b).len.toNat + 8 := Memory.ne_of_read_write_eq htwf hne (hlf'.trans hlf.symm)
  obtain ⟨k, rfl⟩ : ∃ k, j = 1 + k := Nat.exists_eq_add_of_le (Nat.pos_of_ne_zero hj0)
  have hk : k < (Memory.readBytes t.xb 1 (2 * (s.bank b).len.toNat + 6)).length := by
    rw [Memory.readBytes_length]
    rw [Config.ascOverhead] at hj
    omega
  have hdigits : hexBytes d = (hexBytes ((s.bank b).bytes ++ [lrc8 (s.bank b).bytes])).set k v :=
    calc hexBytes d = Memory.readBytes (Memory.write t.xb (1 + k) v) 1 (2 * (s.bank b).len.toNat + 6) :=
          hexBytes_unhexBytes hd
      _ = _ := by rw [Memory.readBytes_write htwf, hbody]
  refine lrc8_ne_zero_of_hexBytes_set ((lrc8_residue_iff _ _).mpr rfl) (hbody ▸ hk) hdigits fun hsame => hne ?_
  exact (Memory.read_of_readBytes_eq hbody (List.getElem?_eq_some_iff.mpr ⟨_, hsame.symm⟩)).symm

end Sys2Proof.Machine
end

section
/-! What `PROCESS` decides before a family's own checks: the mandatory handler, the instruction that the function code
stands for, and the handler of the request. -/

namespace Sys2Proof.Machine

/-! ## The entry of `PROCESS` -/

/-- `PROCESS` and every function code begin with the entry of R220 and read nothing before it. -/
theorem exec_eq_processEntry {i : Instr} (h : isProcess i = true) : ∃ body, ∀ s, exec i s = processEntry s body := by
  cases i with
  | crc16 | lrc8 | bufRd | bufWr | rtuEnc | rtuDec | ascEnc | ascDec => exact absurd h Bool.false_ne_true
  | hostopRsvd0 | hostopRsvdA | hostopRsvdB | hostopRsvdC | hostopRsvdD | hostopRsvdE | hostopRsvdF =>
    exact absurd h Bool.false_ne_true
  | process => exact ⟨_, fun _ => rfl⟩
  | rdcoils | rddisc | rdhold | rdinput | rwregs => exact ⟨_, fun _ => rfl⟩
  | wrcoil | wrreg | wrcoils | wrregs => exact ⟨_, fun _ => rfl⟩
  | rsvd07 | rsvd08 | rsvd0B | rsvd0C | rsvd11 | rsvd14 | rsvd15 | rsvd16 | rsvd18 | illegal =>
    exact ⟨_, fun _ => rfl⟩

/-- Without the mandatory handler the entry takes the fatal fault (R221, R326). -/
theorem processEntry_unbound {s : State} (h : s.Ready) (hb : binding s.cfg sGenFunction = Config.unbound)
    (body : State → StepOut) : processEntry s body = .next (s.raiseFatal fNoGenericHandler) := by
  rw [processEntry, issue_ready h, if_pos hb]

/-- The entry runs its body on the copied header only (R222). -/
theorem processEntry_congr {s : State} {body body' : State → StepOut} (h : body s.copied = body' s.copied) :
    processEntry s body = processEntry s body' :=
  congrArg (fun o => processEntry s fun _ => o) h

/-- Settles O23: every instruction of `PROCESS` passes the entry, and the entry takes the fault. -/
theorem missingHandlerIsFatal : Obligations.MissingHandlerIsFatal := by
  intro i s hi hs hb
  obtain ⟨body, hbody⟩ := exec_eq_processEntry hi
  exact (hbody s).trans (processEntry_unbound hs hb body)

/-! ## The function code -/

/-- Settles O4: on the copied header, which keeps `REQ.fc`, the switch takes the branch of the decoded instruction. -/
theorem processRunsTheFunctionCode : Obligations.ProcessRunsTheFunctionCode := by
  intro s
  obtain ⟨body, hbody, hdispatch⟩ := exec_decodeFunction s.req.fc
  calc exec .process s = processEntry s dispatchFunction := rfl
    _ = processEntry s body := processEntry_congr (hdispatch s.copied rfl)
    _ = exec (decodeFunction s.req.fc) s := (hbody s).symm

/-- The illegal codes all have the one meaning of R234 and R235. -/
theorem exec_illegal {i : Instr} (h : isIllegal i = true) (s : State) :
    exec i s = processEntry s (exceptionEnd exIllegalFunction) := by
  cases i with
  | rsvd07 | rsvd08 | rsvd0B | rsvd0C | rsvd11 | rsvd14 | rsvd15 | rsvd16 | rsvd18 | illegal => rfl
  | _ => exact absurd h Bool.false_ne_true

/-- A code outside the nine served ones decodes to an illegal one (R114, R115). -/
theorem isIllegal_decodeFunction {fc : Byte}
    (h : fc ∉ ([0x01, 0x02, 0x03, 0x04, 0x05, 0x06, 0x0F, 0x10, 0x17] : List Byte)) :
    isIllegal (decodeFunction fc) = true := by
  unfold decodeFunction
  split <;> simp_all [isIllegal, ← BitVec.toNat_inj]

/-- Settles O24: `PROCESS` on such a code is an illegal instruction, and that one answers the exception response. -/
theorem illegalFunctionResponse : Obligations.IllegalFunctionResponse := by
  have answers {i : Instr} {s : State} (hs : s.ReadyProcess) (hi : isIllegal i = true) :
      ∃ t, exec i s = .next t ∧ ExceptionResponse s t 0x01 ∧ OnlyResponse s t := by
    rw [exec_illegal hi, processEntry_ready hs]
    exact exceptionEnd_copied s exIllegalFunction
  rintro i s hs (hi | ⟨rfl, hfc⟩)
  · exact answers hs hi
  · rw [processRunsTheFunctionCode s]
    exact answers hs (isIllegal_decodeFunction hfc)

/-! ## The handler of a request -/

/-- A bound specific slot serves the request (R225). -/
theorem choose_specific {c : ConfigRecord} {k : Fin 9} (hk : binding c k ≠ Config.unbound) (g : Fin 9) :
    choose c (some k) g = some k := if_pos hk

/-- Without a bound specific slot the generic one decides (R225). -/
theorem choose_generic {c : ConfigRecord} {spec : Option (Fin 9)}
    (h : ∀ k, spec = some k → binding c k = Config.unbound) (g : Fin 9) : choose c spec g = if binding c g ≠ Config.unbound then some g else none := by
  cases spec with
  | none => rfl
  | some k => exact if_neg fun hk => hk (h k rfl)

/-- Settles O26, clause by clause. -/
theorem handlerOrder : Obligations.HandlerOrder := by
  refine fun c spec g => ⟨?_, fun h hg => ?_, fun h hg => ?_⟩
  · rintro k rfl hk
    exact choose_specific hk g
  · exact (choose_generic h g).trans (if_pos hg)
  · exact (choose_generic h g).trans (if_neg (not_not_intro hg))

/-- A handler that returns: it was presented both banks once, and what it leaves in `RSP` stands (R226, R230). -/
theorem delegate_leaves {s : State} {p : Pdu} {rest : List GenericAnswer} (h : s.appGenerics = .leaves p :: rest) :
    delegate s = .next
      ({ s with rsp := p, appGenerics := rest, calls := s.calls ++ [Call.generic s.req s.rsp] }.complete {}) := by
  simp only [delegate, h]

/-- Settles O27: no slot is chosen, so the request is delegated with its header copied. -/
theorem unservedRequestsAreDelegated : Obligations.UnservedRequestsAreDelegated := by
  intro r s p rest hs hr hspec hgen htape
  obtain ⟨-, -, hnone⟩ := handlerOrder s.cfg r.spec r.gen
  exact (exec_delegated hs hr (hnone hspec hgen)).trans (delegate_leaves (s := s.copied) htape)

end Sys2Proof.Machine
end

section
/-! What the callback ports answer, and one item of a read of either kind: an invocation, and what its value makes of
the response bank. -/

namespace Sys2Proof.Machine

/-! ## The callback ports -/

section
variable {s : State} {slot : Fin 9} {fc : Byte} {a v : Word} {k off : Nat} {e : Byte}

theorem callRead_hit (hb : binding s.cfg slot = Config.buffer) (h : locate s.cfg .read a = .hit k off) :
    callRead slot fc a s = .ok (readSlot s.ds k off) s := by
  rw [callRead, if_pos hb, bufferRead, h]

theorem callRead_fails (hb : binding s.cfg slot = Config.buffer) (h : locate s.cfg .read a = .fails e) :
    callRead slot fc a s = .exc e s := by
  rw [callRead, if_pos hb, bufferRead, h]

theorem callWrite_hit (hb : binding s.cfg slot = Config.buffer) (h : locate s.cfg .write a = .hit k off) :
    callWrite slot fc a v s = .ok () { s with ds := writeSlot s.ds k off v } := by
  rw [callWrite, if_pos hb, bufferWrite, h]

theorem callWrite_fails (hb : binding s.cfg slot = Config.buffer) (h : locate s.cfg .write a = .fails e) :
    callWrite slot fc a v s = .exc e s := by
  rw [callWrite, if_pos hb, bufferWrite, h]

theorem external_ne_buffer (h : binding s.cfg slot = Config.external) : binding s.cfg slot ≠ Config.buffer := by
  rw [h]
  decide

theorem callRead_returns (hb : binding s.cfg slot = Config.external) {rest : List ReadAnswer}
    (h : s.appReads = .returns v e :: rest) : callRead slot fc a s =
      replyOf v e { s with calls := s.calls ++ [Call.read slot fc a], appReads := rest } := by
  simp only [callRead, if_neg (external_ne_buffer hb), externalRead, h]

theorem callWrite_returns (hb : binding s.cfg slot = Config.external) {rest : List WriteAnswer}
    (h : s.appWrites = .returns e :: rest) : callWrite slot fc a v s =
      replyOf () e { s with calls := s.calls ++ [Call.write slot fc a v], appWrites := rest } := by
  simp only [callWrite, if_neg (external_ne_buffer hb), externalWrite, h]

end

/-! ## One item of a read -/

/-- The state with a response bank under construction. -/
def State.withRsp (s : State) (p : Pdu) : State := { s with rsp := p }

/-- The response bank after item `i` was read as `v` (R255, R257). -/
def Pdu.storeItem (p : Pdu) (rule : BitRule) (k : Kind) (i : Nat) (v : Word) : Pdu :=
  match k with
  | .bit => if bitOfValue rule v then p.set (1 + i / 8) (p.get (1 + i / 8) ||| ((1 : Byte) <<< (i % 8))) else p
  | .register => p.setWord (1 + 2 * i) v

/-- What follows an invocation that succeeds; an exception and a silent callback stay what they are. -/
def Reply.andThen {α : Type} (r : Reply α) (f : α → State → State) : Reply Unit :=
  match r with
  | .ok x s => .ok () (f x s)
  | .exc e s => .exc e s
  | .never s => .never s

/-- Item `i` of a read of either kind (R255, R257). -/
def readItem (slot : Fin 9) (start : Word) : Kind → Nat → State → Reply Unit
  | .bit => bitReadItem slot start
  | .register => registerReadItem slot start

theorem readItem_eq (slot : Fin 9) (start : Word) (k : Kind) (i : Nat) (s : State) :
    readItem slot start k i s = (callRead slot s.req.fc (itemAddr start i) s).andThen
      fun v t => t.withRsp (t.rsp.storeItem t.cfg.bitRule k i v) := by
  cases k with
  | bit =>
    rw [readItem, bitReadItem]
    generalize callRead slot s.req.fc (itemAddr start i) s = reply
    cases reply with
    | ok v t =>
      simp only [Reply.andThen, Pdu.storeItem]
      split <;> rfl
    | exc e t => rfl
    | never t => rfl
  | register =>
    rw [readItem, registerReadItem]
    generalize callRead slot s.req.fc (itemAddr start i) s = reply
    cases reply <;> rfl

/-- The state after an item is the state after its invocation, up to the response bank. -/
theorem readItem_state (slot : Fin 9) (start : Word) (k : Kind) (i : Nat) (s : State) :
    ∃ p, (readItem slot start k i s).state = (callRead slot s.req.fc (itemAddr start i) s).state.withRsp p := by
  rw [readItem_eq]
  cases callRead slot s.req.fc (itemAddr start i) s <;> exact ⟨_, rfl⟩

end Sys2Proof.Machine
end

section
/-! The frame of `PROCESS`: what no answer of it changes, family by family. -/

namespace Sys2Proof.Machine

/-! ## The frame -/

/-- `t` keeps what no `PROCESS` writes (R41, R66, R237), and the stores too where the code is one that writes none. -/
structure State.Framed (storeless : Prop) (s t : State) : Prop where
  req : t.req = s.req
  xb : t.xb = s.xb
  cfg : t.cfg = s.cfg
  inbox : t.inbox = s.inbox
  ds : storeless → t.ds = s.ds

/-- Every next state that an operation answers keeps the frame. -/
def Frames (storeless : Prop) (s : State) (o : StepOut) : Prop := ∀ t, o = .next t → s.Framed storeless t

section
variable {storeless : Prop} {s t u : State}

theorem State.Framed.refl (storeless : Prop) (s : State) : s.Framed storeless s := ⟨rfl, rfl, rfl, rfl, fun _ => rfl⟩

theorem State.Framed.trans (h : s.Framed storeless t) (g : t.Framed storeless u) : s.Framed storeless u where
  req := g.req.trans h.req
  xb := g.xb.trans h.xb
  cfg := g.cfg.trans h.cfg
  inbox := g.inbox.trans h.inbox
  ds hq := (g.ds hq).trans (h.ds hq)

/-- What an invocation keeps is within the frame. -/
theorem State.Kept.framed (h : s.Kept t) (hds : storeless → t.ds = s.ds) : s.Framed storeless t :=
  ⟨h.req, h.xb, h.cfg, h.inbox, hds⟩

theorem State.Framed.setRsp (h : s.Framed storeless t) (p : Pdu) : s.Framed storeless (t.withRsp p) := { h with }

theorem Frames.next (h : s.Framed storeless t) : Frames storeless s (.next t) :=
  fun _ ht => Host.Outcome.next.inj ht ▸ h

end

/-! ## The ends of `PROCESS` -/

section
variable {storeless : Prop} {s : State}

theorem exceptionEnd_frames (e : Byte) (s : State) : Frames storeless s (exceptionEnd e s) :=
  .next { State.Framed.refl storeless s with }

theorem delegate_frames (s : State) : Frames storeless s (delegate s) := by
  obtain ⟨t, ht, -, hreq, -, -, hcfg, hxb, hds, hinbox⟩ := delegate_next s
  rw [ht]
  exact .next ⟨hreq, hxb, hcfg, hinbox, fun _ => hds⟩

theorem finish_frames {r : Reply Unit} {success : State → State} (hr : s.Framed storeless r.state)
    (hsuccess : s.Framed storeless (success r.state)) : Frames storeless s (finish r success) := by
  obtain ⟨t, ht, rfl | ⟨e, rfl⟩ | rfl⟩ := finish_next r success
  · rw [ht]; exact .next { hsuccess with }
  · rw [ht]; exact .next { hr with }
  · rw [ht]; exact .next { hr with }

/-- What the body keeps, the entry keeps: a refusal and the fatal fault touch nothing of the frame (R326, R331). -/
theorem processEntry_frames {body : State → StepOut} (h : ∀ u, Frames storeless u (body u)) (s : State) :
    Frames storeless s (processEntry s body) := by
  rcases processEntry_cases s body with ⟨-, hc⟩ | ⟨-, -, hc⟩ | ⟨-, -, hc⟩ | ⟨-, hc⟩
  · rw [hc]; exact nofun
  · rw [hc]; exact .next { State.Framed.refl storeless s with }
  · rw [hc]; exact .next { State.Framed.refl storeless s with }
  · rw [hc]; exact fun t ht => ((State.Framed.refl storeless s).setRsp _).trans (h s.copied t ht)

theorem forItems_framed {item : Nat → State → Reply Unit} (h : ∀ i (u : State), u.Framed storeless (item i u).state)
    (count i : Nat) {u : State} (hu : s.Framed storeless u) : s.Framed storeless (forItems item count i u).state :=
  forItems_keeps (s.Framed storeless) (fun i u hu => hu.trans (h i u)) count i u hu

end

/-! ## The families -/

theorem callRead_framed (slot : Fin 9) (fc : Byte) (a : Word) (s : State) :
    s.Framed True (callRead slot fc a s).state := by
  obtain ⟨hkept, -, hds⟩ := callRead_state slot fc a s
  exact hkept.framed fun _ => hds

theorem callWrite_framed (slot : Fin 9) (fc : Byte) (a v : Word) (s : State) :
    s.Framed False (callWrite slot fc a v s).state := by
  obtain ⟨hkept, -, -⟩ := callWrite_state slot fc a v s
  exact hkept.framed False.elim

theorem readItem_framed (slot : Fin 9) (start : Word) (k : Kind) (i : Nat) (s : State) :
    s.Framed True (readItem slot start k i s).state := by
  obtain ⟨p, hp⟩ := readItem_state slot start k i s
  rw [hp]
  exact (callRead_framed slot s.req.fc (itemAddr start i) s).setRsp p

/-- A loop of reads, from a response bank begun with `p`, ends with the length set (R255, R257). -/
theorem readLoop_frames {item : Nat → State → Reply Unit} (h : ∀ i (u : State), u.Framed True (item i u).state)
    (count : Nat) (s : State) (p : Pdu) (len : Byte) :
    Frames True s (finish (forItems item count 0 (s.withRsp p)) fun u => u.withRsp { u.rsp with len := len }) :=
  have hloop := forItems_framed h count 0 ((State.Framed.refl True s).setRsp p)
  finish_frames hloop (hloop.setRsp _)

theorem readFamily_frames (spec : Option (Fin 9)) (kind : Kind) (s : State) :
    Frames True s (readFamily spec kind s) := by
  unfold readFamily
  split
  · exact exceptionEnd_frames _ s
  · dsimp only
    split
    · exact delegate_frames s
    · split
      · exact exceptionEnd_frames _ s
      · cases kind with
        | bit => exact readLoop_frames (readItem_framed _ _ .bit) _ s _ _
        | register => exact readLoop_frames (readItem_framed _ _ .register) _ s _ _

theorem echo_frames {s : State} {r : Reply Unit} (h : s.Framed False r.state) :
    Frames False s (finish r State.echoResponse) :=
  finish_frames h (h.setRsp _)

theorem writeSingle_frames (spec : Option (Fin 9)) (kind : Kind) (s : State) :
    Frames False s (writeSingle spec kind s) := by
  unfold writeSingle
  split
  · exact exceptionEnd_frames _ s
  · dsimp only
    split
    · exact delegate_frames s
    · split
      · exact exceptionEnd_frames _ s
      · exact echo_frames (callWrite_framed _ _ _ _ s)

theorem writeMultiple_frames (spec : Option (Fin 9)) (kind : Kind) (s : State) :
    Frames False s (writeMultiple spec kind s) := by
  have loop {item : Nat → State → Reply Unit} (h : ∀ i (u : State), u.Framed False (item i u).state) (count : Nat) :
      Frames False s (finish (forItems item count 0 s) State.echoResponse) :=
    echo_frames (forItems_framed h count 0 (.refl False s))
  unfold writeMultiple
  split
  · exact exceptionEnd_frames _ s
  · dsimp only
    split
    · exact delegate_frames s
    · cases kind with
      | bit =>
        dsimp only
        split
        · exact loop (fun _ u => callWrite_framed _ _ _ _ u) _
        · exact exceptionEnd_frames _ s
      | register =>
        dsimp only
        split
        · exact loop (fun _ u => callWrite_framed _ _ _ _ u) _
        · exact exceptionEnd_frames _ s

theorem Frames.weaken {storeless : Prop} {s : State} {o : StepOut} (h : Frames True s o) : Frames storeless s o :=
  fun t ht => { h t ht with ds := fun _ => (h t ht).ds trivial }

theorem dispatchFunction_frames (s : State) : Frames False s (dispatchFunction s) := by
  unfold dispatchFunction
  cases familyOf s.req.fc with
  | read => exact (readFamily_frames _ _ s).weaken
  | writeSingle => exact writeSingle_frames _ _ s
  | writeMultiple => exact writeMultiple_frames _ _ s
  | none => exact exceptionEnd_frames _ s

/-! ## Every instruction of `PROCESS` -/

/-- The instructions that write no store: the illegal codes and the five reads (R237). -/
abbrev Storeless (i : Instr) : Prop := isIllegal i = true ∨ ∃ r ∈ readRows, i = r.instr

theorem exec_frames {i : Instr} (h : isProcess i = true) (s : State) : Frames (Storeless i) s (exec i s) := by
  have reads (spec : Option (Fin 9)) (kind : Kind) : Frames (Storeless i) s (processEntry s (readFamily spec kind)) :=
    (processEntry_frames (readFamily_frames spec kind) s).weaken
  have writes {body : State → StepOut} (hi : ¬ Storeless i) (hbody : ∀ u, Frames False u (body u)) :
      Frames (Storeless i) s (processEntry s body) := by
    rw [eq_false hi]
    exact processEntry_frames hbody s
  cases i with
  | process => exact writes (by decide) dispatchFunction_frames
  | rdcoils | rddisc | rdhold | rdinput | rwregs => exact reads _ _
  | wrcoil | wrreg => exact writes (by decide) (writeSingle_frames _ _)
  | wrcoils | wrregs => exact writes (by decide) (writeMultiple_frames _ _)
  | rsvd07 | rsvd08 | rsvd0B | rsvd0C | rsvd11 | rsvd14 | rsvd15 | rsvd16 | rsvd18 | illegal =>
    exact processEntry_frames (exceptionEnd_frames _) s
  | _ => exact absurd h Bool.false_ne_true

/-- Settles O46: the frame of every instruction of `PROCESS`. -/
theorem processFrame : Obligations.ProcessFrame := by
  intro i s t hi h
  obtain ⟨hreq, hxb, hcfg, hinbox, hds⟩ := exec_frames hi s t h
  exact ⟨hreq, hxb, hcfg, hinbox, hds⟩

end Sys2Proof.Machine
end

section
/-! Reads: the loop of items along a run of invocations, the response it builds, and how an exception ends it. -/

namespace Sys2Proof.Machine

/-! ## Reads by the application -/

/-- The machine after `n` reads of a request by the application: their presentations and their answers. -/
def State.afterReads (s : State) (slot : Fin 9) (n : Nat) : State :=
  { s with
    appReads := s.appReads.drop n
    calls := s.calls ++ (List.range n).map fun i => Call.read slot s.req.fc (s.item i) }

/-- The next read takes the next answer (R227, R229). -/
theorem callRead_afterReads {s : State} {slot : Fin 9} (hb : binding s.cfg slot = Config.external) {i : Nat} {v : Word}
    {e : Byte} (h : s.appReads[i]? = some (.returns v e)) (p : Pdu) :
    callRead slot s.req.fc (s.item i) ((s.afterReads slot i).withRsp p) =
      replyOf v e ((s.afterReads slot (i + 1)).withRsp p) := by
  obtain ⟨hi, hv⟩ := List.getElem?_eq_some_iff.mp h
  have htape : s.appReads.drop i = .returns v e :: s.appReads.drop (i + 1) := hv ▸ List.drop_eq_getElem_cons hi
  rw [callRead_returns (s := (s.afterReads slot i).withRsp p) hb htape]
  simp [State.withRsp, State.afterReads, List.range_succ]

/-! ## The loop -/

/-- The response bank after the first `n` items, whose values are `vals` (R255, R257). -/
def Pdu.storeItems (p : Pdu) (rule : BitRule) (k : Kind) (vals : Nat → Word) : Nat → Pdu
  | 0 => p
  | n + 1 => (p.storeItems rule k vals n).storeItem rule k n (vals n)

/-- `g` runs through the states between the first `m` items of a read, which answer `vals` whatever the response bank
holds by then. -/
structure ReadsItems (s : State) (slot : Fin 9) (vals : Nat → Word) (m : Nat) (g : Nat → State) : Prop where
  start : g 0 = s
  req (i : Nat) : (g i).req = s.req
  cfg (i : Nat) : (g i).cfg = s.cfg
  item (i : Nat) : i < m → ∀ p, callRead slot s.req.fc (s.item i) ((g i).withRsp p) =
    .ok (vals i) ((g (i + 1)).withRsp p)

/-- An application that answers each item with success (R227). -/
theorem readsItems_application {s : State} {slot : Fin 9} (hb : binding s.cfg slot = Config.external)
    {vals : Nat → Word} {m : Nat} (h : ∀ i, i < m → s.appReads[i]? = some (.returns (vals i) exOk)) :
    ReadsItems s slot vals m (s.afterReads slot) where
  start := by simp [State.afterReads]
  req _ := rfl
  cfg _ := rfl
  item i hi p := (callRead_afterReads hb (h i hi) p).trans (replyOf_ok _ _)

/-- A Register Buffer that holds a value at each item (R154, R162). -/
theorem readsItems_buffer {s : State} {slot : Fin 9} (hb : binding s.cfg slot = Config.buffer)
    {vals : Nat → Word} {m : Nat} (h : ∀ i, i < m → s.Holds (s.item i) (vals i)) :
    ReadsItems s slot vals m fun _ => s where
  start := rfl
  req _ := rfl
  cfg _ := rfl
  item i hi p := by
    obtain ⟨k, off, hit, hval⟩ := h i hi
    rw [← hval]
    exact callRead_hit (s := s.withRsp p) hb hit

section
variable {s : State} {slot : Fin 9} {vals : Nat → Word} {m : Nat} {g : Nat → State} (h : ReadsItems s slot vals m g)
include h

/-- Item `i` of either loop is the invocation at address `i`, and its value goes into the bank. -/
theorem ReadsItems.readItem_eq (k : Kind) (i : Nat) (p : Pdu) :
    readItem slot s.start k i ((g i).withRsp p) = (callRead slot s.req.fc (s.item i) ((g i).withRsp p)).andThen
      fun v t => t.withRsp (t.rsp.storeItem t.cfg.bitRule k i v) := by
  rw [Machine.readItem_eq, ← h.req i]
  rfl

theorem ReadsItems.readItem_ok (k : Kind) {i : Nat} (hi : i < m) (p : Pdu) :
    readItem slot s.start k i ((g i).withRsp p) =
      .ok () ((g (i + 1)).withRsp (p.storeItem s.cfg.bitRule k i (vals i))) := by
  rw [h.readItem_eq, h.item i hi, ← h.cfg (i + 1)]
  rfl

/-- The loop, when all its items answer. -/
theorem ReadsItems.forItems_ok (k : Kind) (p : Pdu) : forItems (readItem slot s.start k) m 0 (s.withRsp p) =
    .ok () ((g m).withRsp (p.storeItems s.cfg.bitRule k vals m)) := by
  have hrun := forItems_run (item := readItem slot s.start k)
    (fun n => (g n).withRsp (p.storeItems s.cfg.bitRule k vals n)) m 0 fun i hi => by
      rw [Nat.zero_add]
      exact h.readItem_ok k hi _
  rwa [h.start] at hrun

/-- The loop, when item `m` is the first that does not succeed (R232). -/
theorem ReadsItems.forItems_exc (k : Kind) (p : Pdu) {count : Nat} (hm : m < count) {e : Byte} {u : State}
    (he : ∀ p, callRead slot s.req.fc (s.item m) ((g m).withRsp p) = .exc e (u.withRsp p)) :
    forItems (readItem slot s.start k) count 0 (s.withRsp p) =
      .exc e (u.withRsp (p.storeItems s.cfg.bitRule k vals m)) := by
  have habort := forItems_abort (item := readItem slot s.start k)
    (r := .exc e (u.withRsp (p.storeItems s.cfg.bitRule k vals m)))
    (fun n => (g n).withRsp (p.storeItems s.cfg.bitRule k vals n)) hm
    (fun i hi => by
      rw [Nat.zero_add]
      exact h.readItem_ok k hi _)
    (by rw [Nat.zero_add, h.readItem_eq, he]; rfl) nofun
  rwa [h.start] at habort

end

/-! ## The response -/

/-- How many data bytes a read of `q` items answers (R255, R257). -/
def dataBytes : Kind → Nat → Nat
  | .bit, q => ceilDiv8 q
  | .register, q => 2 * q

/-- The response bank before the first item: the byte count, and for a bit read the cleared data bytes (R255, R257). -/
def Pdu.beginRead (p : Pdu) (k : Kind) (q : Nat) : Pdu :=
  match k with
  | .bit => p.setBytes 0 (BitVec.ofNat 8 (dataBytes .bit q) :: List.replicate (dataBytes .bit q) 0x00)
  | .register => p.set 0 (BitVec.ofNat 8 (dataBytes .register q))

/-- The response of a read whose items have the values `vals` (R256, R258). -/
def State.readResponse (s : State) (k : Kind) (vals : Nat → Word) : Pdu :=
  { (s.copied.rsp.beginRead k s.quantity.toNat).storeItems s.cfg.bitRule k vals s.quantity.toNat with
    len := BitVec.ofNat 8 (1 + dataBytes k s.quantity.toNat) }

@[simp] theorem Pdu.storeItem_addr (p : Pdu) (rule : BitRule) (k : Kind) (i : Nat) (v : Word) :
    (p.storeItem rule k i v).addr = p.addr := by
  cases k with
  | bit => rw [Pdu.storeItem]; split <;> rfl
  | register => rfl

@[simp] theorem Pdu.storeItem_fc (p : Pdu) (rule : BitRule) (k : Kind) (i : Nat) (v : Word) :
    (p.storeItem rule k i v).fc = p.fc := by
  cases k with
  | bit => rw [Pdu.storeItem]; split <;> rfl
  | register => rfl

/-- No item touches the byte count. -/
@[simp] theorem Pdu.storeItem_get_zero (p : Pdu) (rule : BitRule) (k : Kind) (i : Nat) (v : Word) :
    (p.storeItem rule k i v).get 0 = p.get 0 := by
  cases k with
  | bit =>
    rw [Pdu.storeItem]
    split
    · exact Pdu.get_set_other _ _ (by omega)
    · rfl
  | register => rw [Pdu.storeItem, Pdu.setWord, Pdu.get_set_other _ _ (by omega), Pdu.get_set_other _ _ (by omega)]

section
variable (p : Pdu) (rule : BitRule) (k : Kind) (vals : Nat → Word) (n : Nat)

@[simp] theorem Pdu.storeItems_addr : (p.storeItems rule k vals n).addr = p.addr := by
  induction n with
  | zero => rfl
  | succ n ih => rw [Pdu.storeItems, Pdu.storeItem_addr, ih]

@[simp] theorem Pdu.storeItems_fc : (p.storeItems rule k vals n).fc = p.fc := by
  induction n with
  | zero => rfl
  | succ n ih => rw [Pdu.storeItems, Pdu.storeItem_fc, ih]

@[simp] theorem Pdu.storeItems_get_zero : (p.storeItems rule k vals n).get 0 = p.get 0 := by
  induction n with
  | zero => rfl
  | succ n ih => rw [Pdu.storeItems, Pdu.storeItem_get_zero, ih]

@[simp] theorem Pdu.beginRead_addr (q : Nat) : (p.beginRead k q).addr = p.addr := by
  cases k <;> simp [Pdu.beginRead]

@[simp] theorem Pdu.beginRead_fc (q : Nat) : (p.beginRead k q).fc = p.fc := by
  cases k <;> simp [Pdu.beginRead]

theorem Pdu.beginRead_get_zero (q : Nat) : (p.beginRead k q).get 0 = BitVec.ofNat 8 (dataBytes k q) := by
  have hset (v : Byte) : (p.set 0 v).get 0 = v := Pdu.get_set_same p v (by decide)
  cases k with
  | bit => rw [Pdu.beginRead, Pdu.setBytes, Pdu.get_setBytes_other _ _ (by omega), hset]
  | register => exact hset _

end

/-- The data bytes of a bit read begin cleared (R255). -/
theorem Pdu.beginRead_bit_get (p : Pdu) {q i : Nat} (hq : 1 + dataBytes .bit q ≤ Config.payloadMax)
    (hi : i < dataBytes .bit q) : (p.beginRead .bit q).get (1 + i) = 0 := by
  have := Pdu.get_setBytes (p.set 0 (BitVec.ofNat 8 (dataBytes .bit q))) 1 (List.replicate (dataBytes .bit q) 0x00)
    (i := i) (by simpa using hi) (by simpa using hq)
  simpa [Pdu.beginRead, Pdu.setBytes] using this

/-- The registers of the items read (R258). -/
theorem Pdu.get_storeItems_register (p : Pdu) (rule : BitRule) (vals : Nat → Word) {n i : Nat}
    (hn : 1 + 2 * n ≤ Config.payloadMax) (hi : i < n) :
    (p.storeItems rule .register vals n).get (1 + 2 * i) = hiByte (vals i) ∧
      (p.storeItems rule .register vals n).get (2 + 2 * i) = loByte (vals i) := by
  induction n with
  | zero => exact absurd hi (Nat.not_lt_zero i)
  | succ n ih =>
    have hget := (p.storeItems rule .register vals n).get_setWord (j := 1 + 2 * n) (vals n)
    rw [Pdu.storeItems, Pdu.storeItem, hget _ (by omega), hget _ (by omega)]
    rcases Nat.lt_succ_iff_lt_or_eq.mp hi with hlt | rfl
    · have hbytes := ih (by omega) hlt
      rwa [if_neg (by omega), if_neg (by omega), if_neg (by omega), if_neg (by omega)]
    · rw [if_pos rfl, if_neg (by omega), if_pos (by omega)]
      exact ⟨rfl, rfl⟩

/-- A mask of one bit. -/
theorem getLsbD_one_shiftLeft {n : Nat} (hn : n < 8) (i : Nat) : ((1 : Byte) <<< n).getLsbD i = decide (i = n) := by
  have := BitVec.getLsbD_twoPow (w := 8) n i
  simpa [BitVec.twoPow, hn, eq_comm] using this

/-- One item of a bit read sets its own bit or none (R255). -/
theorem Pdu.getLsbD_storeItem_bit (p : Pdu) (rule : BitRule) {n : Nat} (hn : 1 + n / 8 < Config.payloadMax) (v : Word)
    (i : Nat) : ((p.storeItem rule .bit n v).get (1 + i / 8)).getLsbD (i % 8) =
      ((p.get (1 + i / 8)).getLsbD (i % 8) || decide (i = n) && bitOfValue rule v) := by
  rw [Pdu.storeItem]
  cases hv : bitOfValue rule v with
  | false => simp
  | true =>
    rw [if_pos rfl, Bool.and_true]
    by_cases hbyte : i / 8 = n / 8
    · have hbit : i % 8 = n % 8 ↔ i = n := by omega
      rw [hbyte, Pdu.get_set_same _ _ hn, BitVec.getLsbD_or, getLsbD_one_shiftLeft (Nat.mod_lt n (by decide)),
        decide_eq_decide.mpr hbit]
    · have hne : i ≠ n := fun h => hbyte (h ▸ rfl)
      rw [Pdu.get_set_other _ _ (by omega), decide_eq_false hne, Bool.or_false]

/-- The bits of the items read, over what the data bytes held before (R256). -/
theorem Pdu.getLsbD_storeItems_bit (p : Pdu) (rule : BitRule) (vals : Nat → Word) {n : Nat}
    (hn : 1 + dataBytes .bit n ≤ Config.payloadMax) (i : Nat) :
    ((p.storeItems rule .bit vals n).get (1 + i / 8)).getLsbD (i % 8) =
      ((p.get (1 + i / 8)).getLsbD (i % 8) || decide (i < n) && bitOfValue rule (vals i)) := by
  simp only [dataBytes, ceilDiv8] at hn
  induction n with
  | zero => simp [Pdu.storeItems]
  | succ n ih =>
    rw [Pdu.storeItems, Pdu.getLsbD_storeItem_bit _ _ (by omega), ih (by omega), Bool.or_assoc]
    congr 1
    by_cases hi : i = n
    · subst hi
      simp
    · have hlt : i < n + 1 ↔ i < n := by omega
      simp [hi, hlt]

/-- R358 (f): the data bytes of a legal quantity fit the payload behind the byte count. -/
theorem dataBytes_fit {c : ConfigRecord} (hc : cfgWf c = true) (k : Kind) {q : Nat} (hq : q ≤ readMax c k) :
    1 + dataBytes k q ≤ Config.payloadMax := by
  obtain ⟨hbit, hregister⟩ := read_bounds_of_cfgWf hc
  cases k with
  | bit =>
    simp only [readMax, dataBytes, ceilDiv8] at *
    omega
  | register =>
    simp only [readMax, dataBytes] at *
    omega

theorem toNat_ofNat_of_le_payloadMax {n : Nat} (h : n ≤ Config.payloadMax) : (BitVec.ofNat 8 n).toNat = n := by
  rw [BitVec.toNat_ofNat]
  exact Nat.mod_eq_of_lt (by simp only [Config.payloadMax] at h; omega)

section
variable (s : State) (k : Kind) (vals : Nat → Word)

@[simp] theorem State.readResponse_addr : (s.readResponse k vals).addr = s.req.addr := by
  simp [State.readResponse]

@[simp] theorem State.readResponse_fc : (s.readResponse k vals).fc = s.req.fc := by
  simp [State.readResponse]

variable {s k} (hfit : 1 + dataBytes k s.quantity.toNat ≤ Config.payloadMax)
include hfit

theorem State.readResponse_len : (s.readResponse k vals).len.toNat = 1 + dataBytes k s.quantity.toNat :=
  toNat_ofNat_of_le_payloadMax hfit

theorem State.readResponse_get_zero : ((s.readResponse k vals).get 0).toNat = dataBytes k s.quantity.toNat := by
  rw [State.readResponse, Pdu.get_with_len, Pdu.storeItems_get_zero, Pdu.beginRead_get_zero]
  exact toNat_ofNat_of_le_payloadMax (by omega)

end

/-- The response of a register read (R258). -/
theorem registerResponse_of_rsp {s t : State} {vs : List Word} (hq : s.quantity.toNat = vs.length)
    (hfit : 1 + dataBytes .register s.quantity.toNat ≤ Config.payloadMax)
    (ht : t.rsp = s.readResponse .register (vs.getD · 0)) : RegisterResponse s t vs := by
  have hlen := State.readResponse_len (vs.getD · 0) hfit
  have hcount := State.readResponse_get_zero (vs.getD · 0) hfit
  rw [RegisterResponse, ht]
  rw [hq] at hfit hlen hcount
  refine ⟨State.readResponse_addr .., State.readResponse_fc .., hlen, hcount, fun i hi => ?_⟩
  have hitem := Pdu.get_storeItems_register (s.copied.rsp.beginRead .register s.quantity.toNat) s.cfg.bitRule
    (vs.getD · 0) (n := s.quantity.toNat) (hq ▸ hfit) (hq ▸ hi)
  rwa [List.getD_eq_getElem _ _ hi] at hitem

/-- The response of a bit read (R256). -/
theorem bitResponse_of_rsp {s t : State} {vs : List Word} (hq : s.quantity.toNat = vs.length)
    (hfit : 1 + dataBytes .bit s.quantity.toNat ≤ Config.payloadMax)
    (ht : t.rsp = s.readResponse .bit (vs.getD · 0)) : BitResponse s t vs := by
  have hlen := State.readResponse_len (vs.getD · 0) hfit
  have hcount := State.readResponse_get_zero (vs.getD · 0) hfit
  rw [BitResponse, ht]
  rw [hq] at hlen hcount
  refine ⟨State.readResponse_addr .., State.readResponse_fc .., hlen, hcount, fun i hi => ?_⟩
  have hbyte : i / 8 < dataBytes .bit s.quantity.toNat := by
    simp only [hq, dataBytes, ceilDiv8]
    omega
  rw [State.readResponse, Pdu.get_with_len, Pdu.getLsbD_storeItems_bit _ _ _ hfit, Pdu.beginRead_bit_get _ hfit hbyte,
    hq]
  by_cases hi : i < vs.length
  · simp [hi]
  · simp [hi]

/-! ## The two ends of a served read -/

section
variable {r : FunctionRow} (hr : r ∈ readRows) {s : State} (h : s.ReadyProcess) {slot : Fin 9} {b : BitVec 2}
  (hl : s.req.len = 4) (hs : Serves s r slot b) (hmax : s.quantity.toNat ≤ readMax s.cfg r.kind)
include hr h hl hs hmax

/-- A served read with a legal quantity: its loop, and the length (R255, R257). -/
theorem exec_read_loop (hpos : 1 ≤ s.quantity.toNat) : exec r.instr s =
    finish (forItems (readItem slot s.start r.kind) s.quantity.toNat 0
      (s.withRsp (s.copied.rsp.beginRead r.kind s.quantity.toNat)))
    fun t => t.withRsp { t.rsp with len := BitVec.ofNat 8 (1 + dataBytes r.kind s.quantity.toNat) } := by
  rw [exec_read_served hr h hl hs, if_neg (by omega)]
  cases r.kind <;> rfl

variable {vals : Nat → Word} {m : Nat} {g : Nat → State}

/-- A read whose items all answer completes with their response (R256, R258). -/
theorem exec_read_completes (hpos : 1 ≤ s.quantity.toNat) (hg : ReadsItems s slot vals s.quantity.toNat g) :
    exec r.instr s = .next (((g s.quantity.toNat).withRsp (s.readResponse r.kind vals)).complete {}) := by
  rw [exec_read_loop hr h hl hs hmax hpos, hg.forItems_ok]
  rfl

/-- A read aborted by its item `m` completes with that item's exception (R232). -/
theorem exec_read_aborts (hg : ReadsItems s slot vals m g) (hm : m < s.quantity.toNat) {e : Byte} {u : State}
    (hu : u.req = s.req)
    (he : ∀ p, callRead slot s.req.fc (s.item m) ((g m).withRsp p) = .exc e (u.withRsp p)) :
    ∃ t, exec r.instr s = .next t ∧ ExceptionResponse s t e ∧ t = { u with rsp := t.rsp, out := .completed {} } := by
  rw [exec_read_loop hr h hl hs hmax (by omega), hg.forItems_exc r.kind _ hm he]
  refine ⟨_, rfl, ⟨?_, congrArg (·.fc ||| 0x80) hu, rfl, Pdu.get_set_same _ _ (by decide)⟩, rfl⟩
  simp [State.withRsp]

end

/-! ## The statements -/

theorem mem_registerReadRows {r : FunctionRow} (hr : r ∈ registerReadRows) : r ∈ readRows ∧ r.kind = .register := by
  refine ⟨List.mem_append_right _ hr, ?_⟩
  simp only [registerReadRows, List.mem_cons, List.not_mem_nil, or_false] at hr
  rcases hr with rfl | rfl | rfl <;> rfl

theorem mem_bitReadRows {r : FunctionRow} (hr : r ∈ bitReadRows) : r ∈ readRows ∧ r.kind = .bit := by
  refine ⟨List.mem_append_left _ hr, ?_⟩
  simp only [bitReadRows, List.mem_cons, List.not_mem_nil, or_false] at hr
  rcases hr with rfl | rfl <;> rfl

/-- A tape that begins with a success for each value answers the items with these values. -/
theorem appReads_getElem? {s : State} {vs : List Word} {rest : List ReadAnswer}
    (h : s.appReads = vs.map (fun v => ReadAnswer.returns v 0x00) ++ rest) (i : Nat) (hi : i < vs.length) :
    s.appReads[i]? = some (.returns (vs.getD i 0) exOk) := by
  rw [h, List.getElem?_append_left (by simpa using hi), List.getElem?_map, List.getElem?_eq_getElem hi,
    List.getD_eq_getElem _ _ hi]
  rfl

/-- The answers of such a tape are used up by as many reads. -/
theorem appReads_drop {s : State} {vs : List Word} {rest : List ReadAnswer}
    (h : s.appReads = vs.map (fun v => ReadAnswer.returns v 0x00) ++ rest) : s.appReads.drop vs.length = rest := by
  rw [h]
  exact List.drop_left' (List.length_map _)

/-- A read that the application serves with success (R227, R229). -/
theorem exec_read_application {r : FunctionRow} {s : State} {slot : Fin 9} {vs : List Word} {rest : List ReadAnswer}
    (hr : r ∈ readRows) (h : s.ReadyProcess) (hl : s.req.len = 4) (hs : Serves s r slot 2)
    (hq : s.quantity.toNat = vs.length) (hpos : 1 ≤ vs.length) (hmax : vs.length ≤ readMax s.cfg r.kind)
    (htape : s.appReads = vs.map (fun v => ReadAnswer.returns v 0x00) ++ rest) :
    exec r.instr s = .next { s with
      rsp := s.readResponse r.kind (vs.getD · 0), appReads := rest, out := .completed {},
      calls := s.calls ++ (List.range vs.length).map fun i => Call.read slot s.req.fc (s.item i) } := by
  rw [← hq] at hpos hmax
  rw [exec_read_completes hr h hl hs hmax hpos
    (readsItems_application hs.2 fun i hi => appReads_getElem? htape i (hq ▸ hi)), hq, ← appReads_drop htape]
  rfl

/-- Settles O32: the served read, and the response of its values register by register. -/
theorem registerReadFromTheApplication : Obligations.RegisterReadFromTheApplication := by
  intro r s slot vs rest hr h hl hs hq hpos hmax htape
  obtain ⟨hread, hkind⟩ := mem_registerReadRows hr
  have hfit := dataBytes_fit h.cfg .register (hq.trans_le hmax)
  refine ⟨_, exec_read_application hread h hl hs hq hpos (hkind ▸ hmax) htape, registerResponse_of_rsp hq hfit ?_, rfl⟩
  rw [hkind]

/-- Settles O34: the served read, and the response of its values bit by bit. -/
theorem bitReadFromTheApplication : Obligations.BitReadFromTheApplication := by
  intro r s slot vs rest hr h hl hs hq hpos hmax htape
  obtain ⟨hread, hkind⟩ := mem_bitReadRows hr
  have hfit := dataBytes_fit h.cfg .bit (hq.trans_le hmax)
  refine ⟨_, exec_read_application hread h hl hs hq hpos (hkind ▸ hmax) htape, bitResponse_of_rsp hq hfit ?_, rfl⟩
  rw [hkind]

/-- Settles O35: the items before the failing one answer their values, and the failing one takes its answer. -/
theorem failingReadAborts : Obligations.FailingReadAborts := by
  intro r s slot vs v e rest hr h hl hs hm hmax he htape
  have hfails : s.appReads[vs.length]? = some (.returns v e) := by
    rw [← List.head?_drop, appReads_drop htape]
    rfl
  have hrest : s.appReads.drop (vs.length + 1) = rest := by
    rw [← List.tail_drop, appReads_drop htape]
    rfl
  rw [← hrest]
  exact exec_read_aborts hr h hl hs hmax
    (readsItems_application hs.2 fun i hi => appReads_getElem? htape i hi) hm
    (u := s.afterReads slot (vs.length + 1)) rfl fun p => (callRead_afterReads hs.2 hfails p).trans (replyOf_exc v _ he)

/-- Settles O36: the items before the failing one read their slots, and the failing one changes nothing. -/
theorem failingBufferReadAborts : Obligations.FailingBufferReadAborts := by
  intro r s slot m e hr h hl hs hm hmax hhits hfails
  choose! k off hhit using hhits
  exact exec_read_aborts hr h hl hs hmax
    (readsItems_buffer (vals := fun i => readSlot s.ds (k i) (off i)) hs.2 fun i hi => ⟨k i, off i, hhit i hi, rfl⟩)
    hm rfl fun p => callRead_fails (s := s.withRsp p) hs.2 hfails

end Sys2Proof.Machine
end

section
/-! Multiple writes: the loop of items through either binding, aborted by its first failing item. -/

namespace Sys2Proof.Machine

/-! ## The loop -/

/-- A multiple write aborted by its item `m`, along the states `f 0`, `f 1`, ... between the items before it, completes
with that item's exception (R232). -/
theorem exec_writeMultiple_aborts {r : FunctionRow} (hr : r ∈ writeMultipleRows) {s : State} (h : s.ReadyProcess)
    {slot : Fin 9} {b : BitVec 2} (hl : 5 ≤ s.req.len.toNat) (hs : Serves s r slot b) (hc : s.CountOk r.kind) {m : Nat}
    (hm : m < s.quantity.toNat) {f : Nat → State} (hstart : f 0 = s.copied)
    (hok : ∀ i, i < m → writeItem slot s.start r.kind i (f i) = .ok () (f (i + 1))) {e : Byte} {u : State}
    (he : writeItem slot s.start r.kind m (f m) = .exc e u) (hreq : u.req = s.req) (haddr : u.rsp.addr = s.req.addr) :
    ∃ t, exec r.instr s = .next t ∧ ExceptionResponse s t e ∧ t = { u with rsp := t.rsp, out := .completed {} } := by
  have habort := forItems_abort (r := .exc e u) f hm (i := 0) (fun j hj => by rw [Nat.zero_add]; exact hok j hj)
    (by rw [Nat.zero_add]; exact he) nofun
  rw [exec_writeMultiple_served hr h hl hs hc, ← hstart, habort]
  exact ⟨_, rfl, ⟨haddr, congrArg (·.fc ||| 0x80) hreq, rfl, Pdu.get_set_same _ _ (by decide)⟩, rfl⟩

/-! ## Writes by the application -/

/-- The machine after `n` writes of a request by the application: their presentations and their answers. -/
def State.afterWrites (s : State) (slot : Fin 9) (k : Kind) (n : Nat) : State :=
  { s with
    appWrites := s.appWrites.drop n
    calls := s.calls ++ (List.range n).map fun i => Call.write slot s.req.fc (s.item i) (s.itemValue k i) }

theorem State.afterWrites_zero (s : State) (slot : Fin 9) (k : Kind) : s.afterWrites slot k 0 = s := by
  simp [State.afterWrites]

/-- The next item is presented with its value and takes the next answer (R227, R229). -/
theorem writeItem_afterWrites {s : State} {slot : Fin 9} (hb : binding s.cfg slot = Config.external) (k : Kind)
    {i : Nat} {e : Byte} (h : s.appWrites[i]? = some (.returns e)) :
    writeItem slot s.start k i (s.afterWrites slot k i) = replyOf () e (s.afterWrites slot k (i + 1)) := by
  obtain ⟨hi, he⟩ := List.getElem?_eq_some_iff.mp h
  have htape : s.appWrites.drop i = .returns e :: s.appWrites.drop (i + 1) := he ▸ List.drop_eq_getElem_cons hi
  have hcall : writeItem slot s.start k i (s.afterWrites slot k i) =
      callWrite slot s.req.fc (s.item i) (s.itemValue k i) (s.afterWrites slot k i) := rfl
  rw [hcall, callWrite_returns (s := s.afterWrites slot k i) hb htape]
  simp [State.afterWrites, List.range_succ]

/-- Settles O44: the items before the failing one are answered with success, and the failing one takes its answer. -/
theorem failingWriteMultipleAborts : Obligations.FailingWriteMultipleAborts := by
  intro r s slot m e rest hr h hl hs hc hm he htape
  have hdrop : s.appWrites.drop m = .returns e :: rest := by
    rw [htape]
    exact List.drop_left' List.length_replicate
  have hok (i : Nat) (hi : i < m) : s.appWrites[i]? = some (.returns exOk) := by
    rw [htape, List.getElem?_append_left (by simpa using hi), List.getElem?_replicate, if_pos hi]
  have hfails : s.appWrites[m]? = some (.returns e) := by
    rw [← List.head?_drop, hdrop]
    rfl
  have hrest : s.appWrites.drop (m + 1) = rest := by
    rw [← List.tail_drop, hdrop]
    rfl
  rw [← hrest]
  exact exec_writeMultiple_aborts hr h hl hs hc hm (f := s.copied.afterWrites slot r.kind)
    (State.afterWrites_zero _ _ _)
    (fun i hi => (writeItem_afterWrites (s := s.copied) hs.2 r.kind (hok i hi)).trans (replyOf_ok _ _))
    ((writeItem_afterWrites (s := s.copied) hs.2 r.kind hfails).trans (replyOf_exc _ _ he)) rfl rfl

/-! ## Writes to the Register Buffer -/

/-- The stores after the first `n` items of a multiple write through the Register Buffer (R156). -/
def State.storesAfter (s : State) (k : Kind) : Nat → Memory
  | 0 => s.ds
  | n + 1 =>
    match locate s.cfg .write (s.item n) with
    | .hit j off => writeSlot (s.storesAfter k n) j off (s.itemValue k n)
    | .fails _ => s.storesAfter k n

theorem State.storesAfter_succ {s : State} {n j off : Nat} (h : locate s.cfg .write (s.item n) = .hit j off)
    (k : Kind) : s.storesAfter k (n + 1) = writeSlot (s.storesAfter k n) j off (s.itemValue k n) := by
  rw [State.storesAfter, h]

/-- A passing item writes its slot (R156). -/
theorem writeItem_storesAfter {s : State} {slot : Fin 9} (hb : binding s.cfg slot = Config.buffer) (k : Kind)
    {i j off : Nat} (h : locate s.cfg .write (s.item i) = .hit j off) :
    writeItem slot s.start k i { s with ds := s.storesAfter k i } =
      .ok () { s with ds := s.storesAfter k (i + 1) } := by
  rw [State.storesAfter_succ h]
  exact callWrite_hit (s := { s with ds := s.storesAfter k i }) hb h

theorem State.storesAfter_wf {s : State} (h : Memory.wf s.ds = true) (k : Kind) (n : Nat) :
    Memory.wf (s.storesAfter k n) = true := by
  induction n with
  | zero => exact h
  | succ n ih =>
    rw [State.storesAfter]
    split
    · exact writeSlot_wf ih _ _ _
    · exact ih

/-- Fewer than 2^16 items have different addresses, although addresses wrap (R229). -/
theorem State.item_ne (s : State) {i j : Nat} (hi : i < j) (hj : j < 2 ^ 16) : s.item i ≠ s.item j := by
  intro h
  have hof : (BitVec.ofNat 16 i).toNat = (BitVec.ofNat 16 j).toNat :=
    congrArg BitVec.toNat ((BitVec.add_right_inj _).mp h)
  rw [BitVec.toNat_ofNat, BitVec.toNat_ofNat, Nat.mod_eq_of_lt (hi.trans hj), Nat.mod_eq_of_lt hj] at hof
  omega

/-- A slot reads as before after a write to a slot with which it shares no byte. -/
theorem readSlot_writeSlot_other (ds : Memory) {j off j' off' : Nat} (v : Word)
    (h : ∀ {x y : Nat}, x < 2 → y < 2 → storeKey j' (off' + x) ≠ storeKey j (off + y)) :
    readSlot (writeSlot ds j off v) j' off' = readSlot ds j' off' := by
  have hlow : Memory.read (writeSlot ds j off v) (storeKey j' off') = _ :=
    read_writeSlot_other ds v (h zero_lt_two zero_lt_two) (h zero_lt_two one_lt_two)
  have hhigh : Memory.read (writeSlot ds j off v) (storeKey j' (off' + 1)) = _ :=
    read_writeSlot_other ds v (h one_lt_two zero_lt_two) (h one_lt_two one_lt_two)
  rw [readSlot, hlow, hhigh, readSlot]

/-- The items written hold their values and every other byte is as before: a later item has another address and with it
another slot (R69, R371). -/
theorem wrote_storesAfter {s t : State} (hc : cfgWf s.cfg = true) (hwf : Memory.wf s.ds = true) (k : Kind) {m : Nat}
    (hm : m < 2 ^ 16) (hhits : ∀ i, i < m → ∃ j off, locate s.cfg .write (s.item i) = .hit j off)
    (ht : t.ds = s.storesAfter k m) : Wrote s t k m := by
  rw [Wrote, ht]
  clear ht
  induction m with
  | zero => exact ⟨nofun, fun _ _ => rfl⟩
  | succ n ih =>
    obtain ⟨hvals, hothers⟩ := ih (by omega) fun i hi => hhits i (by omega)
    obtain ⟨j, off, hn⟩ := hhits n (by omega)
    rw [State.storesAfter_succ hn]
    refine ⟨fun i hi j' off' hit => ?_, fun key hkey => ?_⟩
    · rcases Nat.lt_succ_iff_lt_or_eq.mp hi with hlt | rfl
      · have hne := s.item_ne hlt (by omega)
        have bytes_ne {x y : Nat} (hx : x < 2) (hy : y < 2) : storeKey j' (off' + x) ≠ storeKey j (off + y) :=
          locate_hit_bytes_ne hc hn hit hne hx hy
        rw [readSlot_writeSlot_other _ _ bytes_ne]
        exact hvals i hlt j' off' hit
      · obtain ⟨rfl, rfl⟩ := Located.hit.inj (hn.symm.trans hit)
        exact readSlot_writeSlot (State.storesAfter_wf hwf k _) _ _ _
    · obtain ⟨hlow, hhigh⟩ := hkey n (by omega) j off hn
      rw [read_writeSlot_other _ _ hlow hhigh]
      exact hothers key fun i hi => hkey i (by omega)

/-- Settles O43: the items before the failing one write their slots, and the failing one changes nothing. -/
theorem failingWriteMultipleKeepsEarlierItems : Obligations.FailingWriteMultipleKeepsEarlierItems := by
  intro r s slot m e hr h hwf hl hs hc hm hhits hfails
  obtain ⟨t, ht, hresponse, hrun⟩ := exec_writeMultiple_aborts hr h hl hs hc hm
    (f := fun i => { s.copied with ds := s.copied.storesAfter r.kind i }) rfl
    (fun i hi => by
      obtain ⟨j, off, hit⟩ := hhits i hi
      exact writeItem_storesAfter (s := s.copied) hs.2 r.kind hit)
    (callWrite_fails (s := { s.copied with ds := s.copied.storesAfter r.kind m }) hs.2 hfails) rfl rfl
  have hds : t.ds = s.copied.storesAfter r.kind m := by rw [hrun]
  have hm16 : m < 2 ^ 16 := hm.trans s.quantity.isLt
  refine ⟨t, ht, hresponse, ?_, wrote_storesAfter (s := s.copied) h.cfg hwf r.kind hm16 hhits hds⟩
  rw [hds]
  exact hrun

end Sys2Proof.Machine
end

section
/-! Requests of the Read family: the checks before the first invocation, of the size (shared with the write families)
and of the quantity, and the reads that the Register Buffer serves. -/

namespace Sys2Proof.Machine

/-! ## The checks -/

/-- The size check stands before the choice of a handler in all three families (R251, R271, R286). -/
theorem exec_wrongSize {r : FunctionRow} {s : State} (h : s.ReadyProcess)
    (hr : r ∈ readRows ++ writeSingleRows ∧ s.req.len ≠ 4 ∨ r ∈ writeMultipleRows ∧ s.req.len.toNat < 5) :
    exec r.instr s = exceptionEnd exIllegalDataValue s.copied := by
  rcases hr with ⟨hr, hl⟩ | ⟨hr, hl⟩
  · have hsize : s.copied.req.len.toNat ≠ 4 := fun h4 => hl (BitVec.eq_of_toNat_eq h4)
    rcases List.mem_append.mp hr with hread | hwrite
    · exact (exec_read hread h).1.trans (if_pos hsize)
    · exact (exec_writeSingle hwrite h).1.trans (if_pos hsize)
  · exact (exec_writeMultiple hr h).1.trans (if_pos hl)

/-- Settles O25: the size check answers the exception response. -/
theorem wrongSizeResponse : Obligations.WrongSizeResponse := by
  intro r s h hr
  rw [exec_wrongSize h hr]
  exact exceptionEnd_copied s exIllegalDataValue

/-- The quantity check of a served read (R254). -/
theorem exec_read_badQuantity {r : FunctionRow} (hr : r ∈ readRows) {s : State} (h : s.ReadyProcess) {slot : Fin 9}
    {b : BitVec 2} (hl : s.req.len = 4) (hs : Serves s r slot b)
    (hq : s.quantity.toNat = 0 ∨ readMax s.cfg r.kind < s.quantity.toNat) :
    exec r.instr s = exceptionEnd exIllegalDataValue s.copied :=
  (exec_read_served hr h hl hs).trans (if_pos (hq.imp_left Nat.lt_one_iff.mpr))

/-- Settles O28: the maximum of a row is the maximum of its kind. -/
theorem readQuantityIsChecked : Obligations.ReadQuantityIsChecked := by
  intro r s slot b h hl hs hbad
  obtain ⟨hread, hq⟩ : r ∈ readRows ∧ (s.quantity.toNat = 0 ∨ readMax s.cfg r.kind < s.quantity.toNat) := by
    rcases hbad with ⟨hr, hq⟩ | ⟨hr, hq⟩
    · obtain ⟨hread, hkind⟩ := mem_bitReadRows hr
      exact ⟨hread, hkind ▸ hq⟩
    · obtain ⟨hread, hkind⟩ := mem_registerReadRows hr
      exact ⟨hread, hkind ▸ hq⟩
  rw [exec_read_badQuantity hread h hl hs hq]
  exact exceptionEnd_copied s exIllegalDataValue

/-! ## Reads from the Register Buffer -/

/-- A read that the Register Buffer serves, all its items readable: no access changes the state (R154, R155). -/
theorem exec_read_buffer {r : FunctionRow} {s : State} {slot : Fin 9} {vs : List Word} (hr : r ∈ readRows)
    (h : s.ReadyProcess) (hl : s.req.len = 4) (hs : Serves s r slot 1) (hq : s.quantity.toNat = vs.length)
    (hpos : 1 ≤ vs.length) (hmax : vs.length ≤ readMax s.cfg r.kind)
    (hholds : ∀ i (h : i < vs.length), s.Holds (s.item i) vs[i]) :
    exec r.instr s = .next { s with rsp := s.readResponse r.kind (vs.getD · 0), out := .completed {} } := by
  have hitems (i : Nat) (hi : i < s.quantity.toNat) : s.Holds (s.item i) (vs.getD i 0) := by
    rw [List.getD_eq_getElem _ _ (hq ▸ hi)]
    exact hholds i (hq ▸ hi)
  exact exec_read_completes hr h hl hs (hq ▸ hmax) (hq ▸ hpos) (readsItems_buffer hs.2 hitems)

/-- Settles O31: the served read, and the response of its values register by register. -/
theorem registerReadFromTheBuffer : Obligations.RegisterReadFromTheBuffer := by
  intro r s slot vs hr h hl hs hq hpos hmax hholds
  obtain ⟨hread, hkind⟩ := mem_registerReadRows hr
  have hfit := dataBytes_fit h.cfg .register (hq.trans_le hmax)
  refine ⟨_, exec_read_buffer hread h hl hs hq hpos (hkind ▸ hmax) hholds, registerResponse_of_rsp hq hfit ?_, rfl⟩
  rw [hkind]

/-- Settles O33: the served read, and the response of its values bit by bit. -/
theorem bitReadFromTheBuffer : Obligations.BitReadFromTheBuffer := by
  intro r s slot vs hr h hl hs hq hpos hmax hholds
  obtain ⟨hread, hkind⟩ := mem_bitReadRows hr
  have hfit := dataBytes_fit h.cfg .bit (hq.trans_le hmax)
  refine ⟨_, exec_read_buffer hread h hl hs hq hpos (hkind ▸ hmax) hholds, bitResponse_of_rsp hq hfit ?_, rfl⟩
  rw [hkind]

end Sys2Proof.Machine
end

section
/-! Single writes: the value check, the one invocation through either binding, and the two ends it can come to. -/

namespace Sys2Proof.Machine

/-! ## The value check -/

/-- Only a coil's value is ever refused, and only when it is neither sentinel (R274). -/
theorem singleValueBad_iff (c : ConfigRecord) (k : Kind) (v : Word) :
    singleValueBad c k v = true ↔ k = .bit ∧ v ≠ c.coilOn ∧ v ≠ c.coilOff := by
  cases k <;> simp [singleValueBad]

/-- Settles O29: the value check answers the exception response. -/
theorem coilValueIsChecked : Obligations.CoilValueIsChecked := by
  intro s slot b h hl hs hon hoff
  have hbad : singleValueBad s.cfg .bit s.quantity = true := (singleValueBad_iff ..).mpr ⟨rfl, hon, hoff⟩
  rw [(exec_writeSingle_served (r := ⟨.wrcoil, some 4, 7, .bit⟩) (by decide) h hl hs).trans (if_pos hbad)]
  exact exceptionEnd_copied s exIllegalDataValue

/-! ## The ends of the invocation -/

/-- The echo's payload registers are the request's first four (R275, R291). -/
theorem State.echoResponse_get (s : State) {i : Nat} (hi : i < 4) : s.echoResponse.rsp.get i = s.req.get i := by
  have hget := Pdu.get_setBytes { s.rsp with len := 4 } 0 ((List.range 4).map s.req.get) (i := i) (by simpa using hi)
    (by simp [Config.payloadMax])
  rwa [Nat.zero_add, List.getElem_map, List.getElem_range] at hget

/-- A write that succeeds is answered with the echo of its request (R275, R291). -/
theorem finish_ok_echo {s u : State} (hreq : u.req = s.req) (hrsp : u.rsp = s.copied.rsp) :
    ∃ t, finish (.ok () u) State.echoResponse = .next t ∧ EchoResponse s t ∧
      t = { u with rsp := t.rsp, out := .completed {} } := by
  have hecho : EchoResponse s (u.echoResponse.complete {}) := by
    refine ⟨?_, ?_, ?_, fun i hi => hreq ▸ u.echoResponse_get hi⟩ <;> simp [hrsp]
  exact ⟨_, rfl, hecho, rfl⟩

/-- A write that fails is answered with its exception (R231, R232). -/
theorem finish_exc_response {s u : State} (e : Byte) (success : State → State) (hreq : u.req = s.req)
    (hrsp : u.rsp = s.copied.rsp) :
    ∃ t, finish (.exc e u) success = .next t ∧ ExceptionResponse s t e ∧
      t = { u with rsp := t.rsp, out := .completed {} } := by
  have haddr : u.rsp.addr = s.req.addr := by simp [hrsp]
  exact ⟨_, rfl, ⟨haddr, congrArg (·.fc ||| 0x80) hreq, rfl, Pdu.get_set_same _ _ (by decide)⟩, rfl⟩

/-! ## The statements -/

/-- A single write goes to the request's first address (R229). -/
theorem State.item_zero (s : State) : s.item 0 = s.start := BitVec.add_zero _

/-- A served single write with a legal value is its one invocation and the end of it (R274, R275). -/
theorem exec_writeSingle_invokes {r : FunctionRow} (hr : r ∈ writeSingleRows) {s : State} (h : s.ReadyProcess)
    {slot : Fin 9} {b : BitVec 2} (hl : s.req.len = 4) (hs : Serves s r slot b)
    (hv : r.kind = .bit → s.quantity = s.cfg.coilOn ∨ s.quantity = s.cfg.coilOff) : exec r.instr s =
      finish (callWrite slot s.req.fc (s.item 0) s.quantity s.copied) State.echoResponse := by
  have hok : ¬ singleValueBad s.cfg r.kind s.quantity = true := by
    rw [singleValueBad_iff]
    rintro ⟨hk, hon, hoff⟩
    exact (hv hk).elim hon hoff
  rw [exec_writeSingle_served hr h hl hs, if_neg hok, State.item_zero]

/-- Settles O38: the invocation writes the slot of the address and succeeds. -/
theorem writeSingleToTheBuffer : Obligations.WriteSingleToTheBuffer := by
  intro r s slot k off hr h hwf hl hs hv hit
  rw [exec_writeSingle_invokes hr h hl hs hv, callWrite_hit (s := s.copied) hs.2 hit]
  obtain ⟨t, ht, hecho, hrun⟩ := finish_ok_echo (s := s)
    (u := { s.copied with ds := writeSlot s.ds k off s.quantity }) rfl rfl
  have hds : t.ds = writeSlot s.ds k off s.quantity := by rw [hrun]
  refine ⟨t, ht, hecho, ?_, ?_, fun key hlow hhigh => ?_⟩ <;> rw [hds]
  · exact hrun
  · exact readSlot_writeSlot hwf k off s.quantity
  · exact read_writeSlot_other s.ds s.quantity hlow hhigh

/-- Settles O39: the invocation takes the tape's first answer, a success. -/
theorem writeSingleToTheApplication : Obligations.WriteSingleToTheApplication := by
  intro r s slot rest hr h hl hs hv htape
  rw [exec_writeSingle_invokes hr h hl hs hv, callWrite_returns (s := s.copied) hs.2 htape, replyOf_ok]
  exact finish_ok_echo rfl rfl

/-- Settles O40: either binding's invocation ends in the exception, the Register Buffer's with nothing changed. -/
theorem failingWriteSingle : Obligations.FailingWriteSingle := by
  intro r s slot e hr h hl hv
  constructor
  · intro hs hfails
    rw [exec_writeSingle_invokes hr h hl hs hv, callWrite_fails (s := s.copied) hs.2 hfails]
    exact finish_exc_response e _ rfl rfl
  · intro hs he rest htape
    rw [exec_writeSingle_invokes hr h hl hs hv, callWrite_returns (s := s.copied) hs.2 htape, replyOf_exc _ _ he]
    exact finish_exc_response e _ rfl rfl

end Sys2Proof.Machine
end

section
/-! Requests of the Write-Multiple family: the count check before the first invocation, and the loop whose items all
succeed, through either binding. -/

namespace Sys2Proof.Machine

/-! ## The count check -/

/-- Settles O30: the count check answers the exception response. -/
theorem writeMultipleCountIsChecked : Obligations.WriteMultipleCountIsChecked := by
  intro r s slot b hr h hl hs hbad
  rw [exec_writeMultiple_badCount hr h hl hs hbad]
  exact exceptionEnd_copied s exIllegalDataValue

/-! ## The whole loop -/

/-- A multiple write whose items all succeed, along the states `f 0`, `f 1`, ... between them, completes with the echo
of its request (R290, R291, R294). -/
theorem exec_writeMultiple_completes {r : FunctionRow} (hr : r ∈ writeMultipleRows) {s : State} (h : s.ReadyProcess)
    {slot : Fin 9} {b : BitVec 2} (hl : 5 ≤ s.req.len.toNat) (hs : Serves s r slot b) (hc : s.CountOk r.kind)
    {f : Nat → State} (hstart : f 0 = s.copied)
    (hok : ∀ i, i < s.quantity.toNat → writeItem slot s.start r.kind i (f i) = .ok () (f (i + 1)))
    (hreq : (f s.quantity.toNat).req = s.req) (hrsp : (f s.quantity.toNat).rsp = s.copied.rsp) :
    ∃ t, exec r.instr s = .next t ∧ EchoResponse s t ∧
      t = { f s.quantity.toNat with rsp := t.rsp, out := .completed {} } := by
  have hrun := forItems_run (item := writeItem slot s.start r.kind) f s.quantity.toNat 0 fun i hi => by
    rw [Nat.zero_add]
    exact hok i hi
  rw [exec_writeMultiple_served hr h hl hs hc, ← hstart, hrun]
  exact finish_ok_echo hreq hrsp

/-! ## The statements -/

/-- Settles O42: each item takes a success from the tape, and the loop leaves the answers after them. -/
theorem writeMultipleToTheApplication : Obligations.WriteMultipleToTheApplication := by
  intro r s slot rest hr h hl hs hc htape
  have hok (i : Nat) (hi : i < s.quantity.toNat) : s.appWrites[i]? = some (.returns exOk) := by
    rw [htape, List.getElem?_append_left (by simpa using hi), List.getElem?_replicate, if_pos hi]
  have hrest : s.appWrites.drop s.quantity.toNat = rest := by
    rw [htape]
    exact List.drop_left' List.length_replicate
  rw [← hrest]
  exact exec_writeMultiple_completes hr h hl hs hc (f := s.copied.afterWrites slot r.kind)
    (State.afterWrites_zero _ _ _)
    (fun i hi => (writeItem_afterWrites (s := s.copied) hs.2 r.kind (hok i hi)).trans (replyOf_ok _ _)) rfl rfl

/-- Settles O41: each item writes its slot, and the loop leaves the stores after all of them. -/
theorem writeMultipleToTheBuffer : Obligations.WriteMultipleToTheBuffer := by
  intro r s slot hr h hwf hl hs hc hhits
  obtain ⟨t, ht, hecho, hrun⟩ := exec_writeMultiple_completes hr h hl hs hc
    (f := fun i => { s.copied with ds := s.copied.storesAfter r.kind i }) rfl
    (fun i hi => by
      obtain ⟨j, off, hit⟩ := hhits i hi
      exact writeItem_storesAfter (s := s.copied) hs.2 r.kind hit) rfl rfl
  have hds : t.ds = s.copied.storesAfter r.kind s.quantity.toNat := by rw [hrun]
  refine ⟨t, ht, hecho, ?_, wrote_storesAfter (s := s.copied) h.cfg hwf r.kind s.quantity.isLt hhits hds⟩
  rw [hds]
  exact hrun

end Sys2Proof.Machine
end

section
/-! `PROCESS` as a whole: what an invocation, or a loop of them, can come to, the three ways a `PROCESS` can end, and
the claims read off these ends. -/

namespace Sys2Proof.Machine

/-! ## What invocations can come to -/

/-- The callbacks still to be answered from the tapes all return. -/
structure State.Answered (s : State) : Prop where
  reads : ∀ x ∈ s.appReads, x ≠ .never
  writes : ∀ x ∈ s.appWrites, x ≠ .never

/-- `r` is what invocations from `s` can come to: `REQ` and the status stay, the response's function code too; what is
presented to the application is logged; callbacks that return come to an end; and an exception without an invocation of
the application is the Register Buffer's own (R162). -/
structure Invokes {α : Type} (s : State) (r : Reply α) : Prop where
  kept : s.Kept r.state
  code : r.state.rsp.fc = s.rsp.fc
  logged : s.calls <+: r.state.calls
  answered : s.Answered → r.state.Answered
  returns : s.Answered → ∀ u, r ≠ .never u
  raises : ∀ e u, r = .exc e u → u.calls = s.calls → e = exIllegalDataAddress ∨ e = exSlaveDeviceFailure

section
variable {α : Type} {s t : State}

/-- Invocations that succeed and leave the response's function code alone. -/
theorem Invokes.ok {x : α} (hkept : s.Kept t) (hcode : t.rsp.fc = s.rsp.fc) (hlogged : s.calls <+: t.calls)
    (hanswered : s.Answered → t.Answered) : Invokes s (.ok x t) :=
  ⟨hkept, hcode, hlogged, hanswered, nofun, nofun⟩

/-- The response bank may be written, as long as its function code stays. -/
theorem Invokes.withRsp (s : State) (x : α) {p : Pdu} (hp : p.fc = s.rsp.fc) : Invokes s (.ok x (s.withRsp p)) :=
  .ok { State.Kept.refl s with } hp (List.prefix_refl s.calls) fun h => { h with }

theorem Invokes.refl (s : State) (x : α) : Invokes s (.ok x s) := .withRsp s x rfl

/-- An access of the Register Buffer that fails changes nothing and raises 0x02 or 0x04 (R158, R162). -/
theorem Invokes.fails {dir : Dir} {a : Word} {e : Byte} (h : locate s.cfg dir a = .fails e) :
    Invokes s (.exc e s : Reply α) where
  kept := .refl s
  code := rfl
  logged := List.prefix_refl s.calls
  answered := id
  returns := nofun
  raises _ _ hr _ := by
    cases hr
    exact locate_fails h

/-- Invocations one after the other. -/
theorem Invokes.trans {β : Type} {x : α} {r : Reply β} (h : Invokes s (.ok x t)) (g : Invokes t r) : Invokes s r where
  kept := h.kept.trans g.kept
  code := g.code.trans h.code
  logged := h.logged.trans g.logged
  answered hs := g.answered (h.answered hs)
  returns hs := g.returns (h.answered hs)
  raises e u hr hu := by
    have hlogged : t.calls <+: s.calls := by simpa only [hr, Reply.state_exc, hu] using g.logged
    exact g.raises e u hr (hu.trans (h.logged.eq_of_length_le hlogged.length_le))

/-- The application's answer, once the presentation `c` is logged (R233, R236). -/
theorem replyOf_invokes (x : α) (e : Byte) {c : Call} (hkept : s.Kept t) (hcode : t.rsp.fc = s.rsp.fc)
    (hcalls : t.calls = s.calls ++ [c]) (hanswered : s.Answered → t.Answered) : Invokes s (replyOf x e t) where
  kept := (replyOf_state x e t).symm ▸ hkept
  code := (replyOf_state x e t).symm ▸ hcode
  logged := (replyOf_state x e t).symm ▸ hcalls ▸ List.prefix_append ..
  answered := (replyOf_state x e t).symm ▸ hanswered
  returns _ u := by
    unfold replyOf
    split <;> exact nofun
  raises e' u hr hu := by
    have hstate : t = u := by simpa only [replyOf_state, Reply.state_exc] using congrArg Reply.state hr
    rw [← hstate, hcalls] at hu
    simp at hu

end

/-- An invocation whose callback is silent cannot happen while all answers return (R367). -/
theorem Invokes.silent {α : Type} {s t : State} {c : Call} (hkept : s.Kept t) (hcode : t.rsp.fc = s.rsp.fc)
    (hcalls : t.calls = s.calls ++ [c]) (hsilent : ¬ s.Answered) : Invokes s (.never t : Reply α) where
  kept := hkept
  code := hcode
  logged := hcalls ▸ List.prefix_append ..
  answered h := absurd h hsilent
  returns h := absurd h hsilent
  raises := nofun

theorem externalRead_invokes (slot : Fin 9) (fc : Byte) (a : Word) (s : State) :
    Invokes s (externalRead slot fc a s) := by
  have hkept : s.Kept s := .refl s
  unfold externalRead
  cases htape : s.appReads with
  | nil => exact replyOf_invokes _ _ { hkept with } rfl rfl fun h => { h with reads := nofun }
  | cons x xs =>
    have hrest (h : s.Answered) : ∀ y ∈ xs, y ≠ .never := fun y hy => h.reads y (htape ▸ List.mem_cons_of_mem x hy)
    cases x with
    | returns v e => exact replyOf_invokes _ _ { hkept with } rfl rfl fun h => { h with reads := hrest h }
    | never => exact .silent { hkept with } rfl rfl fun h => h.reads _ (htape ▸ List.mem_cons_self) rfl

theorem externalWrite_invokes (slot : Fin 9) (fc : Byte) (a v : Word) (s : State) :
    Invokes s (externalWrite slot fc a v s) := by
  have hkept : s.Kept s := .refl s
  unfold externalWrite
  cases htape : s.appWrites with
  | nil => exact replyOf_invokes _ _ { hkept with } rfl rfl fun h => { h with writes := nofun }
  | cons x xs =>
    have hrest (h : s.Answered) : ∀ y ∈ xs, y ≠ .never := fun y hy => h.writes y (htape ▸ List.mem_cons_of_mem x hy)
    cases x with
    | returns e => exact replyOf_invokes _ _ { hkept with } rfl rfl fun h => { h with writes := hrest h }
    | never => exact .silent { hkept with } rfl rfl fun h => h.writes _ (htape ▸ List.mem_cons_self) rfl

theorem callRead_invokes (slot : Fin 9) (fc : Byte) (a : Word) (s : State) : Invokes s (callRead slot fc a s) := by
  unfold callRead
  split
  · unfold bufferRead
    cases h : locate s.cfg .read a with
    | hit k off => exact .refl s _
    | fails e => exact .fails h
  · exact externalRead_invokes slot fc a s

theorem callWrite_invokes (slot : Fin 9) (fc : Byte) (a v : Word) (s : State) :
    Invokes s (callWrite slot fc a v s) := by
  unfold callWrite
  split
  · rcases bufferWrite_state a v s with ⟨k, off, -, h⟩ | ⟨e, hfails, h⟩
    · rw [h]
      exact .ok { State.Kept.refl s with } rfl (List.prefix_refl s.calls) fun h => { h with }
    · rw [h]
      exact .fails hfails
  · exact externalWrite_invokes slot fc a v s

/-- Storing an item's value writes payload registers only (R255, R257). -/
theorem readItem_invokes (slot : Fin 9) (start : Word) (k : Kind) (i : Nat) (s : State) :
    Invokes s (readItem slot start k i s) := by
  have hcall := callRead_invokes slot s.req.fc (itemAddr start i) s
  rw [readItem_eq]
  generalize callRead slot s.req.fc (itemAddr start i) s = reply at hcall ⊢
  cases reply with
  | ok v t => exact hcall.trans (.withRsp t () (Pdu.storeItem_fc ..))
  | exc e t => exact { hcall with returns := nofun, raises := fun _ _ hr => by cases hr; exact hcall.raises e t rfl }
  | never t => exact { hcall with returns := fun hs => absurd rfl (hcall.returns hs t), raises := nofun }

theorem forItems_invokes {item : Nat → State → Reply Unit} (h : ∀ i (u : State), Invokes u (item i u))
    (count i : Nat) (s : State) : Invokes s (forItems item count i s) := by
  induction count generalizing i s with
  | zero => exact .refl s ()
  | succ n ih =>
    have hitem := h i s
    unfold forItems
    generalize item i s = reply at hitem ⊢
    cases reply with
    | ok x t => exact hitem.trans (ih (i + 1) t)
    | exc e t => exact hitem
    | never t => exact hitem

/-! ## The ends of `PROCESS` -/

/-- What ends a loop of invocations with success writes the response bank but not its function code. -/
def KeepsCode (success : State → State) : Prop := ∀ u, ∃ p : Pdu, success u = u.withRsp p ∧ p.fc = u.rsp.fc

/-- The three ways the body of a `PROCESS` can end (R228): an exception of CORE's own checks, the generic-function
handler, or invocations and what answers them. -/
inductive ProcessEnd (s : State) : StepOut → Prop
  | exception {e : Byte} (he : e = exIllegalFunction ∨ e = exIllegalDataValue) : ProcessEnd s (exceptionEnd e s)
  | delegated : ProcessEnd s (delegate s)
  | invoked {r : Reply Unit} {success : State → State} (hr : Invokes s r) (hsuccess : KeepsCode success) :
      ProcessEnd s (finish r success)

/-- Both write families answer with the echo (R275, R291). -/
theorem ProcessEnd.echoed {s : State} {r : Reply Unit} (hr : Invokes s r) :
    ProcessEnd s (finish r State.echoResponse) :=
  .invoked hr fun _ => ⟨_, rfl, Pdu.setBytes_fc ..⟩

/-- A loop of reads, from a response bank begun with `p`, ends with the length set (R255, R257). -/
theorem ProcessEnd.readLoop {s : State} (slot : Fin 9) (start : Word) (k : Kind) (count : Nat) {p : Pdu} (len : Byte)
    (hp : p.fc = s.rsp.fc) : ProcessEnd s (finish (forItems (readItem slot start k) count 0 (s.withRsp p))
      fun u => u.withRsp { u.rsp with len := len }) :=
  .invoked ((Invokes.withRsp s () hp).trans (forItems_invokes (readItem_invokes slot start k) count 0 _))
    fun _ => ⟨_, rfl, rfl⟩

theorem readFamily_ends (spec : Option (Fin 9)) (kind : Kind) (s : State) :
    ProcessEnd s (readFamily spec kind s) := by
  unfold readFamily
  split
  · exact .exception (.inr rfl)
  · dsimp only
    split
    · exact .delegated
    · split
      · exact .exception (.inr rfl)
      · cases kind with
        | bit => exact .readLoop _ _ .bit _ _ (Pdu.setBytes_fc ..)
        | register => exact .readLoop _ _ .register _ _ rfl

theorem writeSingle_ends (spec : Option (Fin 9)) (kind : Kind) (s : State) :
    ProcessEnd s (writeSingle spec kind s) := by
  unfold writeSingle
  split
  · exact .exception (.inr rfl)
  · dsimp only
    split
    · exact .delegated
    · split
      · exact .exception (.inr rfl)
      · exact .echoed (callWrite_invokes ..)

theorem writeMultiple_ends (spec : Option (Fin 9)) (kind : Kind) (s : State) :
    ProcessEnd s (writeMultiple spec kind s) := by
  unfold writeMultiple
  split
  · exact .exception (.inr rfl)
  · dsimp only
    split
    · exact .delegated
    · cases kind with
      | bit =>
        dsimp only
        split
        · exact .echoed (forItems_invokes (fun _ u => callWrite_invokes _ _ _ _ u) _ 0 s)
        · exact .exception (.inr rfl)
      | register =>
        dsimp only
        split
        · exact .echoed (forItems_invokes (fun _ u => callWrite_invokes _ _ _ _ u) _ 0 s)
        · exact .exception (.inr rfl)

theorem dispatchFunction_ends (s : State) : ProcessEnd s (dispatchFunction s) := by
  unfold dispatchFunction
  cases familyOf s.req.fc with
  | read => exact readFamily_ends _ _ s
  | writeSingle => exact writeSingle_ends _ _ s
  | writeMultiple => exact writeMultiple_ends _ _ s
  | none => exact .exception (.inl rfl)

/-- Every instruction of `PROCESS` that runs ends in one of the three ways, from the copied header (R220, R222). -/
theorem exec_ends {i : Instr} (h : isProcess i = true) {s : State} (hs : s.ReadyProcess) :
    ProcessEnd s.copied (exec i s) := by
  have ends {body : State → StepOut} (hbody : ∀ u, ProcessEnd u (body u)) :
      ProcessEnd s.copied (processEntry s body) := by
    rw [processEntry_ready hs]
    exact hbody s.copied
  cases i with
  | process => exact ends dispatchFunction_ends
  | rdcoils | rddisc | rdhold | rdinput | rwregs => exact ends (readFamily_ends _ _)
  | wrcoil | wrreg => exact ends (writeSingle_ends _ _)
  | wrcoils | wrregs => exact ends (writeMultiple_ends _ _)
  | rsvd07 | rsvd08 | rsvd0B | rsvd0C | rsvd11 | rsvd14 | rsvd15 | rsvd16 | rsvd18 | illegal =>
    exact ends fun _ => .exception (.inl rfl)
  | _ => exact absurd h Bool.false_ne_true

/-! ## Completion -/

/-- The operation completes, and `HALT`, `FCAUSE` and the stuck mark stay. -/
def Completes (s : State) (o : StepOut) : Prop :=
  ∃ t, o = .next t ∧ t.out = .completed {} ∧ t.halt = s.halt ∧ t.fcause = s.fcause ∧ t.stuck = s.stuck

/-- A handler that returns completes the request, from its tape or with a free answer (R226, R230). -/
theorem delegate_completes {s : State} (h : ∀ x ∈ s.appGenerics, ∀ p, x ≠ .never p) : Completes s (delegate s) := by
  unfold delegate
  cases htape : s.appGenerics with
  | nil => exact ⟨_, rfl, rfl, rfl, rfl, rfl⟩
  | cons x xs =>
    cases x with
    | leaves p => exact ⟨_, rfl, rfl, rfl, rfl, rfl⟩
    | never p => exact absurd rfl (h _ (htape ▸ List.mem_cons_self) p)

/-- Invocations that return are answered, with success or with an exception (R232, R316). -/
theorem finish_completes {s : State} {r : Reply Unit} {success : State → State} (hs : s.Answered) (hr : Invokes s r)
    (hsuccess : KeepsCode success) : Completes s (finish r success) := by
  have hkept := hr.kept
  cases r with
  | ok x t =>
    obtain ⟨p, hp, -⟩ := hsuccess t
    refine ⟨_, rfl, rfl, ?_⟩
    rw [hp]
    exact ⟨hkept.halt, hkept.fcause, hkept.stuck⟩
  | exc e t => exact ⟨_, rfl, rfl, hkept.halt, hkept.fcause, hkept.stuck⟩
  | never t => exact absurd rfl (hr.returns hs t)

/-- Settles O45: each of the three ends completes when the callbacks return. -/
theorem processAlwaysCompletes : Obligations.ProcessAlwaysCompletes := by
  intro i s hi hs hreads hwrites hgenerics
  have hcompletes : Completes s.copied (exec i s) := by
    have hend := exec_ends hi hs
    generalize exec i s = o at hend ⊢
    cases hend with
    | exception _ => exact ⟨_, rfl, rfl, rfl, rfl, rfl⟩
    | delegated => exact delegate_completes hgenerics
    | invoked hr hsuccess => exact finish_completes ⟨hreads, hwrites⟩ hr hsuccess
  obtain ⟨t, ht, hout, hhalt, hfcause, hstuck⟩ := hcompletes
  exact ⟨t, ht, hout, hhalt.trans hs.running, hfcause, hstuck⟩

/-! ## The exceptions that CORE raises -/

/-- The four exception values of CORE's own (R311). -/
def IsCoreCode (e : Byte) : Prop := e = 0x01 ∨ e = 0x02 ∨ e = 0x03 ∨ e = 0x04

/-- An exception response holds its exception value in the first payload register (R231). -/
theorem State.exceptionResponse_get_zero (s : State) (e : Byte) : (s.exceptionResponse e).rsp.get 0 = e :=
  Pdu.get_set_same _ e (by decide)

/-- Where the response begins with bit 7 of its function code clear, only an exception sets it; and with the application
not reached, the exception is one of CORE's own checks or of the Register Buffer (R162, R311). -/
theorem ProcessEnd.isCoreCode {s t : State} {o : StepOut} (hend : ProcessEnd s o) (h : o = .next t)
    (hclear : s.rsp.fc.getLsbD 7 = false) (hcalls : t.calls = s.calls) (hset : t.rsp.fc.getLsbD 7 = true) :
    IsCoreCode (t.rsp.get 0) := by
  have hcode : t.rsp.fc ≠ s.rsp.fc := fun hfc => Bool.false_ne_true (hclear.symm.trans (hfc ▸ hset))
  cases hend with
  | @exception e he =>
    obtain rfl := Host.Outcome.next.inj h
    rw [State.complete_rsp, State.exceptionResponse_get_zero]
    exact he.elim .inl fun he => .inr (.inr (.inl he))
  | delegated =>
    obtain ⟨u, hu, hlogged, -⟩ := delegate_next s
    obtain rfl := Host.Outcome.next.inj (hu.symm.trans h)
    simp [hcalls] at hlogged
  | @invoked r success hr hsuccess =>
    cases r with
    | ok x u =>
      obtain rfl := Host.Outcome.next.inj h
      obtain ⟨p, hp, hpfc⟩ := hsuccess u
      rw [State.complete_rsp, hp] at hcode
      exact absurd (hpfc.trans hr.code) hcode
    | exc e u =>
      obtain rfl := Host.Outcome.next.inj h
      rw [State.complete_rsp, State.exceptionResponse_get_zero]
      exact (hr.raises e u rfl hcalls).elim (fun he => .inr (.inl he)) fun he => .inr (.inr (.inr he))
    | never u =>
      obtain rfl := Host.Outcome.next.inj h
      exact absurd hr.code hcode

/-- The served function codes have bit 7 clear (R111). -/
theorem not_served_of_bit7 {fc : Byte} (h : fc.getLsbD 7 = true) :
    fc ∉ ([0x01, 0x02, 0x03, 0x04, 0x05, 0x06, 0x0F, 0x10, 0x17] : List Byte) := by
  intro hmem
  simp only [List.mem_cons, List.not_mem_nil, or_false] at hmem
  rcases hmem with rfl | rfl | rfl | rfl | rfl | rfl | rfl | rfl | rfl <;> exact absurd h (by decide)

/-- Settles O47: a request code with bit 7 set is illegal; one with bit 7 clear is copied to the response first. -/
theorem coreRaisesOnlyFourCodes : Obligations.CoreRaisesOnlyFourCodes := by
  intro s t hs h hcalls hset
  cases hbit : s.req.fc.getLsbD 7 with
  | false => exact (exec_ends (i := .process) rfl hs).isCoreCode h hbit hcalls hset
  | true =>
    obtain ⟨u, hu, ⟨-, -, -, hexc⟩, -⟩ := illegalFunctionResponse .process s hs (.inr ⟨rfl, not_served_of_bit7 hbit⟩)
    obtain rfl := Host.Outcome.next.inj (hu.symm.trans h)
    exact .inl hexc

end Sys2Proof.Machine
end

section
/-! Callbacks that never return: the read's loop stops at the silent item, and the silent handler leaves its bank. -/

namespace Sys2Proof.Machine

/-- An invocation of an application that never answers (R367). -/
theorem callRead_never {s : State} {slot : Fin 9} (hb : binding s.cfg slot = Config.external) {rest : List ReadAnswer}
    (h : s.appReads = .never :: rest) (fc : Byte) (a : Word) : callRead slot fc a s =
      .never { s with calls := s.calls ++ [Call.read slot fc a], appReads := rest } := by
  simp only [callRead, if_neg (external_ne_buffer hb), externalRead, h]

/-- The loop of a read, when item `m` is the first that never returns (R367). -/
theorem ReadsItems.forItems_never {s u : State} {slot : Fin 9} {vals : Nat → Word} {m count : Nat} {g : Nat → State}
    (h : ReadsItems s slot vals m g) (k : Kind) (p : Pdu) (hm : m < count)
    (hn : ∀ p, callRead slot s.req.fc (s.item m) ((g m).withRsp p) = .never (u.withRsp p)) :
    forItems (readItem slot s.start k) count 0 (s.withRsp p) =
      .never (u.withRsp (p.storeItems s.cfg.bitRule k vals m)) := by
  have hsilent : readItem slot s.start k (0 + m) ((g m).withRsp (p.storeItems s.cfg.bitRule k vals m)) =
      .never (u.withRsp (p.storeItems s.cfg.bitRule k vals m)) := by
    rw [Nat.zero_add, h.readItem_eq, hn]
    rfl
  have habort := forItems_abort (fun n => (g n).withRsp (p.storeItems s.cfg.bitRule k vals n)) hm
    (fun i hi => by
      rw [Nat.zero_add]
      exact h.readItem_ok k hi _) hsilent nofun
  rwa [h.start] at habort

/-- A read whose application answers `m` items and no more: `RSP` holds the items read by then (log 17). -/
theorem exec_read_silent {r : FunctionRow} (hr : r ∈ readRows) {s : State} (h : s.ReadyProcess) {slot : Fin 9}
    (hl : s.req.len = 4) (hs : Serves s r slot 2) (hmax : s.quantity.toNat ≤ readMax s.cfg r.kind) {vals : Nat → Word}
    {m : Nat} (hm : m < s.quantity.toNat) (hok : ∀ i, i < m → s.appReads[i]? = some (.returns (vals i) exOk))
    {rest : List ReadAnswer} (hnever : s.appReads.drop m = .never :: rest) :
    ∃ p, exec r.instr s = stuckEnd ({ s with
      rsp := p, appReads := rest,
      calls := (s.afterReads slot m).calls ++ [Call.read slot s.req.fc (s.item m)] }) := by
  rw [exec_read_loop hr h hl hs hmax (by omega), (readsItems_application hs.2 hok).forItems_never r.kind _ hm
    (u := { s with
      appReads := rest, calls := (s.afterReads slot m).calls ++ [Call.read slot s.req.fc (s.item m)] })
    fun p => callRead_never (s := (s.afterReads slot m).withRsp p) hs.2 hnever _ _]
  exact ⟨_, rfl⟩

/-- A handler that never returns was presented both banks and leaves the bank it is scripted with (R367; log 17). -/
theorem delegate_never {s : State} {p : Pdu} {rest : List GenericAnswer} (h : s.appGenerics = .never p :: rest) :
    delegate s = stuckEnd
      { s with rsp := p, appGenerics := rest, calls := s.calls ++ [Call.generic s.req s.rsp] } := by
  simp only [delegate, h]

/-- Settles O37: the silent item ends the read's loop, the silent handler the delegated request, and a stuck machine
stays. -/
theorem silentCallbackNeverEnds : Obligations.SilentCallbackNeverEnds := by
  refine ⟨fun r s slot vs rest hr h hl hs hm hmax htape => ?_, fun r s p rest h hr hspec hgen htape => ?_,
    fun s hs => step_stuck hs⟩
  · obtain ⟨p, hexec⟩ := exec_read_silent hr h hl hs hmax hm (fun i hi => appReads_getElem? htape i hi)
      (appReads_drop htape)
    exact ⟨_, hexec, rfl, rfl, rfl, rfl, rfl⟩
  · obtain ⟨-, -, hnone⟩ := handlerOrder s.cfg r.spec r.gen
    exact (exec_delegated h hr (hnone hspec hgen)).trans (delegate_never (s := s.copied) htape)

end Sys2Proof.Machine
end

section
/-! Refusals and resets: what a halted block and a block with an ill-formed record answer, and what a reset leaves,
up to the first operation after it. -/

namespace Sys2Proof.Machine

/-! ## Refusals -/

/-- Every operation but a reserved one stands behind the common entry check (R331, R352). -/
theorem exec_eq_issue {i : Instr} (h : i ∉ reservedHostOps) : ∃ body, ∀ s, exec i s = issue s body := by
  cases i with
  | hostopRsvd0 | hostopRsvdA | hostopRsvdB | hostopRsvdC | hostopRsvdD | hostopRsvdE | hostopRsvdF =>
    exact absurd (by decide) h
  | _ => exact ⟨_, fun _ => rfl⟩

theorem issue_halted {s : State} (hc : cfgWf s.cfg = true) (hh : s.halt = true) (body : State → StepOut) :
    issue s body = .next s.refuse := by
  rw [issue, if_pos hc, if_pos hh]

theorem issue_illFormed {s : State} (hc : cfgWf s.cfg = false) (body : State → StepOut) :
    issue s body = .refused .illFormedConfiguration := by
  rw [issue, if_neg (Bool.eq_false_iff.mp hc)]

theorem resetEvent_illFormed {c : ConfigRecord} {s : State} (h : cfgWf c = false) :
    resetEvent c s = .refused .illFormedConfiguration := if_neg (Bool.eq_false_iff.mp h)

/-- Settles O49: a reserved code is refused anyway, any other operation by the entry check. -/
theorem haltedRefusesEverything : Obligations.HaltedRefusesEverything := by
  intro i s hc hh
  by_cases hi : i ∈ reservedHostOps
  · exact exec_reservedHostOp hi s
  · obtain ⟨body, hbody⟩ := exec_eq_issue hi
    exact (hbody s).trans (issue_halted hc hh body)

/-- Settles O57: the reset event and the entry check make the same test. -/
theorem illFormedConfigurationIsRefused : Obligations.IllFormedConfigurationIsRefused := by
  refine ⟨fun s c rest hs hi hc => (step_reset hs hi).trans (resetEvent_illFormed hc), fun i s hc hi => ?_⟩
  obtain ⟨body, hbody⟩ := exec_eq_issue hi
  exact (hbody s).trans (issue_illFormed hc body)

/-! ## Resets -/

/-- Settles O54: the step is the reset event, and that one constructs the Instance anew. -/
theorem resetLeavesTheseValues : Obligations.ResetLeavesTheseValues := fun _ _ _ hs hi hc =>
  ⟨_, (step_reset hs hi).trans (resetEvent_wf hc), rfl, rfl, rfl, rfl, rfl, rfl, rfl, rfl, rfl, rfl, rfl⟩

theorem State.construct_ready (s : State) {c : ConfigRecord} (hc : cfgWf c = true) : (s.construct c).Ready :=
  ⟨hc, rfl⟩

@[simp] theorem State.construct_bank (s : State) (c : ConfigRecord) (b : Bank) : (s.construct c).bank b = Pdu.reset := by
  cases b <;> rfl

/-- The frames of the empty PDU (R355). -/
theorem rtuFrame_reset : rtuFrame Pdu.reset = [0x00, 0x00, 0x01, 0xB0] := by
  decide +kernel

theorem ascFrame_reset : ascFrame Pdu.reset = [0x3A, 0x30, 0x30, 0x30, 0x30, 0x30, 0x30, 0x0D, 0x0A] := by decide

/-- Settles O56: function code 0 is an illegal one, and the encoders frame the empty PDU of either bank. -/
theorem firstOperationAfterReset : Obligations.FirstOperationAfterReset := by
  intro s c hc hwf
  have hready := s.construct_ready hc
  have hempty : Pdu.reset.len.toNat ≤ Config.payloadMax := Nat.zero_le _
  refine ⟨fun hb => ?_, fun b cap hcap => ?_, fun b cap hcap => ?_⟩
  · have hhandler : binding (s.construct c).cfg sGenFunction ≠ Config.unbound :=
      fun hunbound => absurd (hb.symm.trans hunbound) (by decide)
    have hillegal : Pdu.reset.fc ∉ ([0x01, 0x02, 0x03, 0x04, 0x05, 0x06, 0x0F, 0x10, 0x17] : List Byte) := by decide
    obtain ⟨t, ht, ⟨haddr, hfc, hlen, hexc⟩, -⟩ :=
      illegalFunctionResponse .process (s.construct c) ⟨hready, hhandler⟩ (.inr ⟨rfl, hillegal⟩)
    exact ⟨t, ht, haddr, hfc.trans (by decide : Pdu.reset.fc ||| 0x80 = 0x80), hlen, hexc⟩
  · have hexec := exec_rtuEnc_ready hready b cap
    rw [State.construct_bank] at hexec
    exact ⟨_, hexec.trans (if_neg (not_or.mpr ⟨hempty.not_gt, hcap.not_gt⟩)), rfl,
       (readBytes_rtuFrame hwf hempty).trans rtuFrame_reset⟩
  · have hexec := exec_ascEnc_ready hready b cap
    rw [State.construct_bank] at hexec
    exact ⟨_, hexec.trans (if_neg (not_or.mpr ⟨hempty.not_gt, hcap.not_gt⟩)), rfl,
       (readBytes_ascFrame hwf hempty).trans ascFrame_reset⟩

end Sys2Proof.Machine
end
